-- ==== Sys2Proof/Word.lean ====
section
/-! DEFINITION. The word types of the block and the type of its real quantities.

The command word is the only bit vector the host ever sends (00_scope.md section 6); the widths below are the ones that
section lists.  Every frequency, rate, time, phase, sample and correlation sum is a real number (rule R4).  A real number
is held here as plain data, `Quantity`: an exact normal form where the arithmetic of the block stays inside the numbers
`∑ c * cos (2π a)` with rational `c`, `a` or inside the rational multiples of the circle constant, and a written-out
expression of exact operations everywhere else.  The real number a `Quantity` stands for is `Quantity.val` (Machine/Value.lean). -/

namespace Sys2Proof

/-- The 8-bit command word (rule R45). -/
abbrev CmdWord := BitVec 8

/-- The 3-bit response code (rule R101). -/
abbrev RspCode := BitVec 3

/-- The 5-bit fault record (rule R16). -/
abbrev ErrBits := BitVec 5

/-- A bit of `RXOUT` (rules R8, R21). -/
abbrev Bit := BitVec 1

/-- The finite sum `∑ c * cos (2π a)` over its entries `(a, c)`: `a` counts turns of the circle, `c` is the coefficient.
The entry with angle 0 is the rational part; the empty list is the number 0. -/
abbrev TrigSum := List (Rat × Rat)

/-- A real number (rule R4).  The operations that build one are `Quantity.add`, `Quantity.mul`, ... of Machine/Real.lean, which keep
a result in one of the first two forms whenever they can; the constructors from `sum` on hold an exact operation that has
no such form, written out. -/
inductive Quantity where
  /-- `∑ c * cos (2π a)`, the form of every rational number and of every sample and sum made from rational parameters. -/
  | alg (x : TrigSum)
  /-- `2π q`, the phase of `q` turns. -/
  | turns (q : Rat)
  /-- A real number the host delivers and for which it writes no closed form: the `n`-th one, known by its binary digits
  (`Config.givenDigit`). -/
  | given (n : Nat)
  /-- `a + b`. -/
  | sum (a b : Quantity)
  /-- `a * b`. -/
  | prod (a b : Quantity)
  /-- `a / b`. -/
  | quot (a b : Quantity)
  /-- The sine of `a` radians (rule R5). -/
  | sinOf (a : Quantity)
  /-- The cosine of `a` radians (rule R5). -/
  | cosOf (a : Quantity)
  /-- The non-negative square root of `a` (rule R5). -/
  | sqrtOf (a : Quantity)
deriving DecidableEq, Repr, Inhabited

/-- The payload tuple `P = (freq0, freq1, samplingRate, baudRate)` of the three STARTs, in this order (rule R49). -/
structure Params where
  freq0 : Quantity
  freq1 : Quantity
  samplingRate : Quantity
  baudRate : Quantity
deriving DecidableEq, Repr, Inhabited

/-- What stands on the payload port with a command (rules R28, R30). -/
inductive Payload where
  /-- Nothing: the delivery of a command that has no payload. -/
  | none
  /-- The four values of a START. -/
  | params (P : Params)
  /-- The sample of `RXSAMP`. -/
  | sample (x : Quantity)
deriving DecidableEq, Repr, Inhabited

end Sys2Proof
end

