-- ==== Sys2Proof/Syntax.lean ====
section
/-! DEFINITION. The commands of FSKCORE-1, one constructor per row of the opcode map (30_encoding.md rule R50). -/

namespace Sys2Proof

/-- A command, without its payload: the payload is not part of the command word (rule R49). -/
inductive Instr where
  /-- `NOP` (rule R60). -/
  | nop
  /-- `TXSTART.F P`: open a modulation call, discontinuous phase (rule R63). -/
  | txstartF
  /-- `TXSTART.C P`: open a modulation call, continuous phase (rule R69). -/
  | txstartC
  /-- `TXSYM v`: modulate the symbol value `v` (rule R64), an unsigned integer (rule R48). -/
  | txsym (v : Nat)
  /-- `TXEND`: close the modulation call (rule R65). -/
  | txend
  /-- `RXSTART P`: open a demodulation call (rule R75). -/
  | rxstart
  /-- `RXSAMP x`: integrate one sample (rule R76). -/
  | rxsamp
  /-- `RXEND`: close the demodulation call (rule R81). -/
  | rxend
deriving DecidableEq, Repr, Inhabited

end Sys2Proof
end

