-- ==== Sys2Proof/WellFormed.lean ====
section
/-! DEFINITION. Which commands an assembler accepts, and which payload goes with each. -/

namespace Sys2Proof

/-- The operand of the command fits its field: `v` of `TXSYM` is 0 to 15 (rules R8, R53). -/
def Instr.wellFormed : Instr → Bool
  | .nop => true
  | .txstartF => true
  | .txstartC => true
  | .txsym v => decide (v < 16)
  | .txend => true
  | .rxstart => true
  | .rxsamp => true
  | .rxend => true

/-- The payload has the shape the command reads (rules R30, R49).  A command without a payload ignores the port, so any
payload fits it (rule R30; 93_implementation_defined.md U7). -/
def Instr.payloadFits : Instr → Payload → Bool
  | .nop, _ => true
  | .txstartF, p => (match p with | .params _ => true | _ => false)
  | .txstartC, p => (match p with | .params _ => true | _ => false)
  | .txsym _, _ => true
  | .txend, _ => true
  | .rxstart, p => (match p with | .params _ => true | _ => false)
  | .rxsamp, p => (match p with | .sample _ => true | _ => false)
  | .rxend, _ => true

end Sys2Proof
end

