-- ==== Sys2Proof/Decode.lean ====
section
/-! DEFINITION. The decoder of the 8-bit command word, total on all 256 words, and the encoder (30_encoding.md). -/

namespace Sys2Proof

/-- Why a command word is reserved (rule R51). -/
inductive Reserved where
  /-- `op` is 0x7 to 0xF: 144 words. -/
  | opcode
  /-- `op` is 0x0, 0x3, 0x4, 0x5 or 0x6 and `arg` is not 0000: 75 words. -/
  | argument
  /-- `op` is 0x1 and `arg[3:1]` is not 000: 14 words. -/
  | mode
deriving DecidableEq, Repr

/-- `op = w[7:4]` (rule R46). -/
def fieldOp (w : CmdWord) : Nat := w.toNat / 16

/-- `arg = w[3:0]` (rule R46). -/
def fieldArg (w : CmdWord) : Nat := w.toNat % 16

/-- The word whose fields are `op` and `arg` (rule R46). -/
def wordOf (op arg : Nat) : CmdWord := BitVec.ofNat 8 (op * 16 + arg % 16)

/-- The sub-format `C8.N`: `arg` must be 0000 (rule R47). -/
def formatN (arg : Nat) (i : Instr) : Except Reserved Instr := if arg = 0 then .ok i else .error .argument

/-- The sub-format `C8.M`: `arg[0]` is the phase strategy, `arg[3:1]` must be 000 (rule R47). -/
def formatM (arg : Nat) (fsk cpfsk : Instr) : Except Reserved Instr :=
  if arg / 2 = 0 then (if arg % 2 = 0 then .ok fsk else .ok cpfsk) else .error .mode

/-- The sub-format `C8.V`: `arg` is the symbol value, zero-extended; all 16 values are legal (rules R47, R48). -/
def formatV (arg : Nat) (f : Nat → Instr) : Except Reserved Instr := .ok (f arg)

/-- The opcode map (rule R50); every other word is reserved (rule R51). -/
def decodeFields (op arg : Nat) : Except Reserved Instr :=
  match op with
  | 0 => formatN arg .nop
  | 1 => formatM arg .txstartF .txstartC
  | 2 => formatV arg .txsym
  | 3 => formatN arg .txend
  | 4 => formatN arg .rxstart
  | 5 => formatN arg .rxsamp
  | 6 => formatN arg .rxend
  | _ => .error .opcode

/-- The decoder: a command, or the reason why the word is reserved. -/
def decode (w : CmdWord) : Except Reserved Instr := decodeFields (fieldOp w) (fieldArg w)

/-- The word of a command (rules R50, R53). -/
def encode : Instr → CmdWord
  | .nop => wordOf 0 0
  | .txstartF => wordOf 1 0
  | .txstartC => wordOf 1 1
  | .txsym v => wordOf 2 v
  | .txend => wordOf 3 0
  | .rxstart => wordOf 4 0
  | .rxsamp => wordOf 5 0
  | .rxend => wordOf 6 0

/-- The opcode map as the table of rule R50 writes it: mask and match of each row, in its order. -/
def opcodeRows : List (CmdWord × CmdWord) :=
  [(0xFF, 0x00), (0xFF, 0x10), (0xFF, 0x11), (0xF0, 0x20), (0xFF, 0x30), (0xFF, 0x40), (0xFF, 0x50), (0xFF, 0x60)]

/-- How many rows of the map a word selects: `w & mask = match` (rule R50). -/
def rowsSelected (w : CmdWord) : Nat := (opcodeRows.filter fun r => (w &&& r.1) == r.2).length

/-- The instruction the decoder reads from a word of `nbits` bits, numbered as the opcode table numbers them.  Every
command is one word of 8 bits (rule R45). -/
def decodeTableWord (nbits w : Nat) : Option Instr :=
  if nbits = 8 ∧ w < 256 then (match decode (BitVec.ofNat 8 w) with | .ok i => some i | .error _ => none) else none

end Sys2Proof
end

