-- ==== Sys2Proof/Config.lean ====
section
/-! DEFINITION. What the spec leaves open, as constants without a value.  Nothing can evaluate one or prove a value of
it, so a claim that mentions one holds whatever it is.

The number system is the reference one of rule R4, the reals with exact operations and exact comparison; nothing about it
is open.  Open is only which numbers the host delivers (notes/assumptions/5.md). -/

namespace Sys2Proof

/-- The integer the binary expansion of `Quantity.given n` starts from. -/
opaque Config.givenInt : Nat → Int

/-- The digits of the binary expansion of `Quantity.given n`: `-1` for a negative number, 0 for 0, 1 for a positive one. -/
opaque Config.givenDigit : Nat → Nat → Int

/-- What the host reads, in its `n`-th read, from a real register of the given name that nothing has written since reset
(rule R23: "A host read of such a register returns an unspecified value"). -/
opaque Config.unwrittenReal : String → Nat → Quantity

/-- What the host reads from a counter register that nothing has written since reset (rule R23). -/
opaque Config.unwrittenNat : String → Nat → Nat

/-- What the host reads from `TX.MODE` when nothing has written it since reset (rule R23). -/
opaque Config.unwrittenMode : Nat → Bit

/-- Which of its two neighbouring integers the host's `round` takes for a number exactly halfway between them: the upper
one where this is true (rule R98 leaves the half open; 93_implementation_defined.md U4 says any value). -/
opaque Config.roundHalfUp : ℝ → Bool

end Sys2Proof
end

