-- ==== Sys2Proof/Machine/Rational.lean ====
section
/-! DEFINITION. Exact arithmetic on rational numbers, written over numerators and denominators so that it can be run
anywhere.  Each function is the library's operation of the same name (Laws/Rational.lean). -/

namespace Sys2Proof.Machine

/-- `a + b`. -/
def ratAdd (a b : Rat) : Rat := mkRat (a.num * b.den + b.num * a.den) (a.den * b.den)

/-- `-a`. -/
def ratNeg (a : Rat) : Rat := mkRat (-a.num) a.den

/-- `a - b`. -/
def ratSub (a b : Rat) : Rat := ratAdd a (ratNeg b)

/-- `a * b`. -/
def ratMul (a b : Rat) : Rat := mkRat (a.num * b.num) (a.den * b.den)

/-- `a / b`, and 0 for `b = 0`. -/
def ratDiv (a b : Rat) : Rat := Rat.divInt (a.num * b.den) (a.den * b.num)

/-- `|a|`. -/
def ratAbs (a : Rat) : Rat := mkRat a.num.natAbs a.den

/-- `a < b`, exactly. -/
def ratLt (a b : Rat) : Bool := decide (a.num * b.den < b.num * a.den)

/-- The greatest integer not above `a` (rule R6). -/
def ratFloor (a : Rat) : Int := a.num / a.den

/-- The order of two rational numbers. -/
def ratCompare (a b : Rat) : Ordering :=
  if ratLt a b then .lt else if ratLt b a then .gt else .eq

end Sys2Proof.Machine
end

