-- ==== Sys2Proof/Machine/TrigSum.lean ====
section
/-! DEFINITION. Exact arithmetic and exact order on the numbers `∑ c * cos (2π a)` with rational `c` and `a`.

Every sample the synthesizers emit and every correlation sum of such samples is one of these when the parameters are
rational, so rule R4's exact comparison can be computed on them: first the number is enclosed in a rational interval, and
where the interval does not decide, a precision is used at which a number of this form other than 0 must show its sign
(`trigBits`; the norm of an algebraic integer other than 0 is at least 1). -/

namespace Sys2Proof.Machine

/-- The angle in `[0, 1/2]` turns that has the cosine of `a` turns: whole turns dropped, the lower half mirrored. -/
def turnHalf (a : Rat) : Rat :=
  let r := ratSub a (mkRat (ratFloor a) 1)
  if ratLt (mkRat 1 2) r then ratSub (mkRat 1 1) r else r

/-- `cos (2π a) = f * cos (2π b)` for the returned `(b, f)`, with `0 ≤ b < 1/4`: the angle folded into the first
quadrant.  The angles 1/4, 1/6 and 1/3 have the rational cosines 0, 1/2 and -1/2 and fold to the angle 0. -/
def turnFold (a : Rat) : Rat × Rat :=
  let r := turnHalf a
  if r = mkRat 1 4 then (0, 0)
  else if r = mkRat 1 6 then (0, mkRat 1 2)
  else if r = mkRat 1 3 then (0, mkRat (-1) 2)
  else if ratLt (mkRat 1 4) r then (ratSub (mkRat 1 2) r, mkRat (-1) 1)
  else (r, mkRat 1 1)

/-- `c * cos (2π a) + x`, keeping the entries in rising order of angle and dropping one whose coefficient becomes 0. -/
def trigInsert (a c : Rat) : TrigSum → TrigSum
  | [] => if c = 0 then [] else [(a, c)]
  | (b, d) :: x =>
    if a = b then (let e := ratAdd c d; if e = 0 then x else (b, e) :: x)
    else if ratLt a b then (if c = 0 then (b, d) :: x else (a, c) :: (b, d) :: x)
    else (b, d) :: trigInsert a c x

/-- `c * cos (2π a) + x` for any angle `a`, folded first. -/
def trigAddCos (a c : Rat) (x : TrigSum) : TrigSum :=
  trigInsert (turnFold a).1 (ratMul c (turnFold a).2) x

/-- `cos (2π a)`. -/
def cosTurn (a : Rat) : TrigSum := trigAddCos a (mkRat 1 1) []

/-- `sin (2π a)`. -/
def sinTurn (a : Rat) : TrigSum := cosTurn (ratSub a (mkRat 1 4))

/-- `x + y`. -/
def trigAdd (x y : TrigSum) : TrigSum := x.foldr (fun t z => trigInsert t.1 t.2 z) y

/-- `q * x`. -/
def trigScale (q : Rat) (x : TrigSum) : TrigSum :=
  if q = 0 then [] else x.map fun t => (t.1, ratMul q t.2)

/-- `c * cos (2π a) * x + z`, by `2 cos u cos v = cos (u + v) + cos (u - v)`. -/
def trigMulTerm (a c : Rat) (x z : TrigSum) : TrigSum :=
  x.foldr (fun t z =>
    let h := ratMul (mkRat 1 2) (ratMul c t.2)
    trigAddCos (ratAdd a t.1) h (trigAddCos (ratSub a t.1) h z)) z

/-- `x * y`. -/
def trigMul (x y : TrigSum) : TrigSum := x.foldr (fun t z => trigMulTerm t.1 t.2 y z) []

/-! ## Enclosures -/

/-- The first `n` terms of the series of `arctan (1/k)`. -/
def arctanInv (k : Nat) : Nat → Rat
  | 0 => 0
  | n + 1 => ratAdd (arctanInv k n) (mkRat ((-1) ^ n) ((2 * n + 1) * k ^ (2 * n + 1)))

/-- `2^p * π` rounded down, up to `9/8`: Machin's `π = 16 arctan (1/5) - 4 arctan (1/239)`. -/
def piFix (p : Nat) : Int :=
  let n := p / 4 + 2
  ratFloor (ratMul (mkRat (2 ^ p) 1)
    (ratSub (ratMul (mkRat 16 1) (arctanInv 5 n)) (ratMul (mkRat 4 1) (arctanInv 239 n))))

/-- `1 - y/((2k+1)(2k+2)) * (1 - y/((2k+3)(2k+4)) * ...)`, `n` levels deep: at `k = 0` the Taylor polynomial of the
cosine in `y`, the square of the angle. -/
def cosPoly (y : Rat) : Nat → Nat → Rat
  | 0, _ => mkRat 1 1
  | n + 1, k =>
    ratSub (mkRat 1 1) (ratMul (ratDiv y (mkRat ((2 * k + 1) * (2 * k + 2) : Nat) 1)) (cosPoly y n (k + 1)))

/-- `2^p * cos (2π a)` for `0 ≤ a ≤ 1/4`, with an error of at most 4. -/
def cosFix (p : Nat) (a : Rat) : Int :=
  let t := mkRat (ratFloor (ratMul (ratMul (mkRat 2 1) a) (mkRat (piFix p) 1))) (2 ^ p)
  ratFloor (ratMul (mkRat (2 ^ p) 1) (cosPoly (ratMul t t) (p / 4 + 6) 0))

/-- An enclosure: the real number lies at most `rad` away from `mid`. -/
structure Ball where
  mid : Rat
  rad : Rat
deriving DecidableEq, Repr

/-- The enclosure of `a + b`. -/
def ballAdd (a b : Ball) : Ball := ⟨ratAdd a.mid b.mid, ratAdd a.rad b.rad⟩

/-- The enclosure of `a * b`. -/
def ballMul (a b : Ball) : Ball :=
  ⟨ratMul a.mid b.mid,
    ratAdd (ratMul a.rad b.rad) (ratAdd (ratMul (ratAbs a.mid) b.rad) (ratMul (ratAbs b.mid) a.rad))⟩

/-- The enclosure of `c * cos (2π a)` at precision `p`. -/
def ballTerm (p : Nat) (a c : Rat) : Ball :=
  let b := (turnFold a).1
  let d := ratMul c (turnFold a).2
  if b = 0 then ⟨d, 0⟩
  else ⟨ratMul d (mkRat (cosFix p b) (2 ^ p)), ratMul (ratAbs d) (mkRat 4 (2 ^ p))⟩

/-- The enclosure of a sum at precision `p`. -/
def trigBall (p : Nat) (x : TrigSum) : Ball :=
  x.foldr (fun t b => ballAdd (ballTerm p t.1 t.2) b) ⟨0, 0⟩

/-- The sign an enclosure shows, where it shows one. -/
def ballSign (b : Ball) : Option Ordering :=
  if ratLt b.rad b.mid then some .gt
  else if ratLt b.mid (ratNeg b.rad) then some .lt
  else none

/-! ## Exact sign -/

/-- A common denominator of the angles. -/
def trigTurnDen (x : TrigSum) : Nat := x.foldr (fun t n => Nat.lcm t.1.den n) 1

/-- A common denominator of the coefficients. -/
def trigCoefDen (x : TrigSum) : Nat := x.foldr (fun t n => Nat.lcm t.2.den n) 1

/-- A natural number not below `∑ |c|`. -/
def trigWeight (x : TrigSum) : Nat := x.foldr (fun t n => t.2.num.natAbs + n) 0

/-- A precision at which a sum other than 0 shows its sign: with `D` the common denominator of the coefficients, `N` that
of the angles and `W` at least the sum of the coefficients' sizes, `2 D x` is an algebraic integer of the field of `N`-th
roots of unity whose conjugates are at most `2 D W` in size, so that `x` is 0 or `|x| ≥ 1 / (2 D (2 D W)^N)`. -/
def trigBits (x : TrigSum) : Nat :=
  let d := 2 * trigCoefDen x
  let w := trigWeight x
  (d.log2 + 1) + trigTurnDen x * ((d * w).log2 + 1) + ((8 * w).log2 + 1)

/-- The order of a sum against 0, exactly. -/
def trigSign (x : TrigSum) : Ordering := (ballSign (trigBall (trigBits x) x)).getD .eq

/-- The order of two sums, exactly. -/
def trigCompare (x y : TrigSum) : Ordering := trigSign (trigAdd x (trigScale (mkRat (-1) 1) y))

end Sys2Proof.Machine
end

