-- ==== Sys2Proof/Machine/Real.lean ====
section
/-! DEFINITION. The operations of the number system of rule R4 on `Quantity`: exact `+`, `*`, `/`, `sin`, `cos`, `sqrt`, exact
comparison, and the floor of rule R6. -/

namespace Sys2Proof

open Machine

/-- The number 0. -/
def Quantity.zero : Quantity := .alg []

/-- A rational number. -/
def Quantity.ofRat (q : Rat) : Quantity := if q = 0 then Quantity.zero else .alg [(0, q)]

/-- A natural number, such as a sample index or a window index. -/
def Quantity.ofNat (n : Nat) : Quantity := Quantity.ofRat (mkRat n 1)

/-- The number 1. -/
def Quantity.one : Quantity := Quantity.ofNat 1

/-- `2π q`. -/
def Quantity.ofTurns (q : Rat) : Quantity := if q = 0 then Quantity.zero else .turns q

/-- `PI`, the circle constant (rule R5): half a turn. -/
def Quantity.pi : Quantity := Quantity.ofTurns (mkRat 1 2)

/-- The rational number a `Quantity` in normal form is, where it is one. -/
def Quantity.rat? : Quantity → Option Rat
  | .alg [] => some 0
  | .alg [(a, c)] => if a = 0 then some c else none
  | _ => none

/-- `a + b` (rule R4). -/
def Quantity.add (a b : Quantity) : Quantity :=
  if a = Quantity.zero then b else if b = Quantity.zero then a else
  match a, b with
  | .alg x, .alg y => .alg (trigAdd x y)
  | .turns p, .turns q => Quantity.ofTurns (ratAdd p q)
  | _, _ => .sum a b

/-- `a * b` (rule R4).  A product of two longer sums is left written out: only the squares of the correlation magnitude
(rule R74) are such products, and their order is mostly settled without multiplying out. -/
def Quantity.mul (a b : Quantity) : Quantity :=
  if a = Quantity.zero ∨ b = Quantity.zero then Quantity.zero
  else if a = Quantity.one then b else if b = Quantity.one then a else
  match a, b with
  | .alg x, .alg y => if x.length ≤ 1 ∨ y.length ≤ 1 then .alg (trigMul x y) else .prod a b
  | .alg x, .turns q => (match Quantity.rat? (.alg x) with | some r => Quantity.ofTurns (ratMul r q) | none => .prod a b)
  | .turns q, .alg y => (match Quantity.rat? (.alg y) with | some r => Quantity.ofTurns (ratMul q r) | none => .prod a b)
  | _, _ => .prod a b

/-- `a / b` (rule R4). -/
def Quantity.div (a b : Quantity) : Quantity :=
  if a = Quantity.zero then Quantity.zero else
  match Quantity.rat? b with
  | none => .quot a b
  | some q =>
    if q = 0 then .quot a b else
    match a with
    | .alg x => .alg (trigScale (ratDiv (mkRat 1 1) q) x)
    | .turns p => Quantity.ofTurns (ratDiv p q)
    | _ => .quot a b

/-- `x^2`, which is `x * x` (rule R5). -/
def Quantity.sq (a : Quantity) : Quantity := Quantity.mul a a

/-- `sin(a)`, `a` in radians (rule R5). -/
def Quantity.sin (a : Quantity) : Quantity :=
  if a = Quantity.zero then Quantity.zero else
  match a with
  | .turns q => .alg (sinTurn q)
  | _ => .sinOf a

/-- `cos(a)`, `a` in radians (rule R5). -/
def Quantity.cos (a : Quantity) : Quantity :=
  if a = Quantity.zero then Quantity.one else
  match a with
  | .turns q => .alg (cosTurn q)
  | _ => .cosOf a

/-- `sqrt(a)`, the non-negative square root (rule R5); the block applies it to sums of two squares only. -/
def Quantity.sqrt (a : Quantity) : Quantity := .sqrtOf a

/-! ## Enclosures -/

/-- `-1`, 0 or 1, by the sign of an integer. -/
def signDigit (d : Int) : Int := if d < 0 then -1 else if 0 < d then 1 else 0

/-- The first `p` binary digits of `Quantity.given n`, times `2^p`. -/
def givenFix (n : Nat) : Nat → Int
  | 0 => Config.givenInt n
  | p + 1 => 2 * givenFix n p + signDigit (Config.givenDigit n p)

/-- The enclosure of `2π q`. -/
def ballTurns (p : Nat) (q : Rat) : Ball :=
  ⟨ratMul (ratMul (mkRat 2 1) q) (mkRat (piFix p) (2 ^ p)), ratMul (ratAbs q) (mkRat 9 (4 * 2 ^ p))⟩

/-- The enclosure of `a / b`, where that of `b` is clear of 0. -/
def ballQuot (a b : Ball) : Option Ball :=
  if ratLt b.rad (ratAbs b.mid) then
    some ⟨ratDiv a.mid b.mid,
      ratDiv (ratAdd (ratMul a.rad (ratAbs b.mid)) (ratMul (ratAbs a.mid) b.rad))
        (ratMul (ratAbs b.mid) (ratSub (ratAbs b.mid) b.rad))⟩
  else none

/-- The greatest integer whose square is not above `4^p * x`, for `x` not negative. -/
def sqrtFix (p : Nat) (x : Rat) : Nat := Nat.sqrt (ratFloor (ratMul x (mkRat (4 ^ p) 1))).toNat

/-- The enclosure of the square root. -/
def ballSqrt (p : Nat) (a : Ball) : Ball :=
  ⟨mkRat (sqrtFix p a.mid) (2 ^ p), mkRat ((sqrtFix p a.rad + 2 : Nat)) (2 ^ p)⟩

/-- The enclosure of the cosine, or of the sine, of an angle in radians: the midpoint is turned into a part of the circle. -/
def ballCircle (p : Nat) (turn : Rat → TrigSum) (a : Ball) : Option Ball :=
  if 0 < piFix p then
    let b := trigBall p (turn (ratMul a.mid (mkRat (2 ^ p) (2 * (piFix p).toNat))))
    some ⟨b.mid, ratAdd b.rad (ratAdd a.rad (ratMul (ratAbs a.mid) (mkRat 9 (8 * (piFix p).toNat))))⟩
  else none

/-- The enclosure of a number at precision `p`, where it has one at this precision. -/
def Quantity.ball (p : Nat) : Quantity → Option Ball
  | .alg x => some (trigBall p x)
  | .turns q => some (ballTurns p q)
  | .given n => some ⟨mkRat (givenFix n p) (2 ^ p), mkRat 1 (2 ^ p)⟩
  | .sum a b => (match Quantity.ball p a, Quantity.ball p b with | some m, some n => some (ballAdd m n) | _, _ => none)
  | .prod a b => (match Quantity.ball p a, Quantity.ball p b with | some m, some n => some (ballMul m n) | _, _ => none)
  | .quot a b => (match Quantity.ball p a, Quantity.ball p b with | some m, some n => ballQuot m n | _, _ => none)
  | .sinOf a => (match Quantity.ball p a with | some m => ballCircle p sinTurn m | none => none)
  | .cosOf a => (match Quantity.ball p a with | some m => ballCircle p cosTurn m | none => none)
  | .sqrtOf a => (match Quantity.ball p a with | some m => some (ballSqrt p m) | none => none)

/-! ## Comparison -/

/-- The normal form of a number built from normal forms by `+` and `*`, multiplied out. -/
def Quantity.trig? : Quantity → Option TrigSum
  | .alg x => some x
  | .sum a b => (match Quantity.trig? a, Quantity.trig? b with | some x, some y => some (trigAdd x y) | _, _ => none)
  | .prod a b => (match Quantity.trig? a, Quantity.trig? b with | some x, some y => some (trigMul x y) | _, _ => none)
  | _ => none

/-- The order of two numbers, by enclosures of the given precision where these are apart. -/
def Quantity.compareBall (p : Nat) (a b : Quantity) : Option Ordering :=
  match Quantity.ball p a, Quantity.ball p b with
  | some m, some n =>
    if ratLt (ratAdd m.mid m.rad) (ratSub n.mid n.rad) then some .lt
    else if ratLt (ratAdd n.mid n.rad) (ratSub m.mid m.rad) then some .gt
    else none
  | _, _ => none

/-- The order of two numbers, at the first precision from `p` on at which their enclosures are apart.  Two numbers that are
equal are never apart: there the search has no result. -/
def Quantity.compareSearch (a b : Quantity) (p : Nat) : Option Ordering :=
  match Quantity.compareBall p a b with
  | some o => some o
  | none => Quantity.compareSearch a b (p + 40)
partial_fixpoint

/-- The order of two numbers (rule R4: exact comparison), other than two square roots.  The first attempts are those that
can always be computed; the last one is by definition exact too, and is reached only with numbers that have no normal
form. -/
def Quantity.compareCore (a b : Quantity) : Ordering :=
  if a = b then .eq else
  match Quantity.rat? a, Quantity.rat? b with
  | some p, some q => ratCompare p q
  | _, _ =>
    match Quantity.compareBall 40 a b with
    | some o => o
    | none =>
      match Quantity.trig? a, Quantity.trig? b with
      | some x, some y => trigCompare x y
      | _, _ => (Quantity.compareSearch a b 80).getD .eq

/-- The order of two numbers (rule R4: exact comparison).  Two square roots compare as the numbers under the roots do:
the root is strictly increasing (rule R77). -/
def Quantity.compare (a b : Quantity) : Ordering :=
  match a, b with
  | .sqrtOf x, .sqrtOf y => Quantity.compareCore x y
  | _, _ => Quantity.compareCore a b

/-- `a < b` (rule R4). -/
def Quantity.lt (a b : Quantity) : Bool := Quantity.compare a b == .lt

/-- `a > b` (rule R4). -/
def Quantity.gt (a b : Quantity) : Bool := Quantity.compare a b == .gt

/-- `a = b` (rule R4: an exact comparison, with no tolerance). -/
def Quantity.eq (a b : Quantity) : Bool := Quantity.compare a b == .eq

/-- `a <= 0` (rule R58). -/
def Quantity.nonPos (a : Quantity) : Bool := !Quantity.gt a Quantity.zero

/-- The floor of a number, at the first precision from `p` on at which both ends of its enclosure have it.  A number that is
an integer may have none. -/
def Quantity.floorSearch (a : Quantity) (p : Nat) : Option Nat :=
  match Quantity.ball p a with
  | some m =>
    if ratFloor (ratSub m.mid m.rad) = ratFloor (ratAdd m.mid m.rad) then some (ratFloor m.mid).toNat
    else Quantity.floorSearch a (p + 40)
  | none => Quantity.floorSearch a (p + 40)
partial_fixpoint

/-- The integer next to a number, at the first precision from `p` on at which its enclosure is narrow enough. -/
def Quantity.nearestSearch (a : Quantity) (p : Nat) : Option Nat :=
  match Quantity.ball p a with
  | some m =>
    if ratLt m.rad (mkRat 1 2) then some (ratFloor (ratAdd m.mid (mkRat 1 2))).toNat
    else Quantity.nearestSearch a (p + 40)
  | none => Quantity.nearestSearch a (p + 40)
partial_fixpoint

/-- `floor(a / b)` (rule R6), for a quotient that is not negative.  Where the two are not both rational, the floor is found
by enclosures; where those find none, the quotient is an integer, and it is the one next to it. -/
def Quantity.floorDiv (a b : Quantity) : Nat :=
  match Quantity.rat? a, Quantity.rat? b with
  | some p, some q => (ratFloor (ratDiv p q)).toNat
  | _, _ =>
    match Quantity.floorSearch (.quot a b) 40 with
    | some n => n
    | none => (Quantity.nearestSearch (.quot a b) 40).getD 0

end Sys2Proof
end

