-- ==== Sys2Proof/Machine/State.lean ====
section
/-! DEFINITION. The state of the block (10_state.md), the reasons a step can stop, and the state after reset. -/

namespace Sys2Proof.Machine

/-- The state bit of a unit: 0 `IDLE`, 1 `ACTIVE` (rules R14, R15). -/
inductive UnitState where
  | idle
  | active
deriving DecidableEq, Repr

/-- The mode bit `TX.MODE`: 0 `FSK`, 1 `CPFSK` (rule R14). -/
inductive Mode where
  | fsk
  | cpfsk
deriving DecidableEq, Repr

/-- The response of a command (rule R101).  Codes 6 and 7 are never produced (93_implementation_defined.md U15). -/
inductive Response where
  | ok
  | configFreq
  | configTiming
  | configRange
  | sequenceError
  | illegalCommand
deriving DecidableEq, Repr

/-- The TX unit's registers (rule R14). -/
structure TxUnit where
  /-- `TX.ST`. -/
  st : UnitState
  /-- `TX.MODE`. -/
  mode : Mode
  /-- `TX.F0`, hertz. -/
  f0 : Quantity
  /-- `TX.F1`, hertz. -/
  f1 : Quantity
  /-- `TX.FS`, hertz. -/
  fs : Quantity
  /-- `TX.BR`, hertz. -/
  br : Quantity
  /-- `TX.SPS`, without an upper bound (rule R7). -/
  sps : Nat
  /-- `TX.TSYM`, seconds. -/
  tsym : Quantity
  /-- `TX.N`, the global index of the next sample. -/
  n : Nat
  /-- `TX.PHI`, the phase accumulator, radians. -/
  phi : Quantity
  /-- A START has written the registers above since reset (rule R23).  The model's own field: only a host read uses it. -/
  written : Bool
deriving DecidableEq, Repr

/-- The RX unit's registers (rule R15). -/
structure RxUnit where
  /-- `RX.ST`. -/
  st : UnitState
  /-- `RX.F0`, hertz. -/
  f0 : Quantity
  /-- `RX.F1`, hertz. -/
  f1 : Quantity
  /-- `RX.FS`, hertz. -/
  fs : Quantity
  /-- `RX.BR`, hertz. -/
  br : Quantity
  /-- `RX.SPS`, without an upper bound (rule R7). -/
  sps : Nat
  /-- `RX.TSYM`, seconds. -/
  tsym : Quantity
  /-- `RX.K`, the local index of the next sample in the window. -/
  k : Nat
  /-- `RX.I0`, the in-phase sum at `freq0`. -/
  i0 : Quantity
  /-- `RX.Q0`, the quadrature sum at `freq0`. -/
  q0 : Quantity
  /-- `RX.I1`, the in-phase sum at `freq1`. -/
  i1 : Quantity
  /-- `RX.Q1`, the quadrature sum at `freq1`. -/
  q1 : Quantity
  /-- A START has written the registers above since reset (rule R23).  The model's own field: only a host read uses it. -/
  written : Bool
deriving DecidableEq, Repr

/-- One thing the host does to the block (rule R130). -/
inductive HostEvent where
  /-- A command word with its payload, one indivisible delivery (rule R30). -/
  | command (w : CmdWord) (p : Payload)
  /-- The reset event, which stands between commands (rules R118, R120). -/
  | reset
deriving DecidableEq, Repr

/-- The state of the block, and what the host will deliver to it. -/
structure State where
  /-- The TX unit. -/
  tx : TxUnit
  /-- The RX unit. -/
  rx : RxUnit
  /-- The fault record `ERR`, shared and sticky (rule R16). -/
  err : ErrBits
  /-- The log `TXOUT`: samples paired with their times (rule R21). -/
  txout : List (Quantity × Quantity)
  /-- The log `RXOUT`: decided bits (rule R21). -/
  rxout : List Bit
  /-- The log `RSP`: one response per command (rule R21). -/
  rsp : List Response
  /-- The payload delivered with the command that is being executed (rule R30).  The model's own field. -/
  port : Payload
  /-- What the host will do, in order (rule R29).  The model's own field. -/
  input : List HostEvent
deriving DecidableEq, Repr

/-- A fatal fault.  It has no constructor: every fault of the spec is reported by a response and the block goes on (rules
R101, R111), so a fault is a next state here and nothing raises this. -/
inductive Fault where
deriving DecidableEq, Repr

/-- Why the model gives a step no meaning. -/
inductive Refusal where
  /-- Raised by an arm of `exec` that has no meaning yet; safe, the model says nothing of the instruction. -/
  | notModelled (mnemonic : String)
  /-- Raised by a START without its four values and by `RXSAMP` without its sample, in a unit state that admits the
  command: a delivery outside the spec (rule R130; 93_implementation_defined.md U7).  Safe, the model says nothing of it. -/
  | payloadShape
deriving DecidableEq, Repr

/-- The TX unit right after reset: `TX.ST` as rule R26 says.  The other registers hold no value there; the ones named
here are a DESIGN CHOICE, unsafe (notes/assumptions/1.md), and no command reads one. -/
def TxUnit.reset : TxUnit :=
  { st := .idle, mode := .fsk, f0 := Quantity.zero, f1 := Quantity.zero, fs := Quantity.zero, br := Quantity.zero, sps := 0,
    tsym := Quantity.zero, n := 0, phi := Quantity.zero, written := false }

/-- The RX unit right after reset: `RX.ST` as rule R26 says, the rest as for `TxUnit.reset`. -/
def RxUnit.reset : RxUnit :=
  { st := .idle, f0 := Quantity.zero, f1 := Quantity.zero, fs := Quantity.zero, br := Quantity.zero, sps := 0,
    tsym := Quantity.zero, k := 0, i0 := Quantity.zero, q0 := Quantity.zero, i1 := Quantity.zero, q1 := Quantity.zero,
    written := false }

/-- The block right after reset (rules R26, R118), with nothing on its way from the host. -/
def State.reset : State :=
  { tx := TxUnit.reset, rx := RxUnit.reset, err := 0, txout := [], rxout := [], rsp := [], port := .none, input := [] }

end Sys2Proof.Machine
end

