-- ==== Sys2Proof/Machine/Flags.lean ====
section
/-! DEFINITION. The flags: the bits of `ERR`, the response codes, and the one-bit values of the unit state and mode (rules
R16, R17, R101).  The block has no condition codes. -/

namespace Sys2Proof.Machine

/-- The 3-bit code of a response (rule R101). -/
def responseCode : Response → RspCode
  | .ok => 0
  | .configFreq => 1
  | .configTiming => 2
  | .configRange => 3
  | .sequenceError => 4
  | .illegalCommand => 5

/-- The `ERR` bit of a fault (rules R16, R101); `OK` has none. -/
def errBit : Response → ErrBits
  | .ok => 0b00000
  | .configFreq => 0b00001
  | .configTiming => 0b00010
  | .configRange => 0b00100
  | .sequenceError => 0b01000
  | .illegalCommand => 0b10000

/-- The OR of the bits of several causes (rule R109). -/
def errBits (cs : List Response) : ErrBits := cs.foldr (fun c e => errBit c ||| e) 0

/-- The bit of a unit state (rules R14, R15). -/
def unitStateBit : UnitState → Bit
  | .idle => 0
  | .active => 1

/-- The bit of `TX.MODE` (rule R14). -/
def modeBit : Mode → Bit
  | .fsk => 0
  | .cpfsk => 1

end Sys2Proof.Machine
end

