-- ==== Sys2Proof/Machine/Ops.lean ====
section
/-! DEFINITION. The operations on the state that the commands share: the stream primitives of 00_scope.md section 6, the
delivery of a command, the fault entry and reset.

There is no return from a fault beside its entry: no handler runs, and the next command executes normally (rule R111). -/

namespace Sys2Proof.Machine

/-- What a command comes to. -/
abbrev Result := Host.Outcome State Fault Refusal

/-- Write the TX unit's registers. -/
def setTx (u : TxUnit) (s : State) : State := { s with tx := u }

/-- Write the RX unit's registers. -/
def setRx (u : RxUnit) (s : State) : State := { s with rx := u }

/-- `ERR <- ERR | e` (rule R109). -/
def orErr (e : ErrBits) (s : State) : State := { s with err := s.err ||| e }

/-- `Emit(TXOUT, v)` (rule R21). -/
def emitTx (v : Quantity × Quantity) (s : State) : State := { s with txout := s.txout ++ [v] }

/-- `Emit(RXOUT, b)` (rule R21). -/
def emitRx (b : Bit) (s : State) : State := { s with rxout := s.rxout ++ [b] }

/-- `Respond(c)`: the response goes out and the command is over; the payload that came with it is gone (rules R21, R30,
R38). -/
def respond (c : Response) (s : State) : State := { s with rsp := s.rsp ++ [c], port := .none }

/-- `raise` (rule R109): `ERR` takes the bits of `first` and of `others`, the response is the code of `first`, and nothing
else changes.  For a single fault `others` is empty; for `Config(S)` the causes stand in the order of rule R110.  There is
nothing to undo: every meaning raises before its first write. -/
def raise (first : Response) (others : List Response) (s : State) : State :=
  respond first (orErr (errBits (first :: others)) s)

/-- The next delivery of the host is taken: its payload stands on the port, and the rest is still to come (rules R29,
R30). -/
def deliver (p : Payload) (rest : List HostEvent) (s : State) : State := { s with port := p, input := rest }

/-- The reset event: the state of rule R26, whatever the block was doing (rules R118, R119).  What the host will do
afterwards is not the block's state and stays. -/
def takeReset (rest : List HostEvent) : State := { State.reset with input := rest }

/-- A reserved command word (rules R51, R106). -/
def illegalCommand (s : State) : Result := .next (raise .illegalCommand [] s)

end Sys2Proof.Machine
end

