-- ==== Sys2Proof/Machine/Operands.lean ====
section
/-! DEFINITION. The operand forms: the payload of a START, the payload of `RXSAMP`, and the symbol value of `TXSYM`. -/

namespace Sys2Proof.Machine

/-- The meaning of a command that reads the four values of a START (rules R30, R49).  A delivery of another shape is
outside the spec (rule R130; 93_implementation_defined.md U7). -/
def withParams (s : State) (f : Params → Result) : Result :=
  match s.port with
  | .params P => f P
  | .sample _ => .refused .payloadShape
  | .none => .refused .payloadShape

/-- The meaning of a command that reads one sample (rules R30, R49). -/
def withSample (s : State) (f : Quantity → Result) : Result :=
  match s.port with
  | .sample x => f x
  | .params _ => .refused .payloadShape
  | .none => .refused .payloadShape

/-- `MapFreq(v, f0, f1)` (rule R61): the tone of a symbol value. -/
def mapFreq (v : Nat) (f0 f1 : Quantity) : Quantity := if v = 0 then f0 else f1

end Sys2Proof.Machine
end

