-- ==== Sys2Proof/Machine/CallControl.lean ====
section
/-! DEFINITION. Call control (40_call_control.md): the parameter check, the symbol timing, and `NOP`. -/

namespace Sys2Proof.Machine

/-- A parameter is not greater than 0 (rule R58, first test). -/
def outOfRange (P : Params) : Bool :=
  Quantity.nonPos P.freq0 || Quantity.nonPos P.freq1 || Quantity.nonPos P.samplingRate || Quantity.nonPos P.baudRate

/-- `f0 = f1` (rule R58, second test). -/
def equalTones (P : Params) : Bool := Quantity.eq P.freq0 P.freq1

/-- `fs < br` (rule R58, third test). -/
def undersampled (P : Params) : Bool := Quantity.lt P.samplingRate P.baudRate

/-- `Validate(P)` (rule R58): the configuration causes that hold, in the order of rule R110.  The payload is valid when
there is none. -/
def validate (P : Params) : List Response :=
  (if outOfRange P then [Response.configRange] else []) ++
  ((if equalTones P then [Response.configFreq] else []) ++
   (if undersampled P then [Response.configTiming] else []))

/-- `samplesPerSymbol = floor(fs / br)` (rule R59). -/
def samplesPerSymbol (P : Params) : Nat := Quantity.floorDiv P.samplingRate P.baudRate

/-- `symbolDuration = samplesPerSymbol / fs`, seconds (rule R59). -/
def symbolDuration (P : Params) : Quantity := Quantity.div (Quantity.ofNat (samplesPerSymbol P)) P.samplingRate

/-- `Latch(TX, P)` (rule R59). -/
def latchTx (P : Params) (u : TxUnit) : TxUnit :=
  { u with f0 := P.freq0, f1 := P.freq1, fs := P.samplingRate, br := P.baudRate, sps := samplesPerSymbol P,
           tsym := symbolDuration P, written := true }

/-- `Latch(RX, P)` (rule R59). -/
def latchRx (P : Params) (u : RxUnit) : RxUnit :=
  { u with f0 := P.freq0, f1 := P.freq1, fs := P.samplingRate, br := P.baudRate, sps := samplesPerSymbol P,
           tsym := symbolDuration P, written := true }

/-- A START whose unit is `IDLE`: the configuration fault `Validate` finds, or the call opens (rules R58, R109, R110). -/
def openCall (P : Params) (s : State) (opened : State) : Result :=
  match validate P with
  | [] => .next (respond .ok opened)
  | c :: cs => .next (raise c cs s)

/-- `NOP` (rule R60). -/
def execNop (s : State) : Result := .next (respond .ok s)

end Sys2Proof.Machine
end

