-- ==== Sys2Proof/Machine/CpfskModulator.lean ====
section
/-! DEFINITION. The continuous-phase synthesizer (42_cpfsk_modulator.md), and the opening of a modulation call that both
strategies share. -/

namespace Sys2Proof.Machine

/-- `2 * PI`. -/
def twoPi : Quantity := Quantity.mul (Quantity.ofNat 2) Quantity.pi

/-- `DeltaPhi(f, fs) = 2 * PI * f / fs`, radians per sample (rule R67). -/
def deltaPhi (f fs : Quantity) : Quantity := Quantity.div (Quantity.mul twoPi f) fs

/-- `StepCPFSK(f)` (rule R68): the accumulator takes the increment first, then the sample is its sine.  The accumulator is
never reduced (rule R71). -/
def stepCpfsk (f : Quantity) (u : TxUnit) : TxUnit × (Quantity × Quantity) :=
  let phi := Quantity.add u.phi (deltaPhi f u.fs)
  ({ u with phi := phi }, (Quantity.sin phi, Quantity.div (Quantity.ofNat u.n) u.fs))

/-- The TX unit when a modulation call opens in the given mode (rules R63, R69). -/
def openTx (m : Mode) (P : Params) (u : TxUnit) : TxUnit :=
  { latchTx P u with mode := m, n := 0, phi := Quantity.zero, st := .active }

/-- The two modulation STARTs (rules R63, R69): the state test comes before the payload test (rule R110). -/
def startTx (m : Mode) (s : State) : Result :=
  match s.tx.st with
  | .active => .next (raise .sequenceError [] s)
  | .idle => withParams s fun P => openCall P s (setTx (openTx m P s.tx) s)

/-- `TXSTART.C P` (rule R69). -/
def execTxstartC (s : State) : Result := startTx .cpfsk s

end Sys2Proof.Machine
end

