-- ==== Sys2Proof/Machine/Slicer.lean ====
section
/-! DEFINITION. The slicer and the hard-decision threshold detector (44_slicer.md), and the magnitude it decides on. -/

namespace Sys2Proof.Machine

/-- `Mag(I, Q) = sqrt(I^2 + Q^2)` (rule R74). -/
def mag (i q : Quantity) : Quantity := Quantity.sqrt (Quantity.add (Quantity.sq i) (Quantity.sq q))

/-- `Decide(mag0, mag1)` (rule R79): 0 when the first is strictly greater, else 1, the tie included. -/
def decideBit (mag0 mag1 : Quantity) : Bit := if Quantity.gt mag0 mag1 then 0 else 1

/-- The dump: the four accumulators and `RX.K` return to 0 (rules R80, R81). -/
def dump (u : RxUnit) : RxUnit :=
  { u with i0 := Quantity.zero, q0 := Quantity.zero, i1 := Quantity.zero, q1 := Quantity.zero, k := 0 }

/-- The bit of a complete window (rule R80).  The magnitudes are not kept. -/
def windowBit (u : RxUnit) : Bit := decideBit (mag u.i0 u.q0) (mag u.i1 u.q1)

/-- `DetectAndDump()` (rule R80). -/
def detectAndDump (s : State) : State := setRx (dump s.rx) (emitRx (windowBit s.rx) s)

/-- `RXEND` (rule R81): the partial window is dropped without a fault. -/
def execRxend (s : State) : Result :=
  match s.rx.st with
  | .idle => .next (raise .sequenceError [] s)
  | .active => .next (respond .ok (setRx { dump s.rx with st := .idle } s))

end Sys2Proof.Machine
end

