-- ==== Sys2Proof/Machine/Correlator.lean ====
section
/-! DEFINITION. The quadrature correlator (43_correlator.md): references, integration, `RXSTART` and `RXSAMP`. -/

namespace Sys2Proof.Machine

/-- The angle of the reference tones at local index `k`: `2 * PI * f * (k / fs)` (rule R72). -/
def refAngle (f : Quantity) (k : Nat) (fs : Quantity) : Quantity :=
  Quantity.mul (Quantity.mul twoPi f) (Quantity.div (Quantity.ofNat k) fs)

/-- `RefCos(f, k, fs)` (rule R72). -/
def refCos (f : Quantity) (k : Nat) (fs : Quantity) : Quantity := Quantity.cos (refAngle f k fs)

/-- `RefSin(f, k, fs)` (rule R72). -/
def refSin (f : Quantity) (k : Nat) (fs : Quantity) : Quantity := Quantity.sin (refAngle f k fs)

/-- The integration of one sample: four products added to the four sums, and `RX.K` advanced (rules R73, R76). -/
def integrate (x : Quantity) (u : RxUnit) : RxUnit :=
  { u with i0 := Quantity.add u.i0 (Quantity.mul x (refCos u.f0 u.k u.fs)),
           q0 := Quantity.add u.q0 (Quantity.mul x (refSin u.f0 u.k u.fs)),
           i1 := Quantity.add u.i1 (Quantity.mul x (refCos u.f1 u.k u.fs)),
           q1 := Quantity.add u.q1 (Quantity.mul x (refSin u.f1 u.k u.fs)),
           k := u.k + 1 }

/-- The RX unit when a demodulation call opens (rule R75). -/
def openRx (P : Params) (u : RxUnit) : RxUnit := { dump (latchRx P u) with st := .active }

/-- `RXSTART P` (rule R75): the state test comes before the payload test (rule R110). -/
def execRxstart (s : State) : Result :=
  match s.rx.st with
  | .active => .next (raise .sequenceError [] s)
  | .idle => withParams s fun P => openCall P s (setRx (openRx P s.rx) s)

/-- One sample taken into the open window, and the window decided when it is complete (rule R76). -/
def takeSample (x : Quantity) (s : State) : State :=
  let t := setRx (integrate x s.rx) s
  if t.rx.k = t.rx.sps then detectAndDump t else t

/-- `RXSAMP x` (rule R76); no value of `x` faults. -/
def execRxsamp (s : State) : Result :=
  match s.rx.st with
  | .idle => .next (raise .sequenceError [] s)
  | .active => withSample s fun x => .next (respond .ok (takeSample x s))

end Sys2Proof.Machine
end

