-- ==== Sys2Proof/Machine/FskModulator.lean ====
section
/-! DEFINITION. The FSK modulator (41_fsk_modulator.md): the discontinuous-phase synthesizer, and `TXSYM` and `TXEND`,
which serve both strategies. -/

namespace Sys2Proof.Machine

/-- `SampleFSK(f, i, fs)` (rule R62): the sample of tone `f` at global index `i`, and its time. -/
def sampleFsk (f : Quantity) (i : Nat) (fs : Quantity) : Quantity × Quantity :=
  let t := Quantity.div (Quantity.ofNat i) fs
  (Quantity.sin (Quantity.mul (Quantity.mul twoPi f) t), t)

/-- One sample of the open call by the strategy of `TX.MODE`: the registers it writes, and the pair (rule R64). -/
def synthesize (f : Quantity) (u : TxUnit) : TxUnit × (Quantity × Quantity) :=
  match u.mode with
  | .fsk => (u, sampleFsk f u.n u.fs)
  | .cpfsk => stepCpfsk f u

/-- The body of the loop of `TXSYM` (rule R64): synthesize, emit, `TX.N <- TX.N + 1`. -/
def txStep (f : Quantity) (s : State) : State :=
  let r := synthesize f s.tx
  emitTx r.2 (setTx { r.1 with n := r.1.n + 1 } s)

/-- The loop of `TXSYM`, strictly in rising order (rules R64, R40). -/
def txSteps (f : Quantity) : Nat → State → State
  | 0, s => s
  | k + 1, s => txSteps f k (txStep f s)

/-- `TXSTART.F P` (rule R63). -/
def execTxstartF (s : State) : Result := startTx .fsk s

/-- `TXSYM v` (rule R64). -/
def execTxsym (v : Nat) (s : State) : Result :=
  match s.tx.st with
  | .idle => .next (raise .sequenceError [] s)
  | .active => .next (respond .ok (txSteps (mapFreq v s.tx.f0 s.tx.f1) s.tx.sps s))

/-- `TXEND` (rule R65): the other TX registers keep their values. -/
def execTxend (s : State) : Result :=
  match s.tx.st with
  | .idle => .next (raise .sequenceError [] s)
  | .active => .next (respond .ok (setTx { s.tx with st := .idle } s))

end Sys2Proof.Machine
end

