-- ==== Sys2Proof/Machine/Dispatch.lean ====
section
/-! DEFINITION. The one match from a command to its meaning. -/

namespace Sys2Proof.Machine

/-- The meaning of a command on a state whose port holds its payload. -/
def exec (i : Instr) (s : State) : Host.Outcome State Fault Refusal :=
  match i with
  | .nop => Sys2Proof.Machine.execNop s
  | .txstartF => Sys2Proof.Machine.execTxstartF s
  | .txstartC => Sys2Proof.Machine.execTxstartC s
  | .txsym v => Sys2Proof.Machine.execTxsym v s
  | .txend => Sys2Proof.Machine.execTxend s
  | .rxstart => Sys2Proof.Machine.execRxstart s
  | .rxsamp => Sys2Proof.Machine.execRxsamp s
  | .rxend => Sys2Proof.Machine.execRxend s

end Sys2Proof.Machine
end

