-- ==== Sys2Proof/Machine/Step.lean ====
section
/-! DEFINITION. One step of the block: the head of what the host does, executed (rules R29, R36). -/

namespace Sys2Proof.Machine

/-- A command word, decoded and executed; a reserved word raises `IllegalCommand` (rule R51). -/
def execWord (w : CmdWord) (s : State) : Host.Outcome State Fault Refusal :=
  match decode w with
  | .ok i => exec i s
  | .error _ => illegalCommand s

/-- One step: the host's next event is taken.  With none, the block is idle and holds its state (rule R117). -/
def step (s : State) : Host.Outcome State Fault Refusal :=
  match s.input with
  | [] => .next s
  | .reset :: rest => .next (takeReset rest)
  | .command w p :: rest => execWord w (deliver p rest s)

/-- The source's calibration parameters `(1200, 2200, 44100, 300)` (rule R91); no command uses them. -/
def calibration : Params :=
  { freq0 := Quantity.ofNat 1200, freq1 := Quantity.ofNat 2200, samplingRate := Quantity.ofNat 44100,
    baudRate := Quantity.ofNat 300 }

/-- A payload that fits a word: the calibration parameters for a START, the sample 1 for `RXSAMP`, nothing otherwise. -/
def sampleDelivery (nbits w : Nat) : Payload :=
  match decodeTableWord nbits w with
  | some .txstartF => .params calibration
  | some .txstartC => .params calibration
  | some .rxstart => .params calibration
  | some .rxsamp => .sample Quantity.one
  | _ => .none

/-- The state with the command word `w` as the host's next delivery, so that the next step executes it
(notes/assumptions/10.md). -/
def State.withFetchWord (s : State) (nbits w : Nat) : State :=
  { s with input := .command (BitVec.ofNat 8 w) (sampleDelivery nbits w) :: s.input }

end Sys2Proof.Machine
end

