-- ==== Sys2Proof/Machine/Calls.lean ====
section
/-! DEFINITION. The host's side of the command port (45_calls_and_properties.md): command sequences, the four
pseudo-instructions, and the bit order of bytes. -/

namespace Sys2Proof.Machine

/-- One command issued: a word with its payload (rule R30). -/
def issue (w : CmdWord) (p : Payload) (s : State) : Result := execWord w (deliver p s.input s)

/-- Commands issued one after another, each to completion (rule R36), up to the first the model gives no meaning. -/
def issueAll : List (CmdWord × Payload) → State → Result
  | [], s => .next s
  | c :: cs, s =>
    match issue c.1 c.2 s with
    | .next t => issueAll cs t
    | .fault r => .fault r
    | .refused r => .refused r

/-- The `TXSYM` commands of a symbol sequence (rule R84). -/
def symbolCommands (vs : List Nat) : List (CmdWord × Payload) := vs.map fun v => (encode (.txsym v), Payload.none)

/-- The `RXSAMP` commands of a waveform (rule R86). -/
def sampleCommands (xs : List Quantity) : List (CmdWord × Payload) := xs.map fun x => (encode .rxsamp, Payload.sample x)

/-- A call: the START, and the rest only if its response was `OK` (rules R84, R86). -/
def call (start : Instr) (P : Params) (rest : List (CmdWord × Payload)) (s : State) : Result :=
  match issue (encode start) (.params P) s with
  | .next t => if t.rsp.getLast? = some .ok then issueAll rest t else .next t
  | .fault r => .fault r
  | .refused r => .refused r

/-- `MODULATE.FSK` (rule R84). -/
def modulateFsk (P : Params) (vs : List Nat) (s : State) : Result :=
  call .txstartF P (symbolCommands vs ++ [(encode .txend, Payload.none)]) s

/-- `MODULATE.CPFSK` (rule R85). -/
def modulateCpfsk (P : Params) (vs : List Nat) (s : State) : Result :=
  call .txstartC P (symbolCommands vs ++ [(encode .txend, Payload.none)]) s

/-- `DEMODULATE` (rule R86). -/
def demodulate (P : Params) (xs : List Quantity) (s : State) : Result :=
  call .rxstart P (sampleCommands xs ++ [(encode .rxend, Payload.none)]) s

/-- The bits of a byte, most significant first (rules R33, R87). -/
def byteBits (b : Nat) : List Nat := [b / 128 % 2, b / 64 % 2, b / 32 % 2, b / 16 % 2, b / 8 % 2, b / 4 % 2, b / 2 % 2, b % 2]

/-- `TXBYTE B` (rule R87). -/
def txByte (b : Nat) : List (CmdWord × Payload) := symbolCommands (byteBits b)

/-- The number whose binary digits are the given bits, first one highest; on eight bits of `RXOUT`, the byte (rule R87). -/
def packBits (bs : List Nat) : Nat := bs.foldl (fun n b => 2 * n + b) 0

end Sys2Proof.Machine
end

