-- ==== Sys2Proof/Machine/Value.lean ====
section
/-! DEFINITION. The real number a `Quantity` stands for.  The machine never evaluates it; claims speak of it, since the
reference semantics of the spec is over the mathematical reals (rule R4). -/

namespace Sys2Proof

/-- The real number `∑ c * cos (2π a)`. -/
noncomputable def trigVal : TrigSum → ℝ
  | [] => 0
  | (a, c) :: x => (c : ℝ) * Real.cos (2 * Real.pi * (a : ℝ)) + trigVal x

/-- The real number with the given binary expansion. -/
noncomputable def givenVal (n : Nat) : ℝ :=
  (Config.givenInt n : ℝ) + ∑' k : ℕ, (signDigit (Config.givenDigit n k) : ℝ) / 2 ^ (k + 1)

/-- The real number a quantity stands for (rules R4, R5). -/
noncomputable def Quantity.val : Quantity → ℝ
  | .alg x => trigVal x
  | .turns q => 2 * Real.pi * (q : ℝ)
  | .given n => givenVal n
  | .sum a b => a.val + b.val
  | .prod a b => a.val * b.val
  | .quot a b => a.val / b.val
  | .sinOf a => Real.sin a.val
  | .cosOf a => Real.cos a.val
  | .sqrtOf a => Real.sqrt a.val

/-- The expression denotes a real number: no division by 0, and no square root of a negative number (rule R5).  Every number
the host may deliver is one (rule R4), and every number the block makes of such numbers with a sampling rate that is not 0
is one. -/
def Quantity.Defined : Quantity → Prop
  | .alg _ => True
  | .turns _ => True
  | .given _ => True
  | .sum a b => a.Defined ∧ b.Defined
  | .prod a b => a.Defined ∧ b.Defined
  | .quot a b => a.Defined ∧ b.Defined ∧ b.val ≠ 0
  | .sinOf a => a.Defined
  | .cosOf a => a.Defined
  | .sqrtOf a => a.Defined ∧ 0 ≤ a.val

end Sys2Proof
end

