-- ==== Sys2Proof/Machine/Codec.lean ====
section
/-! DEFINITION. The audio container codec at its boundary (rule R98): the two functions the host applies to a sample, a
waveform sent through them, and the source's chain from bits to bits over it (rules R93, R99).  All of it is on the host's
side; the core neither performs nor checks it. -/

namespace Sys2Proof.Machine

/-- The nearest integer; on an exact half either neighbour (93_implementation_defined.md U4). -/
noncomputable def roundNearest (x : ℝ) : ℤ :=
  if Int.fract x < 1 / 2 then ⌊x⌋
  else if 1 / 2 < Int.fract x then ⌊x⌋ + 1
  else if Config.roundHalfUp x then ⌊x⌋ + 1 else ⌊x⌋

/-- `Quantize(s) = round(s * 32767)` for `-1 ≤ s ≤ 1`, and no result outside (rule R98; 93_implementation_defined.md U5). -/
noncomputable def quantize (s : ℝ) : Option ℤ :=
  if -1 ≤ s ∧ s ≤ 1 then some (roundNearest (s * 32767)) else none

/-- `Dequantize(q) = q / 32767` (rule R98), a number the host can deliver to `RXSAMP`. -/
def dequantize (q : ℤ) : Quantity := Quantity.ofRat (mkRat q 32767)

/-- One sample encoded and decoded again (rule R98); no result outside `[-1, 1]`. -/
noncomputable def throughCodec (x : Quantity) : Option Quantity := (quantize x.val).map dequantize

/-- A waveform sent through the codec, sample by sample (rules R93, R98).  A waveform with a sample outside `[-1, 1]` has no
result. -/
noncomputable def waveformThroughCodec : List Quantity → Option (List Quantity)
  | [] => some []
  | x :: xs =>
    match throughCodec x, waveformThroughCodec xs with
    | some y, some ys => some (y :: ys)
    | _, _ => none

/-- `MODULATE.FSK` or `MODULATE.CPFSK` (rules R84, R85). -/
def modulate : Mode → Params → List Nat → State → Result
  | .fsk => modulateFsk
  | .cpfsk => modulateCpfsk

/-- The waveform of a call: the first components of the elements it appended to `TXOUT` (rule R84). -/
def callWaveform (s t : State) : List Quantity := (t.txout.drop s.txout.length).map Prod.fst

/-- The source's chain "bits → Modulator → waveform (+ time axis) → [external audio/transport encoding] → [external
decoding] → waveform → Demodulator → bits" (rules R93, R99), on one block, with the 16-bit codec as the external encoding.
If the modulation call faults there is no waveform to send and the chain ends there; there is no result where the codec has
none. -/
noncomputable def quantizedChain (m : Mode) (P : Params) (vs : List Nat) (s : State) : Option Result :=
  match modulate m P vs s with
  | .next t =>
    if t.rsp.getLast? = some .ok then
      match waveformThroughCodec (callWaveform s t) with
      | some ys => some (demodulate P ys t)
      | none => none
    else some (.next t)
  | .fault r => some (.fault r)
  | .refused r => some (.refused r)

end Sys2Proof.Machine
end

