-- ==== Sys2Proof/Machine/HostRead.lean ====
section
/-! DEFINITION. The host's register reads (rule R22): between commands, of any register, without a side effect.  A read is
no command and no step; it is a function of the state. -/

namespace Sys2Proof.Machine

/-- The registers of rules R14, R15 and R16, by name. -/
inductive RegName where
  | txSt | txMode | txF0 | txF1 | txFs | txBr | txSps | txTsym | txN | txPhi
  | rxSt | rxF0 | rxF1 | rxFs | rxBr | rxSps | rxTsym | rxK | rxI0 | rxQ0 | rxI1 | rxQ1
  | err
deriving DecidableEq, Repr

/-- A value read: registers are a bit, a natural number, a real number, or the fault record. -/
inductive RegValue where
  | bit (b : Bit)
  | nat (n : Nat)
  | real (x : Quantity)
  | errBits (e : ErrBits)
deriving DecidableEq, Repr

/-- A real register, or an unspecified value where nothing has written it since reset (rule R23). -/
def readReal (written : Bool) (name : String) (n : Nat) (x : Quantity) : RegValue :=
  .real (if written then x else Config.unwrittenReal name n)

/-- A counter, or an unspecified value where nothing has written it since reset (rule R23). -/
def readNat (written : Bool) (name : String) (n : Nat) (k : Nat) : RegValue :=
  .nat (if written then k else Config.unwrittenNat name n)

/-- What the host reads from a register; `n` numbers its reads, so that two reads of a register without a value need not
agree (rules R22, R23). -/
def State.hostRead (s : State) (n : Nat) : RegName → RegValue
  | .txSt => .bit (unitStateBit s.tx.st)
  | .txMode => .bit (if s.tx.written then modeBit s.tx.mode else Config.unwrittenMode n)
  | .txF0 => readReal s.tx.written "TX.F0" n s.tx.f0
  | .txF1 => readReal s.tx.written "TX.F1" n s.tx.f1
  | .txFs => readReal s.tx.written "TX.FS" n s.tx.fs
  | .txBr => readReal s.tx.written "TX.BR" n s.tx.br
  | .txSps => readNat s.tx.written "TX.SPS" n s.tx.sps
  | .txTsym => readReal s.tx.written "TX.TSYM" n s.tx.tsym
  | .txN => readNat s.tx.written "TX.N" n s.tx.n
  | .txPhi => readReal s.tx.written "TX.PHI" n s.tx.phi
  | .rxSt => .bit (unitStateBit s.rx.st)
  | .rxF0 => readReal s.rx.written "RX.F0" n s.rx.f0
  | .rxF1 => readReal s.rx.written "RX.F1" n s.rx.f1
  | .rxFs => readReal s.rx.written "RX.FS" n s.rx.fs
  | .rxBr => readReal s.rx.written "RX.BR" n s.rx.br
  | .rxSps => readNat s.rx.written "RX.SPS" n s.rx.sps
  | .rxTsym => readReal s.rx.written "RX.TSYM" n s.rx.tsym
  | .rxK => readNat s.rx.written "RX.K" n s.rx.k
  | .rxI0 => readReal s.rx.written "RX.I0" n s.rx.i0
  | .rxQ0 => readReal s.rx.written "RX.Q0" n s.rx.q0
  | .rxI1 => readReal s.rx.written "RX.I1" n s.rx.i1
  | .rxQ1 => readReal s.rx.written "RX.Q1" n s.rx.q1
  | .err => .errBits s.err

/-- The response log as the host sees it: 3-bit codes, one per command (rules R21, R101). -/
def State.rspCodes (s : State) : List RspCode := s.rsp.map responseCode

end Sys2Proof.Machine
end

