-- ==== Sys2Proof/Safety.lean ====
section
/-! DEFINITION. What counts as a sound state and a sound delivery, in the terms claims use (10_state.md rule R27). -/

namespace Sys2Proof.Machine

/-- The four parameters are defined real numbers. -/
def paramsDefined (P : Params) : Prop :=
  P.freq0.Defined ∧ P.freq1.Defined ∧ P.samplingRate.Defined ∧ P.baudRate.Defined

/-- The payload holds defined real numbers. -/
def payloadDefined : Payload → Prop
  | .none => True
  | .params P => paramsDefined P
  | .sample x => x.Defined

/-- The event delivers defined real numbers. -/
def eventDefined : HostEvent → Prop
  | .reset => True
  | .command _ p => payloadDefined p

/-- Rule R4: every number the host delivers, every register of an open call and every element of `TXOUT` is a real number,
and the sampling rates of the open calls are positive. -/
def AllDefined (s : State) : Prop :=
  (∀ e ∈ s.input, eventDefined e) ∧ payloadDefined s.port ∧
  (s.tx.st = .active →
    s.tx.f0.Defined ∧ s.tx.f1.Defined ∧ s.tx.fs.Defined ∧ s.tx.br.Defined ∧ s.tx.tsym.Defined ∧ s.tx.phi.Defined ∧
    0 < s.tx.fs.val) ∧
  (s.rx.st = .active →
    s.rx.f0.Defined ∧ s.rx.f1.Defined ∧ s.rx.fs.Defined ∧ s.rx.br.Defined ∧ s.rx.tsym.Defined ∧ s.rx.i0.Defined ∧
    s.rx.q0.Defined ∧ s.rx.i1.Defined ∧ s.rx.q1.Defined ∧ 0 < s.rx.fs.val) ∧
  ∀ e ∈ s.txout, e.1.Defined ∧ e.2.Defined

/-- The parameters are rational numbers `a`, `b`, `r`, `q`. -/
def ratParams (a b r q : Rat) : Params :=
  { freq0 := Quantity.ofRat a, freq1 := Quantity.ofRat b, samplingRate := Quantity.ofRat r, baudRate := Quantity.ofRat q }

/-- The host delivers every payload in the shape its command reads (rule R130). -/
def wellDelivered : HostEvent → Bool
  | .reset => true
  | .command w p => (match decode w with | .ok i => i.payloadFits p | .error _ => true)

/-- A command of the TX unit (rule R12). -/
def forTx : Instr → Bool
  | .txstartF => true
  | .txstartC => true
  | .txsym _ => true
  | .txend => true
  | .nop => false
  | .rxstart => false
  | .rxsamp => false
  | .rxend => false

/-- A command of the RX unit (rule R12). -/
def forRx : Instr → Bool
  | .rxstart => true
  | .rxsamp => true
  | .rxend => true
  | .nop => false
  | .txstartF => false
  | .txstartC => false
  | .txsym _ => false
  | .txend => false

/-- A START (rules R63, R69, R75). -/
def isStart : Instr → Bool
  | .txstartF => true
  | .txstartC => true
  | .rxstart => true
  | .nop => false
  | .txsym _ => false
  | .txend => false
  | .rxsamp => false
  | .rxend => false

/-- The command is not legal in its unit's state (rules R55, R105): a START of an open unit, another unit command on a closed
one. -/
def wrongState (s : State) : Instr → Bool
  | .nop => false
  | .txstartF => decide (s.tx.st = .active)
  | .txstartC => decide (s.tx.st = .active)
  | .txsym _ => decide (s.tx.st = .idle)
  | .txend => decide (s.tx.st = .idle)
  | .rxstart => decide (s.rx.st = .active)
  | .rxsamp => decide (s.rx.st = .idle)
  | .rxend => decide (s.rx.st = .idle)

/-- The causes a command faults for, the one it responds with first (rules R101, R105, R110): `SequenceError` alone where the
command is not legal, whatever the payload; else, of a START, the configuration causes `Validate` finds. -/
def FaultCauses (i : Instr) (s : State) (c : Response) (cs : List Response) : Prop :=
  (wrongState s i = true ∧ c = .sequenceError ∧ cs = []) ∨
  (wrongState s i = false ∧ isStart i = true ∧ ∃ P, s.port = .params P ∧ validate P = c :: cs)

/-- The word decodes to a TX command. -/
def wordForTx (w : CmdWord) : Bool := match decode w with | .ok i => forTx i | .error _ => false

/-- The word decodes to an RX command. -/
def wordForRx (w : CmdWord) : Bool := match decode w with | .ok i => forRx i | .error _ => false

/-- Rule R27 item 1: the registers hold parameters that `Validate` passes, and the timing derived from them. -/
def RatesHold (f0 f1 fs br : Quantity) (sps : Nat) (tsym : Quantity) : Prop :=
  Quantity.nonPos f0 = false ∧ Quantity.nonPos f1 = false ∧ Quantity.nonPos fs = false ∧ Quantity.nonPos br = false ∧
  Quantity.eq f0 f1 = false ∧ Quantity.lt fs br = false ∧ 1 ≤ sps ∧ sps = Quantity.floorDiv fs br ∧
  tsym = Quantity.div (Quantity.ofNat sps) fs

/-- Rule R27 items 1 to 4, of an open modulation call: a whole number of symbols has been sent, `a` of tone `F0` and `b` of
tone `F1`, and in `CPFSK` mode the accumulator is the phase they add up to. -/
def TxUnit.Inv (u : TxUnit) : Prop :=
  u.st = .active →
    u.written = true ∧ RatesHold u.f0 u.f1 u.fs u.br u.sps u.tsym ∧
    (u.mode = .fsk → u.phi = Quantity.zero) ∧
    ∃ a b : Nat, u.n = u.sps * (a + b) ∧
      (u.mode = .cpfsk →
        u.phi.val = 2 * Real.pi / u.fs.val * (u.sps : ℝ) * ((a : ℝ) * u.f0.val + (b : ℝ) * u.f1.val))

/-- Rule R27 items 1 and 5, of an open demodulation call. -/
def RxUnit.Inv (u : RxUnit) : Prop :=
  u.st = .active →
    u.written = true ∧ RatesHold u.f0 u.f1 u.fs u.br u.sps u.tsym ∧ u.k < u.sps ∧
    (u.k = 0 → u.i0 = Quantity.zero ∧ u.q0 = Quantity.zero ∧ u.i1 = Quantity.zero ∧ u.q1 = Quantity.zero)

/-- The fault record and the responses tell the same story (rules R16, R111): the bit of every fault reported is set, and
the record is clear exactly when every response is `OK`. -/
def ErrInv (s : State) : Prop :=
  (∀ r ∈ s.rsp, errBit r &&& s.err = errBit r) ∧ (s.err = 0 ↔ ∀ r ∈ s.rsp, r = .ok)

/-- The invariant of rules R27 and R111. -/
def State.Inv (s : State) : Prop := TxUnit.Inv s.tx ∧ RxUnit.Inv s.rx ∧ ErrInv s

/-- The elements the open modulation call has appended to `TXOUT`, and their time axis (rules R27 item 2, R31): `TX.N` of
them, the `i`-th with time `i / TX.FS`. -/
def TimeAxisHolds (s : State) : Prop :=
  s.tx.st = .active →
    ∃ before call, s.txout = before ++ call ∧
      call.map Prod.snd = (List.range s.tx.n).map fun i => Quantity.div (Quantity.ofNat i) s.tx.fs

/-- The four sums of a window, as registers: the samples integrated one after another from an opened unit (rules R73, R76). -/
def windowSums (P : Params) (window : List Quantity) : RxUnit :=
  window.foldl (fun u x => integrate x u) (openRx P RxUnit.reset)

/-- The `j`-th symbol window of a waveform (rule R78). -/
def windowOf (sps j : Nat) (xs : List Quantity) : List Quantity := (xs.drop (j * sps)).take sps

end Sys2Proof.Machine
end

