-- ==== Sys2Proof/Certificates/Slice0/Obligations.lean ====
section
/-! DEFINITION. The statements for the provers.  A statement whose docstring names a rule formalises that rule; where it
rests on a choice of the model instead, the docstring names the log entry.

In every statement the payload port and the host's further input, the fields `port` and `input`, are the model's own (log
entry 3, DESIGN CHOICE), and the field `written` is (log entry 4, DESIGN CHOICE): what a statement says of these three is the
model's choice and no rule of the spec. -/

section

open Sys2Proof Sys2Proof.Machine

/-! ## Encoding -/

/-- Rule R50: which words select which row, and that no word selects two. -/
def Obligations.OpcodeMap : Prop :=
  (∀ w : CmdWord,
    (decode w = .ok .nop ↔ w &&& 0xFF = 0x00) ∧ (decode w = .ok .txstartF ↔ w &&& 0xFF = 0x10) ∧
    (decode w = .ok .txstartC ↔ w &&& 0xFF = 0x11) ∧
    (∀ v, decode w = .ok (.txsym v) ↔ w &&& 0xF0 = 0x20 ∧ v = (w &&& 0x0F).toNat) ∧
    (decode w = .ok .txend ↔ w &&& 0xFF = 0x30) ∧ (decode w = .ok .rxstart ↔ w &&& 0xFF = 0x40) ∧
    (decode w = .ok .rxsamp ↔ w &&& 0xFF = 0x50) ∧ (decode w = .ok .rxend ↔ w &&& 0xFF = 0x60) ∧
    rowsSelected w ≤ 1) ∧
  ((List.range 256).filter fun n => rowsSelected (BitVec.ofNat 8 n) == 1).length = 23

/-- Rule R51: the decoder is total; a word is reserved exactly when it matches no row, and the three kinds of reserved
word are those of the rule, 144, 75 and 14 of them. -/
def Obligations.ReservedWords : Prop :=
  (∀ w : CmdWord,
    ((∃ e, decode w = .error e) ↔ rowsSelected w = 0) ∧
    (decode w = .error .opcode ↔ 0x7 ≤ w.toNat / 16) ∧
    (decode w = .error .argument ↔ (w.toNat / 16 ∈ [0x0, 0x3, 0x4, 0x5, 0x6] ∧ w.toNat % 16 ≠ 0)) ∧
    (decode w = .error .mode ↔ (w.toNat / 16 = 0x1 ∧ w.toNat % 16 / 2 ≠ 0))) ∧
  ((List.range 256).filter fun n => decide (decode (BitVec.ofNat 8 n) = .error .opcode)).length = 144 ∧
  ((List.range 256).filter fun n => decide (decode (BitVec.ofNat 8 n) = .error .argument)).length = 75 ∧
  ((List.range 256).filter fun n => decide (decode (BitVec.ofNat 8 n) = .error .mode)).length = 14

/-- The decode table of 95_test_vectors.md section 2.1, at one word or more of each command. -/
def Obligations.DecodedWords : Prop :=
  decode 0x00 = .ok .nop ∧ decode 0x10 = .ok .txstartF ∧ decode 0x11 = .ok .txstartC ∧ decode 0x20 = .ok (.txsym 0) ∧
  decode 0x22 = .ok (.txsym 2) ∧ decode 0x2F = .ok (.txsym 15) ∧ decode 0x30 = .ok .txend ∧ decode 0x40 = .ok .rxstart ∧
  decode 0x50 = .ok .rxsamp ∧ decode 0x60 = .ok .rxend ∧ decode 0x01 = .error .argument ∧ decode 0x12 = .error .mode ∧
  decode 0x5A = .error .argument ∧ decode 0x70 = .error .opcode ∧ decode 0xFF = .error .opcode

/-- Every well-formed command is read back from its word, with its operand at every value its field admits. -/
def Obligations.DecodeOfEncode : Prop := ∀ i : Instr, i.wellFormed = true → decode (encode i) = .ok i

/-- Every word that is a command is the word of that command, and the command is well-formed. -/
def Obligations.EncodeOfDecode : Prop :=
  ∀ (w : CmdWord) (i : Instr), decode w = .ok i → i.wellFormed = true ∧ encode i = w

/-! ## The step, reset, and what the host reads -/

/-- A step on a delivered command word is `exec` of the command it decodes to (rules R29, R30, R36).  That the payload then
stands on the port and that what the host has still to send is a list of the state is the model's choice (log entry 3).
The second clause is the model's choice whole: `withFetchWord`, which stands for the host presenting one command with a
payload that fits it (log entry 10). -/
def Obligations.StepRunsDecoded : Prop :=
  (∀ (s : State) (w : CmdWord) (p : Payload) (rest : List HostEvent) (i : Instr),
    s.input = .command w p :: rest → decode w = .ok i → step s = exec i { s with port := p, input := rest }) ∧
  (∀ (s : State) (w : Nat) (i : Instr), decodeTableWord 8 w = some i →
    ∃ p, i.payloadFits p = true ∧ step (s.withFetchWord 8 w) = exec i { s with port := p })

/-- Rule R106: a word of rule R51, one that matches no row of the map, raises `IllegalCommand`, and neither unit is touched. -/
def Obligations.IllegalCommandStep : Prop :=
  ∀ (s : State) (w : CmdWord) (p : Payload) (rest : List HostEvent),
    s.input = .command w p :: rest → rowsSelected w = 0 →
    step s = .next { s with
      err := s.err ||| 0b10000, rsp := s.rsp ++ [.illegalCommand], port := .none, input := rest }

/-- Rule R26: the unit states, `ERR` and the three logs after reset, and that no other register holds a value then.  How the
last is said is the model's choice (log entry 4): rule R23 has a host read of such a register return an unspecified value,
and the model gives a constant without a definition, which may differ from read to read. -/
def Obligations.ResetValues : Prop :=
  State.reset.tx.st = .idle ∧ State.reset.rx.st = .idle ∧ State.reset.err = 0b00000 ∧ State.reset.txout = [] ∧
  State.reset.rxout = [] ∧ State.reset.rsp = [] ∧
  ∀ n : Nat,
    State.reset.hostRead n .txMode = .bit (Config.unwrittenMode n) ∧
    State.reset.hostRead n .txF0 = .real (Config.unwrittenReal "TX.F0" n) ∧
    State.reset.hostRead n .txF1 = .real (Config.unwrittenReal "TX.F1" n) ∧
    State.reset.hostRead n .txFs = .real (Config.unwrittenReal "TX.FS" n) ∧
    State.reset.hostRead n .txBr = .real (Config.unwrittenReal "TX.BR" n) ∧
    State.reset.hostRead n .txSps = .nat (Config.unwrittenNat "TX.SPS" n) ∧
    State.reset.hostRead n .txTsym = .real (Config.unwrittenReal "TX.TSYM" n) ∧
    State.reset.hostRead n .txN = .nat (Config.unwrittenNat "TX.N" n) ∧
    State.reset.hostRead n .txPhi = .real (Config.unwrittenReal "TX.PHI" n) ∧
    State.reset.hostRead n .rxF0 = .real (Config.unwrittenReal "RX.F0" n) ∧
    State.reset.hostRead n .rxF1 = .real (Config.unwrittenReal "RX.F1" n) ∧
    State.reset.hostRead n .rxFs = .real (Config.unwrittenReal "RX.FS" n) ∧
    State.reset.hostRead n .rxBr = .real (Config.unwrittenReal "RX.BR" n) ∧
    State.reset.hostRead n .rxSps = .nat (Config.unwrittenNat "RX.SPS" n) ∧
    State.reset.hostRead n .rxTsym = .real (Config.unwrittenReal "RX.TSYM" n) ∧
    State.reset.hostRead n .rxK = .nat (Config.unwrittenNat "RX.K" n) ∧
    State.reset.hostRead n .rxI0 = .real (Config.unwrittenReal "RX.I0" n) ∧
    State.reset.hostRead n .rxQ0 = .real (Config.unwrittenReal "RX.Q0" n) ∧
    State.reset.hostRead n .rxI1 = .real (Config.unwrittenReal "RX.I1" n) ∧
    State.reset.hostRead n .rxQ1 = .real (Config.unwrittenReal "RX.Q1" n)

/-- Rules R118 and R119: the reset event gives the state after reset, whatever the state before was.  Two parts of it are the
model's choice: that what the host sends next is untouched (log entry 8), and that the registers to which the spec gives no
reset value then hold the values the model names for `State.reset` (log entry 1). -/
def Obligations.ResetEvent : Prop :=
  ∀ (s : State) (rest : List HostEvent), s.input = .reset :: rest → step s = .next { State.reset with input := rest }

/-- Rule R23: no command reads a register of an idle unit.  Whatever stands in the TX registers of an idle TX unit, the
outcome is the same but for those registers, which a successful START overwrites whole and every other command leaves. -/
def Obligations.IdleTxRegistersUnread : Prop :=
  ∀ (i : Instr) (s t : State) (u : TxUnit), s.tx.st = .idle → u.st = .idle → exec i s = .next t →
    exec i { s with tx := u } = .next (if t.tx.st = .active then t else { t with tx := u })

/-- Rule R23, of the RX unit. -/
def Obligations.IdleRxRegistersUnread : Prop :=
  ∀ (i : Instr) (s t : State) (u : RxUnit), s.rx.st = .idle → u.st = .idle → exec i s = .next t →
    exec i { s with rx := u } = .next (if t.rx.st = .active then t else { t with rx := u })

/-- Rule R22: between commands the host reads the current value of every register a START has written, and of `TX.ST`,
`RX.ST` and `ERR` always.  Which registers a START has written is told by the model's field `written` (log entry 4). -/
def Obligations.HostReads : Prop :=
  ∀ (s : State) (n : Nat),
    s.hostRead n .txSt = .bit (if s.tx.st = .active then 1 else 0) ∧
    s.hostRead n .rxSt = .bit (if s.rx.st = .active then 1 else 0) ∧ s.hostRead n .err = .errBits s.err ∧
    (s.tx.written = true →
      s.hostRead n .txMode = .bit (if s.tx.mode = .cpfsk then 1 else 0) ∧ s.hostRead n .txF0 = .real s.tx.f0 ∧
      s.hostRead n .txF1 = .real s.tx.f1 ∧ s.hostRead n .txFs = .real s.tx.fs ∧ s.hostRead n .txBr = .real s.tx.br ∧
      s.hostRead n .txSps = .nat s.tx.sps ∧ s.hostRead n .txTsym = .real s.tx.tsym ∧ s.hostRead n .txN = .nat s.tx.n ∧
      s.hostRead n .txPhi = .real s.tx.phi) ∧
    (s.rx.written = true →
      s.hostRead n .rxF0 = .real s.rx.f0 ∧ s.hostRead n .rxF1 = .real s.rx.f1 ∧ s.hostRead n .rxFs = .real s.rx.fs ∧
      s.hostRead n .rxBr = .real s.rx.br ∧ s.hostRead n .rxSps = .nat s.rx.sps ∧
      s.hostRead n .rxTsym = .real s.rx.tsym ∧ s.hostRead n .rxK = .nat s.rx.k ∧ s.hostRead n .rxI0 = .real s.rx.i0 ∧
      s.hostRead n .rxQ0 = .real s.rx.q0 ∧ s.hostRead n .rxI1 = .real s.rx.i1 ∧ s.hostRead n .rxQ1 = .real s.rx.q1)

/-! ## Call control and faults -/

/-- Rule R60: `NOP` responds `OK` from any state and changes nothing else. -/
def Obligations.NopCompletes : Prop :=
  ∀ s : State, exec .nop s = .next { s with rsp := s.rsp ++ [.ok], port := .none }

/-- Rule R105: a START of an open unit, and every other unit command on a closed one, raises `SequenceError`, whatever
stands on the payload port: only `ERR[3]` and the responses change. -/
def Obligations.SequenceErrors : Prop :=
  ∀ (i : Instr) (s : State),
    ((i = .txstartF ∨ i = .txstartC) ∧ s.tx.st = .active) ∨ (i = .rxstart ∧ s.rx.st = .active) ∨
    (((∃ v, i = .txsym v) ∨ i = .txend) ∧ s.tx.st = .idle) ∨ ((i = .rxsamp ∨ i = .rxend) ∧ s.rx.st = .idle) →
    exec i s = .next { s with err := s.err ||| 0b01000, rsp := s.rsp ++ [.sequenceError], port := .none }

/-- Rules R58 and R110: on an idle unit a START whose payload fails the parameter check sets the `ERR` bit of every cause
that holds and responds with the first of `ConfigRange`, `ConfigFreq`, `ConfigTiming`; no register is written and nothing
is emitted.  The three tests are the model's comparisons; `ExactOrder` says that they are those of the reals. -/
def Obligations.ConfigurationFaults : Prop :=
  ∀ (i : Instr) (s : State) (P : Params),
    ((i = .txstartF ∨ i = .txstartC) ∧ s.tx.st = .idle) ∨ (i = .rxstart ∧ s.rx.st = .idle) →
    s.port = .params P →
    let range := Quantity.nonPos P.freq0 ∨ Quantity.nonPos P.freq1 ∨ Quantity.nonPos P.samplingRate ∨
      Quantity.nonPos P.baudRate
    let freq := Quantity.eq P.freq0 P.freq1
    let timing := Quantity.lt P.samplingRate P.baudRate
    (range ∨ freq ∨ timing) →
    exec i s = .next { s with
      err := s.err ||| (if range then 0b00100 else 0) ||| (if freq then 0b00001 else 0) |||
        (if timing then 0b00010 else 0),
      rsp := s.rsp ++ [if range then .configRange else if freq then .configFreq else .configTiming],
      port := .none }

/-- Rule R4: on real numbers the comparisons of the model, among them the three tests of the parameter check, are exactly
the comparisons of the reals. -/
def Obligations.ExactOrder : Prop :=
  ∀ a b : Quantity, a.Defined → b.Defined →
    (Quantity.lt a b = true ↔ a.val < b.val) ∧ (Quantity.gt a b = true ↔ a.val > b.val) ∧
    (Quantity.eq a b = true ↔ a.val = b.val) ∧ (Quantity.nonPos a = true ↔ a.val ≤ 0)

/-- Rules R101, R105, R109, R110, R111: a command that comes to a next state either is legal in its unit's state, has no
configuration cause, responds `OK` and leaves `ERR`; or it has the causes `FaultCauses` names, responds with the first, adds
the bits of all to `ERR`, and changes nothing else.  In both cases it responds exactly once and the host's further input is
untouched. -/
def Obligations.FaultsArePrecise : Prop :=
  ∀ (i : Instr) (s t : State), exec i s = .next t →
    (wrongState s i = false ∧ (isStart i = true → ∃ P, s.port = .params P ∧ validate P = []) ∧
      t.rsp = s.rsp ++ [.ok] ∧ t.err = s.err ∧ t.port = .none ∧ t.input = s.input) ∨
    ∃ c cs, c ≠ .ok ∧ FaultCauses i s c cs ∧ t = { s with err := s.err ||| errBits (c :: cs), rsp := s.rsp ++ [c], port := .none }

/-- Rule R16: `ERR` is sticky and read by no command: with another value in it a command does the same and adds the same
bits. -/
def Obligations.ErrIsSticky : Prop :=
  ∀ (i : Instr) (s t : State), exec i s = .next t →
    ∃ added : ErrBits, t.err = s.err ||| added ∧
      ∀ e : ErrBits, exec i { s with err := e } = .next { t with err := e ||| added }

/-- Rule R37: what each command moves. -/
def Obligations.WhatCommandsProduce : Prop :=
  ∀ (i : Instr) (s t : State), exec i s = .next t →
    ∃ c pairs bits, t.rsp = s.rsp ++ [c] ∧ t.txout = s.txout ++ pairs ∧ t.rxout = s.rxout ++ bits ∧
      (c ≠ .ok → pairs = [] ∧ bits = []) ∧
      ((∀ v, i ≠ .txsym v) → pairs = []) ∧ (i ≠ .rxsamp → bits = []) ∧
      ((∃ v, i = .txsym v) → c = .ok → pairs.length = s.tx.sps) ∧
      (i = .rxsamp → c = .ok → bits.length = if s.rx.k + 1 = s.rx.sps then 1 else 0)

/-- Rules R128 and R130: every event the host may send, each payload in the shape its command reads, comes to a next state.
Two parts are the model's choice: that the only step without a next state is the refusal, as `payloadShape`, of a START or
an `RXSAMP` whose payload has another shape (log entry 7; the spec places such a delivery outside itself), and that a step
with nothing delivered comes to a next state (log entry 3). -/
def Obligations.EveryStepCompletes : Prop :=
  ∀ s : State,
    ((∀ e ∈ s.input.head?, wellDelivered e = true) → ∃ t, step s = .next t) ∧
    ((∃ t, step s = .next t) ∨
      step s = .refused .payloadShape ∧ ∃ w p rest i, s.input = .command w p :: rest ∧ decode w = .ok i ∧
        i.payloadFits p = false)

/-! ## Opening a call -/

/-- Rules R63 and R69: a valid modulation START on an idle unit. -/
def Obligations.TxStartOpens : Prop :=
  ∀ (i : Instr) (m : Mode) (s : State) (P : Params),
    (i = .txstartF ∧ m = .fsk) ∨ (i = .txstartC ∧ m = .cpfsk) →
    s.tx.st = .idle → s.port = .params P → validate P = [] →
    exec i s = .next { s with
      tx := { st := .active, mode := m, f0 := P.freq0, f1 := P.freq1, fs := P.samplingRate, br := P.baudRate,
              sps := Quantity.floorDiv P.samplingRate P.baudRate,
              tsym := Quantity.div (Quantity.ofNat (Quantity.floorDiv P.samplingRate P.baudRate)) P.samplingRate,
              n := 0, phi := Quantity.zero, written := true },
      rsp := s.rsp ++ [.ok], port := .none }

/-- Rule R75: a valid `RXSTART` on an idle unit. -/
def Obligations.RxStartOpens : Prop :=
  ∀ (s : State) (P : Params), s.rx.st = .idle → s.port = .params P → validate P = [] →
    exec .rxstart s = .next { s with
      rx := { st := .active, f0 := P.freq0, f1 := P.freq1, fs := P.samplingRate, br := P.baudRate,
              sps := Quantity.floorDiv P.samplingRate P.baudRate,
              tsym := Quantity.div (Quantity.ofNat (Quantity.floorDiv P.samplingRate P.baudRate)) P.samplingRate,
              k := 0, i0 := Quantity.zero, q0 := Quantity.zero, i1 := Quantity.zero, q1 := Quantity.zero,
              written := true },
      rsp := s.rsp ++ [.ok], port := .none }

/-- Rule R58, the condition `validate P = []` of the completion statements: it holds exactly when none of the three tests
does, which over the reals is so exactly when all are positive, the tones differ and `samplingRate ≥ baudRate`. -/
def Obligations.ValidParameters : Prop :=
  (∀ P : Params, validate P = [] ↔
    Quantity.nonPos P.freq0 = false ∧ Quantity.nonPos P.freq1 = false ∧ Quantity.nonPos P.samplingRate = false ∧
    Quantity.nonPos P.baudRate = false ∧ Quantity.eq P.freq0 P.freq1 = false ∧
    Quantity.lt P.samplingRate P.baudRate = false) ∧
  (∀ P : Params, paramsDefined P →
    (validate P = [] ↔ 0 < P.freq0.val ∧ 0 < P.freq1.val ∧ 0 < P.samplingRate.val ∧ 0 < P.baudRate.val ∧
      P.freq0.val ≠ P.freq1.val ∧ P.baudRate.val ≤ P.samplingRate.val))

/-- Rule R59, the timing of a valid payload: `samplesPerSymbol` is the floor of the quotient of the rates and at least 1, and
`symbolDuration` is that many sampling periods, at most `1 / baudRate`. -/
def Obligations.SymbolTiming : Prop :=
  ∀ P : Params, paramsDefined P → validate P = [] →
    (samplesPerSymbol P : ℤ) = ⌊P.samplingRate.val / P.baudRate.val⌋ ∧ 1 ≤ samplesPerSymbol P ∧
    (symbolDuration P).val = samplesPerSymbol P / P.samplingRate.val ∧ (symbolDuration P).val ≤ 1 / P.baudRate.val

/-! ## The modulator -/

/-- Rule R61: the mapper. -/
def Obligations.MapFreqIsTotal : Prop :=
  ∀ (v : Nat) (f0 f1 : Quantity), v < 16 →
    (v = 0 → mapFreq v f0 f1 = f0) ∧ (v ≠ 0 → mapFreq v f0 f1 = f1)

/-- Rule R62: the discontinuous-phase sample over the reals, with its corner case and its range. -/
def Obligations.SampleFskValue : Prop :=
  ∀ (f : Quantity) (i : Nat) (fs : Quantity),
    (sampleFsk f i fs).1.val = Real.sin (2 * Real.pi * f.val * (i / fs.val)) ∧
    (sampleFsk f i fs).2.val = i / fs.val ∧
    (i = 0 → sampleFsk f i fs = (Quantity.zero, Quantity.zero)) ∧
    -1 ≤ (sampleFsk f i fs).1.val ∧ (sampleFsk f i fs).1.val ≤ 1

/-- Rules R67 and R68: the continuous-phase step adds the increment first and then takes the sine; it writes no register
but `TX.PHI`. -/
def Obligations.StepCpfskValue : Prop :=
  ∀ (f : Quantity) (u : TxUnit),
    (deltaPhi f u.fs).val = 2 * Real.pi * f.val / u.fs.val ∧
    (stepCpfsk f u).1.phi.val = u.phi.val + 2 * Real.pi * f.val / u.fs.val ∧
    (stepCpfsk f u).1 = { u with phi := (stepCpfsk f u).1.phi } ∧
    (stepCpfsk f u).2.1.val = Real.sin (u.phi.val + 2 * Real.pi * f.val / u.fs.val) ∧
    (stepCpfsk f u).2.2.val = u.n / u.fs.val

/-- Rule R64 in `FSK` mode: `TXSYM` completes, emits `TX.SPS` samples of rule R62 at consecutive global indices, and writes
`TX.N` alone. -/
def Obligations.TxsymFskCompletes : Prop :=
  ∀ (v : Nat) (s : State), v < 16 → s.tx.st = .active → s.tx.mode = .fsk →
    exec (.txsym v) s = .next { s with
      tx := { s.tx with n := s.tx.n + s.tx.sps },
      txout := s.txout ++ (List.range s.tx.sps).map fun k =>
        sampleFsk (if v = 0 then s.tx.f0 else s.tx.f1) (s.tx.n + k) s.tx.fs,
      rsp := s.rsp ++ [.ok], port := .none }

/-- Rule R64 in `CPFSK` mode: `TXSYM` completes, emits `TX.SPS` samples whose phases rise by one increment of the symbol's
tone each, and writes `TX.N` and `TX.PHI` alone. -/
def Obligations.TxsymCpfskCompletes : Prop :=
  ∀ (v : Nat) (s : State), v < 16 → s.tx.st = .active → s.tx.mode = .cpfsk →
    let f := if v = 0 then s.tx.f0 else s.tx.f1
    ∃ (phi : Quantity) (wave : List (Quantity × Quantity)),
      exec (.txsym v) s = .next { s with
        tx := { s.tx with n := s.tx.n + s.tx.sps, phi := phi },
        txout := s.txout ++ wave, rsp := s.rsp ++ [.ok], port := .none } ∧
      phi.val = s.tx.phi.val + s.tx.sps * (2 * Real.pi * f.val / s.tx.fs.val) ∧
      wave.length = s.tx.sps ∧
      ∀ k < s.tx.sps, ∃ x, wave[k]? = some (x, Quantity.div (Quantity.ofNat (s.tx.n + k)) s.tx.fs) ∧
        x.val = Real.sin (s.tx.phi.val + (k + 1) * (2 * Real.pi * f.val / s.tx.fs.val))

/-- Rule R65: `TXEND` closes an open call and keeps every other register; with no call open it is a `SequenceError`. -/
def Obligations.TxendCompletes : Prop :=
  ∀ s : State,
    (s.tx.st = .active →
      exec .txend s = .next { s with tx := { s.tx with st := .idle }, rsp := s.rsp ++ [.ok], port := .none }) ∧
    (s.tx.st = .idle →
      exec .txend s = .next { s with err := s.err ||| 0b01000, rsp := s.rsp ++ [.sequenceError], port := .none })

/-- Rule R70: between two samples the accumulator rises by the increment of the tone of the later one and by nothing more,
and it rises strictly where the tone and the sampling rate are positive. -/
def Obligations.PhaseContinuity : Prop :=
  ∀ (f g : Quantity) (u : TxUnit), 0 < g.val → 0 < u.fs.val →
    let a := (stepCpfsk f u).1
    let b := (stepCpfsk g { a with n := a.n + 1 }).1
    b.phi.val - a.phi.val = (deltaPhi g u.fs).val ∧ a.phi.val < b.phi.val

/-! ## The receiver -/

/-- Rules R72, R73 and R76: an `RXSAMP` that does not complete the window adds the four products to the four sums and
advances `RX.K`; it emits nothing and writes no other register. -/
def Obligations.RxsampIntegrates : Prop :=
  ∀ (s : State) (x : Quantity), s.rx.st = .active → s.port = .sample x → s.rx.k + 1 ≠ s.rx.sps →
    ∃ i0 q0 i1 q1 : Quantity,
      exec .rxsamp s = .next { s with
        rx := { s.rx with i0 := i0, q0 := q0, i1 := i1, q1 := q1, k := s.rx.k + 1 },
        rsp := s.rsp ++ [.ok], port := .none } ∧
      i0.val = s.rx.i0.val + x.val * Real.cos (2 * Real.pi * s.rx.f0.val * (s.rx.k / s.rx.fs.val)) ∧
      q0.val = s.rx.q0.val + x.val * Real.sin (2 * Real.pi * s.rx.f0.val * (s.rx.k / s.rx.fs.val)) ∧
      i1.val = s.rx.i1.val + x.val * Real.cos (2 * Real.pi * s.rx.f1.val * (s.rx.k / s.rx.fs.val)) ∧
      q1.val = s.rx.q1.val + x.val * Real.sin (2 * Real.pi * s.rx.f1.val * (s.rx.k / s.rx.fs.val))

/-- Rules R76 and R80: an `RXSAMP` that completes the window emits the bit of the window, `windowBit` of the unit `u` with the
sample's four products added to its sums, and clears the sums and `RX.K`.  The sums are given by their real values, and
where the state's numbers are real numbers (`AllDefined`, which `RealsKept` says every step keeps) the bit is 0 exactly
when the real magnitude at `RX.F0` is strictly above that at `RX.F1`, and 1 otherwise. -/
def Obligations.RxsampDecides : Prop :=
  ∀ (s : State) (x : Quantity), s.rx.st = .active → s.port = .sample x → s.rx.k + 1 = s.rx.sps →
    let u := integrate x s.rx
    let real0 := Real.sqrt (u.i0.val ^ 2 + u.q0.val ^ 2)
    let real1 := Real.sqrt (u.i1.val ^ 2 + u.q1.val ^ 2)
    exec .rxsamp s = .next { s with
      rx := { s.rx with i0 := Quantity.zero, q0 := Quantity.zero, i1 := Quantity.zero, q1 := Quantity.zero, k := 0 },
      rxout := s.rxout ++ [windowBit u], rsp := s.rsp ++ [.ok], port := .none } ∧
    u.i0.val = s.rx.i0.val + x.val * Real.cos (2 * Real.pi * s.rx.f0.val * (s.rx.k / s.rx.fs.val)) ∧
    u.q0.val = s.rx.q0.val + x.val * Real.sin (2 * Real.pi * s.rx.f0.val * (s.rx.k / s.rx.fs.val)) ∧
    u.i1.val = s.rx.i1.val + x.val * Real.cos (2 * Real.pi * s.rx.f1.val * (s.rx.k / s.rx.fs.val)) ∧
    u.q1.val = s.rx.q1.val + x.val * Real.sin (2 * Real.pi * s.rx.f1.val * (s.rx.k / s.rx.fs.val)) ∧
    (AllDefined s → (windowBit u = 0 ↔ real0 > real1) ∧ (windowBit u = 1 ↔ real0 ≤ real1))

/-- Rule R74: the magnitude, never negative, and 0 exactly when both sums are 0. -/
def Obligations.MagValue : Prop :=
  ∀ i q : Quantity, (mag i q).val = Real.sqrt (i.val ^ 2 + q.val ^ 2) ∧ 0 ≤ (mag i q).val ∧
    ((mag i q).val = 0 ↔ i.val = 0 ∧ q.val = 0)

/-- Rules R79 and R77: on magnitudes the bit is 0 exactly when the first is strictly greater, which is so exactly when its
square is, and 1 otherwise, the tie included. -/
def Obligations.DecisionOnMagnitudes : Prop :=
  ∀ i0 q0 i1 q1 : Quantity, i0.Defined → q0.Defined → i1.Defined → q1.Defined →
    (decideBit (mag i0 q0) (mag i1 q1) = 0 ↔ (mag i0 q0).val > (mag i1 q1).val) ∧
    (decideBit (mag i0 q0) (mag i1 q1) = 1 ↔ (mag i0 q0).val ≤ (mag i1 q1).val) ∧
    ((mag i0 q0).val > (mag i1 q1).val ↔ i0.val ^ 2 + q0.val ^ 2 > i1.val ^ 2 + q1.val ^ 2)

/-- Rule R81: `RXEND` drops the partial window, emits nothing and closes an open call; with no call open it is a
`SequenceError`. -/
def Obligations.RxendCompletes : Prop :=
  ∀ s : State,
    (s.rx.st = .active →
      exec .rxend s = .next { s with
        rx := { s.rx with st := .idle, i0 := Quantity.zero, q0 := Quantity.zero, i1 := Quantity.zero,
                          q1 := Quantity.zero, k := 0 },
        rsp := s.rsp ++ [.ok], port := .none }) ∧
    (s.rx.st = .idle →
      exec .rxend s = .next { s with err := s.err ||| 0b01000, rsp := s.rsp ++ [.sequenceError], port := .none })

/-! ## The machine as a whole -/

/-- What each command leaves unchanged in every next state, a fault entry included: the registers, the logs and the input
it does not name. -/
def Obligations.Frames : Prop :=
  ∀ (i : Instr) (s t : State), exec i s = .next t →
    t.input = s.input ∧
    (i = .nop → t.tx = s.tx ∧ t.rx = s.rx ∧ t.err = s.err ∧ t.txout = s.txout ∧ t.rxout = s.rxout) ∧
    (i = .txstartF ∨ i = .txstartC → t.rx = s.rx ∧ t.txout = s.txout ∧ t.rxout = s.rxout) ∧
    (∀ v, i = .txsym v → t.rx = s.rx ∧ t.rxout = s.rxout ∧ t.tx = { s.tx with n := t.tx.n, phi := t.tx.phi } ∧
      (s.tx.mode = .fsk → t.tx.phi = s.tx.phi)) ∧
    (i = .txend → t.rx = s.rx ∧ t.txout = s.txout ∧ t.rxout = s.rxout ∧ t.tx = { s.tx with st := t.tx.st }) ∧
    (i = .rxstart → t.tx = s.tx ∧ t.txout = s.txout ∧ t.rxout = s.rxout) ∧
    (i = .rxsamp → t.tx = s.tx ∧ t.txout = s.txout ∧
      t.rx = { s.rx with i0 := t.rx.i0, q0 := t.rx.q0, i1 := t.rx.i1, q1 := t.rx.q1, k := t.rx.k }) ∧
    (i = .rxend → t.tx = s.tx ∧ t.txout = s.txout ∧ t.rxout = s.rxout ∧
      t.rx = { s.rx with st := t.rx.st, i0 := t.rx.i0, q0 := t.rx.q0, i1 := t.rx.i1, q1 := t.rx.q1, k := t.rx.k })

/-- Rule R12, reads and writes: what a TX command does to `TX.*`, `TXOUT`, `ERR` and `RSP` depends on the TX registers and
the payload alone, and it leaves `RX.*` and `RXOUT`; the same of an RX command with the units exchanged. -/
def Obligations.UnitIndependence : Prop :=
  (∀ (i : Instr) (s t : State), forTx i = true → exec i s = .next t →
    t.rx = s.rx ∧ t.rxout = s.rxout ∧
    ∀ (r : RxUnit) (bits : List Bit), exec i { s with rx := r, rxout := bits } = .next { t with rx := r, rxout := bits }) ∧
  (∀ (i : Instr) (s t : State), forRx i = true → exec i s = .next t →
    t.tx = s.tx ∧ t.txout = s.txout ∧
    ∀ (u : TxUnit) (pairs : List (Quantity × Quantity)),
      exec i { s with tx := u, txout := pairs } = .next { t with tx := u, txout := pairs })

/-- Rules R12 and R116: the TX registers and `TXOUT` after a command sequence are those of the sequence with the RX commands
deleted, and the other way round. -/
def Obligations.Interleaving : Prop :=
  ∀ (cs : List (CmdWord × Payload)) (s t : State), issueAll cs s = .next t →
    (∃ u, issueAll (cs.filter fun c => !wordForRx c.1) s = .next u ∧ u.tx = t.tx ∧ u.txout = t.txout) ∧
    (∃ u, issueAll (cs.filter fun c => !wordForTx c.1) s = .next u ∧ u.rx = t.rx ∧ u.rxout = t.rxout)

/-- Rules R27 and R111: the invariant holds after reset. -/
def Obligations.InvariantAtReset : Prop := State.reset.Inv ∧ TimeAxisHolds State.reset ∧ AllDefined State.reset

/-- Rules R27 (items 1 to 5) and R111: every step keeps the invariant. -/
def Obligations.InvariantKept : Prop := ∀ s t : State, s.Inv → step s = .next t → t.Inv

/-- Rules R27 (item 2) and R31: every step keeps the time axis of the open call: `TX.N` elements, the `i`-th with time
`i / TX.FS`. -/
def Obligations.TimeAxisKept : Prop := ∀ s t : State, TimeAxisHolds s → step s = .next t → TimeAxisHolds t

/-- Rule R4: if the host delivers real numbers, the registers of the open calls and the elements of `TXOUT` stay real
numbers: no step divides by 0 or takes the square root of a negative number. -/
def Obligations.RealsKept : Prop := ∀ s t : State, AllDefined s → step s = .next t → AllDefined t

/-! ## Whole calls -/

/-- Rule R88: the closed form of a successful `MODULATE.FSK`. -/
def Obligations.ModulateFskClosedForm : Prop :=
  ∀ (P : Params) (vs : List Nat) (s : State), s.tx.st = .idle → validate P = [] → (∀ v ∈ vs, v < 16) →
    ∃ (t : State) (wave : List (Quantity × Quantity)), modulateFsk P vs s = .next t ∧ t.txout = s.txout ++ wave ∧
      t.tx.st = .idle ∧ t.err = s.err ∧ wave.length = vs.length * samplesPerSymbol P ∧
      ∀ i < vs.length * samplesPerSymbol P, ∃ e v, wave[i]? = some e ∧ vs[i / samplesPerSymbol P]? = some v ∧
        e.1.val = Real.sin (2 * Real.pi * (if v = 0 then P.freq0 else P.freq1).val * i / P.samplingRate.val) ∧
        e.2.val = i / P.samplingRate.val

/-- Rule R89: the closed form of a successful `MODULATE.CPFSK`. -/
def Obligations.ModulateCpfskClosedForm : Prop :=
  ∀ (P : Params) (vs : List Nat) (s : State), s.tx.st = .idle → validate P = [] → (∀ v ∈ vs, v < 16) →
    let sps := samplesPerSymbol P
    let tone := fun v : Nat => (if v = 0 then P.freq0 else P.freq1).val
    ∃ (t : State) (wave : List (Quantity × Quantity)), modulateCpfsk P vs s = .next t ∧ t.txout = s.txout ++ wave ∧
      t.tx.st = .idle ∧ t.err = s.err ∧ wave.length = vs.length * sps ∧
      ∀ i < vs.length * sps, ∃ e v, wave[i]? = some e ∧ vs[i / sps]? = some v ∧
        e.1.val = Real.sin ((2 * Real.pi / P.samplingRate.val) *
          (sps * ((vs.take (i / sps)).map tone).sum + ((i % sps : ℕ) + 1) * tone v)) ∧
        e.2.val = i / P.samplingRate.val

/-- Rules R82 and R90: a successful `DEMODULATE` of `L` samples emits `floor(L / sps)` bits, the `j`-th decided from the
`j`-th window alone; the trailing samples have no effect. -/
def Obligations.DemodulateClosedForm : Prop :=
  ∀ (P : Params) (xs : List Quantity) (s : State), s.rx.st = .idle → validate P = [] →
    ∃ t : State, demodulate P xs s = .next t ∧ t.rx.st = .idle ∧ t.err = s.err ∧
      t.rxout = s.rxout ++ (List.range (xs.length / samplesPerSymbol P)).map fun j =>
        windowBit (windowSums P (windowOf (samplesPerSymbol P) j xs))

/-- Rule R73: the four sums of a window over the reals. -/
def Obligations.WindowSumValues : Prop :=
  ∀ (P : Params) (window : List Quantity),
    let w := fun k : Nat => (window.getD k Quantity.zero).val
    let angle := fun (f : Quantity) (k : Nat) => 2 * Real.pi * f.val * ((k : ℝ) / P.samplingRate.val)
    (windowSums P window).i0.val = ∑ k ∈ Finset.range window.length, w k * Real.cos (angle P.freq0 k) ∧
    (windowSums P window).q0.val = ∑ k ∈ Finset.range window.length, w k * Real.sin (angle P.freq0 k) ∧
    (windowSums P window).i1.val = ∑ k ∈ Finset.range window.length, w k * Real.cos (angle P.freq1 k) ∧
    (windowSums P window).q1.val = ∑ k ∈ Finset.range window.length, w k * Real.sin (angle P.freq1 k)

/-- Rule R94: the empty calls, and that an empty call with an invalid payload still faults. -/
def Obligations.EmptyCalls : Prop :=
  ∀ (P : Params) (s : State),
    (s.tx.st = .idle → validate P = [] →
      (∃ t, modulateFsk P [] s = .next t ∧ t.txout = s.txout ∧ t.rsp = s.rsp ++ [.ok, .ok]) ∧
      (∃ t, modulateCpfsk P [] s = .next t ∧ t.txout = s.txout ∧ t.rsp = s.rsp ++ [.ok, .ok])) ∧
    (s.rx.st = .idle → validate P = [] →
      ∃ t, demodulate P [] s = .next t ∧ t.rxout = s.rxout ∧ t.rsp = s.rsp ++ [.ok, .ok]) ∧
    (s.tx.st = .idle → validate P ≠ [] →
      (∃ t c, modulateFsk P [] s = .next t ∧ c ≠ .ok ∧ t.txout = s.txout ∧ t.rsp = s.rsp ++ [c]) ∧
      (∃ t c, modulateCpfsk P [] s = .next t ∧ c ≠ .ok ∧ t.txout = s.txout ∧ t.rsp = s.rsp ++ [c])) ∧
    (s.rx.st = .idle → validate P ≠ [] →
      ∃ t c, demodulate P [] s = .next t ∧ c ≠ .ok ∧ t.rxout = s.rxout ∧ t.rsp = s.rsp ++ [c])

/-- Rule R96: windows of silence decode to 1, one bit per complete window. -/
def Obligations.SilenceDecodesToOne : Prop :=
  ∀ (P : Params) (L : Nat) (s : State), s.rx.st = .idle → validate P = [] →
    ∃ t, demodulate P (List.replicate L Quantity.zero) s = .next t ∧
      t.rxout = s.rxout ++ List.replicate (L / samplesPerSymbol P) 1

/-- Rule R97: with one sample per symbol every window is a tie and every decoded bit is 1, so a waveform of a symbol
sequence with a 0 in it does not decode to that sequence. -/
def Obligations.SingleSampleWindowsTie : Prop :=
  ∀ (P : Params) (xs : List Quantity) (s : State), s.rx.st = .idle → validate P = [] → samplesPerSymbol P = 1 →
    ∃ t, demodulate P xs s = .next t ∧ t.rxout = s.rxout ++ List.replicate xs.length 1

/-- Rule R91 at the source's calibration parameters: for every bit sequence, of every length, the bits demodulated from its
FSK waveform are the bits, and the same holds of CPFSK; also with the two calls run on one block. -/
def Obligations.RoundTripAtCalibration : Prop :=
  ∀ (bits : List Bit) (s : State), s.tx.st = .idle → s.rx.st = .idle →
    (∃ (t u : State) (wave : List (Quantity × Quantity)),
      modulateFsk calibration (bits.map BitVec.toNat) s = .next t ∧ t.txout = s.txout ++ wave ∧
      demodulate calibration (wave.map Prod.fst) t = .next u ∧ u.rxout = s.rxout ++ bits) ∧
    (∃ (t u : State) (wave : List (Quantity × Quantity)),
      modulateCpfsk calibration (bits.map BitVec.toNat) s = .next t ∧ t.txout = s.txout ++ wave ∧
      demodulate calibration (wave.map Prod.fst) t = .next u ∧ u.rxout = s.rxout ++ bits)

/-- Rules R33 and R87: `TXBYTE` sends the bits of a byte most significant first, and packing eight such bits gives the byte
back. -/
def Obligations.ByteOrder : Prop :=
  (∀ b < 256, byteBits b = [7, 6, 5, 4, 3, 2, 1, 0].map (fun q => (b >>> q) % 2) ∧ packBits (byteBits b) = b) ∧
  (txByte 0xA5).map Prod.fst = [0x21, 0x20, 0x21, 0x20, 0x20, 0x21, 0x20, 0x21]

/-- Rule R98: quantizing and dequantizing a sample of [-1, 1] gives an integer of the 16-bit range and moves the sample by at
most half a step, whichever way an exact half is rounded (log entry 9). -/
def Obligations.QuantizationBound : Prop :=
  ∀ x : ℝ, -1 ≤ x → x ≤ 1 →
    ∃ q : ℤ, quantize x = some q ∧ -32767 ≤ q ∧ q ≤ 32767 ∧ (dequantize q).val = q / 32767 ∧
      |(dequantize q).val - x| ≤ 0.5 / 32767

/-! ## Quantization robustness and whole-cycle windows -/

/-- Rule R93, the bounds: a window of samples of [-1, 1] that is sent through the codec keeps its length, each of its four
sums moves by at most `sps * e` and each of its two magnitudes by at most `sqrt(2) * sps * e`, with `e = 0.5 / 32767` and
`sps` the number of samples; for 147 samples the last bound is below 0.0032.  That each sample has a result, whichever way
an exact half is rounded, is the codec of log entry 9. -/
def Obligations.QuantizationMovesWindows : Prop :=
  (∀ (P : Params) (window : List Quantity), (∀ x ∈ window, -1 ≤ x.val ∧ x.val ≤ 1) →
    ∃ quantized, waveformThroughCodec window = some quantized ∧ quantized.length = window.length ∧
      let u := windowSums P window
      let v := windowSums P quantized
      let e : ℝ := 0.5 / 32767
      |v.i0.val - u.i0.val| ≤ window.length * e ∧ |v.q0.val - u.q0.val| ≤ window.length * e ∧
      |v.i1.val - u.i1.val| ≤ window.length * e ∧ |v.q1.val - u.q1.val| ≤ window.length * e ∧
      |(mag v.i0 v.q0).val - (mag u.i0 u.q0).val| ≤ Real.sqrt 2 * window.length * e ∧
      |(mag v.i1 v.q1).val - (mag u.i1 u.q1).val| ≤ Real.sqrt 2 * window.length * e) ∧
  Real.sqrt 2 * 147 * (0.5 / 32767) < 0.0032

/-- Rules R62, R68 and R98: the waveform of every successful modulation call has a result in the codec, of the same length:
its samples are sines. -/
def Obligations.WaveformFitsCodec : Prop :=
  ∀ (m : Mode) (P : Params) (vs : List Nat) (s : State), s.tx.st = .idle → validate P = [] → (∀ v ∈ vs, v < 16) →
    ∃ t quantized, modulate m P vs s = .next t ∧ waveformThroughCodec (callWaveform s t) = some quantized ∧
      quantized.length = vs.length * samplesPerSymbol P

/-- Rules R91 and R93, the margin: at the calibration parameters, in both modes and for every bit sequence, every symbol
window has the magnitude at the tone that was sent above the other one by more than 64. -/
def Obligations.CalibrationMargin : Prop :=
  ∀ (m : Mode) (bits : List Bit) (s : State), s.tx.st = .idle →
    ∃ t, modulate m calibration (bits.map BitVec.toNat) s = .next t ∧
      (callWaveform s t).length = bits.length * 147 ∧
      ∀ j b, bits[j]? = some b →
        let u := windowSums calibration (windowOf 147 j (callWaveform s t))
        if b = 0 then (mag u.i0 u.q0).val > (mag u.i1 u.q1).val + 64
        else (mag u.i1 u.q1).val > (mag u.i0 u.q0).val + 64

/-- Rule R93: at the calibration parameters every bit sequence comes back from the chain modulator, 16-bit quantization and
back, demodulator, in both modes.  The codec is that of log entry 9, with any rounding of an exact half. -/
def Obligations.QuantizedRoundTripAtCalibration : Prop :=
  ∀ (m : Mode) (bits : List Bit) (s : State), s.tx.st = .idle → s.rx.st = .idle →
    ∃ u, quantizedChain m calibration (bits.map BitVec.toNat) s = some (.next u) ∧ u.rxout = s.rxout ++ bits

/-- Rule R100, which the spec marks as general knowledge and not in the source: a window that holds `c` whole cycles of a
tone, `2 * c` no multiple of the number of samples, has at that tone the sums `(sps / 2) * sin(theta)` and
`(sps / 2) * cos(theta)` and the magnitude `sps / 2`, whatever the start phase `theta` is. -/
def Obligations.WholeCycleWindows : Prop :=
  ∀ (P : Params) (window : List Quantity) (f : Quantity) (theta : ℝ) (c : Nat), P.samplingRate.val ≠ 0 → 0 < c →
    f.val * window.length = c * P.samplingRate.val → ¬ window.length ∣ 2 * c →
    (∀ k < window.length,
      (window.getD k Quantity.zero).val = Real.sin (2 * Real.pi * f.val * k / P.samplingRate.val + theta)) →
    let u := windowSums P window
    let half : ℝ := window.length / 2
    (P.freq0 = f → u.i0.val = half * Real.sin theta ∧ u.q0.val = half * Real.cos theta ∧ (mag u.i0 u.q0).val = half) ∧
    (P.freq1 = f → u.i1.val = half * Real.sin theta ∧ u.q1.val = half * Real.cos theta ∧ (mag u.i1 u.q1).val = half)

/-! ## Response codes -/

/-- Rules R21 and R101: the 3-bit codes of the responses, and what each says of a step that takes a command.  The step
appends exactly one code, 0 to 5, so 6 and 7 never.  Code 0 leaves `ERR`; codes 1, 2 and 3 come from a START with their
cause, code 4 from a command not legal in its unit's state, code 5 from a reserved word alone, and each of the five sets its
own `ERR` bit.  The tests of codes 1 to 3 are the model's comparisons; `ExactOrder` says that they are those of the
reals. -/
def Obligations.ResponseCodes : Prop :=
  (responseCode .ok = 0 ∧ responseCode .configFreq = 1 ∧ responseCode .configTiming = 2 ∧ responseCode .configRange = 3 ∧
    responseCode .sequenceError = 4 ∧ responseCode .illegalCommand = 5) ∧
  ∀ (s t : State) (w : CmdWord) (p : Payload) (rest : List HostEvent),
    s.input = .command w p :: rest → step s = .next t →
    let starts := fun P : Params => p = .params P ∧ ∃ i, decode w = .ok i ∧ isStart i = true ∧ wrongState s i = false
    ∃ c : RspCode, t.rspCodes = s.rspCodes ++ [c] ∧ c.toNat ≤ 5 ∧
      (c = 0 → t.err = s.err) ∧
      (c = 1 → t.err.getLsbD 0 = true ∧ ∃ P, starts P ∧ Quantity.eq P.freq0 P.freq1 = true) ∧
      (c = 2 → t.err.getLsbD 1 = true ∧ ∃ P, starts P ∧ Quantity.lt P.samplingRate P.baudRate = true) ∧
      (c = 3 → t.err.getLsbD 2 = true ∧ ∃ P, starts P ∧
        (Quantity.nonPos P.freq0 = true ∨ Quantity.nonPos P.freq1 = true ∨ Quantity.nonPos P.samplingRate = true ∨
          Quantity.nonPos P.baudRate = true)) ∧
      (c = 4 → t.err.getLsbD 3 = true) ∧ (c = 4 ↔ ∃ i, decode w = .ok i ∧ wrongState s i = true) ∧
      (c = 5 → t.err.getLsbD 4 = true) ∧ (c = 5 ↔ rowsSelected w = 0)

end
end

