-- ==== Sys2Proof/Laws/Rational.lean ====
section
/-! SUPPORT. Each rational operation of the model is the library's own. -/

namespace Sys2Proof.Machine

@[simp] theorem ratAdd_eq (a b : Rat) : ratAdd a b = a + b := by
  rw [ratAdd, Rat.add_def, Rat.normalize_eq_mkRat]

@[simp] theorem ratNeg_eq (a : Rat) : ratNeg a = -a := by
  rw [ratNeg, ← Rat.neg_mkRat, Rat.mkRat_self]

@[simp] theorem ratSub_eq (a b : Rat) : ratSub a b = a - b := by
  rw [ratSub, ratAdd_eq, ratNeg_eq, sub_eq_add_neg]

@[simp] theorem ratMul_eq (a b : Rat) : ratMul a b = a * b := by
  rw [ratMul, Rat.mul_def, Rat.normalize_eq_mkRat]

@[simp] theorem ratDiv_eq (a b : Rat) : ratDiv a b = a / b := by
  rw [ratDiv, Rat.div_def']

@[simp] theorem ratAbs_eq (a : Rat) : ratAbs a = |a| := by
  rw [ratAbs, Rat.abs_def, Rat.divInt_ofNat]

@[simp] theorem ratLt_iff (a b : Rat) : ratLt a b = true ↔ a < b := by
  simp [ratLt, Rat.lt_iff]

@[simp] theorem ratFloor_eq (a : Rat) : ratFloor a = ⌊a⌋ := by
  rw [ratFloor, Rat.floor_def']

/-- The order of two rational numbers is the library's. -/
theorem ratCompare_spec (a b : Rat) :
    (ratCompare a b = .lt ↔ a < b) ∧ (ratCompare a b = .eq ↔ a = b) ∧ (ratCompare a b = .gt ↔ b < a) := by
  unfold ratCompare
  rcases lt_trichotomy a b with h | rfl | h
  · simp [h, h.ne, h.not_gt]
  · simp
  · simp [h, h.ne', h.not_gt]

end Sys2Proof.Machine
end

