-- ==== Sys2Proof/Laws/TrigSum.lean ====
section
/-! SUPPORT. The exact arithmetic of Machine/TrigSum.lean is the arithmetic of the real numbers. -/

namespace Sys2Proof

open Machine Real

@[simp] theorem trigVal_nil : trigVal [] = 0 := rfl

@[simp] theorem trigVal_cons (t : Rat × Rat) (x : TrigSum) :
    trigVal (t :: x) = (t.2 : ℝ) * cos (2 * π * (t.1 : ℝ)) + trigVal x := rfl

theorem mkRat_one_one : mkRat 1 1 = 1 := by decide

/-- A whole number of turns does not change the cosine. -/
theorem cos_turns_sub_int (a : ℝ) (n : ℤ) : cos (2 * π * (a - n)) = cos (2 * π * a) := by
  rw [← Real.cos_sub_int_mul_two_pi (2 * π * a) n]; ring_nf

theorem turnHalf_spec (a : Rat) :
    cos (2 * π * (a : ℝ)) = cos (2 * π * (turnHalf a : ℝ)) ∧ 0 ≤ turnHalf a ∧ turnHalf a ≤ 1 / 2 := by
  have hh : mkRat 1 2 = 1 / 2 := by rw [Rat.mkRat_eq_div]; norm_num
  simp only [turnHalf, ratSub_eq, ratFloor_eq, ratLt_iff, hh, Rat.mkRat_eq_div, Nat.cast_one, Int.cast_one,
    div_one]
  have h0 := Int.floor_le a
  have h1 := Int.lt_floor_add_one a
  have hc : cos (2 * π * (a : ℝ)) = cos (2 * π * (a - ⌊a⌋)) := (cos_turns_sub_int _ _).symm
  split_ifs with h
  · refine ⟨?_, by linarith, by linarith⟩
    rw [hc, ← Real.cos_neg]
    have := cos_turns_sub_int (1 - ((a : ℝ) - ⌊a⌋)) 1
    push_cast at this ⊢
    rw [← this]; ring_nf
  · exact ⟨by rw [hc]; push_cast; rfl, by linarith, by linarith⟩

/-- Folding an angle into the first quadrant keeps the cosine up to the returned factor. -/
theorem turnFold_spec (a : Rat) :
    cos (2 * π * (a : ℝ)) = ((turnFold a).2 : ℝ) * cos (2 * π * ((turnFold a).1 : ℝ)) ∧
      0 ≤ (turnFold a).1 ∧ (turnFold a).1 < 1 / 4 := by
  obtain ⟨hc, h0, h1⟩ := turnHalf_spec a
  rw [hc]
  have hmk : ∀ (n : ℤ) (d : ℕ), mkRat n d = (n : ℚ) / d := fun n d => Rat.mkRat_eq_div n d
  simp only [turnFold, ratSub_eq, ratLt_iff, hmk, Nat.cast_one, Nat.cast_ofNat, Int.cast_one, Int.cast_neg, div_one]
  generalize turnHalf a = s at *
  split_ifs with h4 h6 h3 hl
  · refine ⟨?_, by norm_num, by norm_num⟩
    rw [h4, show (2 * π * ((1 / 4 : ℚ) : ℝ)) = π / 2 by push_cast; ring]; simp
  · refine ⟨?_, by norm_num, by norm_num⟩
    rw [h6, show (2 * π * ((1 / 6 : ℚ) : ℝ)) = π / 3 by push_cast; ring]; simp
  · refine ⟨?_, by norm_num, by norm_num⟩
    rw [h3, show (2 * π * ((1 / 3 : ℚ) : ℝ)) = π - π / 3 by push_cast; ring, Real.cos_pi_sub]; norm_num
  · refine ⟨?_, by dsimp; linarith, by dsimp; linarith⟩
    rw [show (2 * π * (((1 / 2 - s : ℚ)) : ℝ)) = π - 2 * π * s by push_cast; ring, Real.cos_pi_sub]; push_cast; ring
  · exact ⟨by simp, h0, lt_of_le_of_ne (not_lt.mp hl) h4⟩

@[simp] theorem trigInsert_val (a c : Rat) (x : TrigSum) :
    trigVal (trigInsert a c x) = (c : ℝ) * cos (2 * π * (a : ℝ)) + trigVal x := by
  induction x with
  | nil => unfold trigInsert; split <;> simp_all
  | cons t x ih =>
    obtain ⟨b, d⟩ := t
    unfold trigInsert
    simp only [ratAdd_eq, trigVal_cons]
    split_ifs with h1 h2 h3 h4
    · subst h1
      have : (c : ℝ) + d = 0 := by exact_mod_cast h2
      rw [← add_assoc, ← add_mul, this]; simp
    · subst h1; simp only [trigVal_cons]; push_cast; ring
    · subst h4; simp
    · simp
    · simp only [trigVal_cons, ih]; ring

@[simp] theorem trigAddCos_val (a c : Rat) (x : TrigSum) :
    trigVal (trigAddCos a c x) = (c : ℝ) * cos (2 * π * (a : ℝ)) + trigVal x := by
  rw [trigAddCos, trigInsert_val, ratMul_eq, (turnFold_spec a).1]; push_cast; ring

@[simp] theorem cosTurn_val (a : Rat) : trigVal (cosTurn a) = cos (2 * π * (a : ℝ)) := by
  simp [cosTurn, mkRat_one_one]

@[simp] theorem sinTurn_val (a : Rat) : trigVal (sinTurn a) = sin (2 * π * (a : ℝ)) := by
  rw [sinTurn, cosTurn_val, ratSub_eq, ← Real.cos_sub_pi_div_two]
  congr 1; rw [Rat.mkRat_eq_div]; push_cast; ring

@[simp] theorem trigAdd_val (x y : TrigSum) : trigVal (trigAdd x y) = trigVal x + trigVal y := by
  induction x with
  | nil => simp [trigAdd]
  | cons t x ih => rw [trigAdd, List.foldr_cons, trigInsert_val, ← trigAdd, ih, trigVal_cons]; ring

@[simp] theorem trigScale_val (q : Rat) (x : TrigSum) : trigVal (trigScale q x) = (q : ℝ) * trigVal x := by
  unfold trigScale
  split_ifs with h
  · simp [h]
  · induction x with
    | nil => simp
    | cons t x ih => rw [List.map_cons, trigVal_cons, ih, trigVal_cons, ratMul_eq]; push_cast; ring

theorem trigMulTerm_val (a c : Rat) (x z : TrigSum) :
    trigVal (trigMulTerm a c x z) = (c : ℝ) * cos (2 * π * (a : ℝ)) * trigVal x + trigVal z := by
  induction x with
  | nil => simp [trigMulTerm]
  | cons t x ih =>
    rw [trigMulTerm, List.foldr_cons, ← trigMulTerm]
    simp only [trigAddCos_val, ratMul_eq, ratAdd_eq, ratSub_eq, ih, trigVal_cons, Rat.mkRat_eq_div]
    push_cast
    rw [mul_add, mul_sub, Real.cos_add, Real.cos_sub]; ring

@[simp] theorem trigMul_val (x y : TrigSum) : trigVal (trigMul x y) = trigVal x * trigVal y := by
  induction x with
  | nil => simp [trigMul]
  | cons t x ih => rw [trigMul, List.foldr_cons, ← trigMul, trigMulTerm_val, ih, trigVal_cons]; ring

end Sys2Proof
end

