-- ==== Sys2Proof/Laws/Enclosure.lean ====
section
/-! SUPPORT. The enclosures of Machine/TrigSum.lean hold the number they are made of.  The only analysis is in `cosFix`:
Machin's series for the circle constant and the Taylor series of the cosine, each an alternating series. -/

namespace Sys2Proof

open Machine Real Finset

/-! ## The circle constant -/

theorem arctanInv_sum (k n : Nat) :
    ((arctanInv k n : Rat) : ℝ) = ∑ j ∈ range n, (-1) ^ j * ((k : ℝ)⁻¹ ^ (2 * j + 1) / (2 * j + 1)) := by
  induction n with
  | zero => simp [arctanInv]
  | succ n ih =>
    rw [arctanInv, ratAdd_eq, Rat.mkRat_eq_div, sum_range_succ, ← ih]
    push_cast
    rw [inv_pow, div_eq_mul_inv, mul_inv]; ring

/-- The partial sums of the series of `arctan (1/k)` are off by at most the next power. -/
theorem arctanInv_error (k n : Nat) (hk : 2 ≤ k) :
    |arctan (k : ℝ)⁻¹ - ((arctanInv k n : Rat) : ℝ)| ≤ (k : ℝ)⁻¹ ^ (2 * n + 1) := by
  have hk' : (2 : ℝ) ≤ k := by exact_mod_cast hk
  have h0 : (0 : ℝ) ≤ (k : ℝ)⁻¹ := by positivity
  have h1 : (k : ℝ)⁻¹ < 1 := inv_lt_one_of_one_lt₀ (by linarith)
  have hn : ‖(k : ℝ)⁻¹‖ < 1 := by rwa [Real.norm_of_nonneg h0]
  set f : ℕ → ℝ := fun j => (k : ℝ)⁻¹ ^ (2 * j + 1) / (2 * j + 1) with hf
  have hle : ∀ j, f j ≤ (k : ℝ)⁻¹ ^ (2 * j + 1) := fun j =>
    div_le_self (by positivity) (by have : (0 : ℝ) ≤ j := by positivity
                                    linarith)
  have hanti : Antitone f := by
    refine antitone_nat_of_succ_le fun j => ?_
    simp only [hf]
    gcongr ?_ / ?_
    · exact pow_le_pow_of_le_one h0 h1.le (by omega)
    · push_cast; linarith
  have hsum : Summable f := by
    refine Summable.of_nonneg_of_le (fun j => by positivity) hle ?_
    have : Summable fun j : ℕ => (k : ℝ)⁻¹ ^ j := summable_geometric_of_lt_one h0 h1
    exact this.comp_injective (i := fun j => 2 * j + 1) fun a b h => by simpa using h
  have hs : arctan (k : ℝ)⁻¹ = ∑' j, (-1) ^ j * f j := by
    rw [← (Real.hasSum_arctan hn).tsum_eq]
    congr 1; ext j; simp only [hf]; push_cast; ring
  rw [hs, arctanInv_sum]
  exact (alternating_series_error_bound f hanti hsum n).trans (hle n)

/-- `piFix p` is `2^p * π` with an error of at most 9/8, from below up to 1/8. -/
theorem piFix_error (p : Nat) : |π - (piFix p : ℝ) / 2 ^ p| ≤ 9 / 8 / 2 ^ p ∧ 0 ≤ piFix p := by
  set n := p / 4 + 2 with hn
  set r : ℚ := 16 * arctanInv 5 n - 4 * arctanInv 239 n with hr
  have hpi : piFix p = ⌊(2 : ℚ) ^ p * r⌋ := by
    simp only [piFix, ratFloor_eq, ratMul_eq, ratSub_eq, Rat.mkRat_eq_div, ← hn, hr]
    norm_num
  have h5 := arctanInv_error 5 n (by norm_num)
  have h239 := arctanInv_error 239 n (by norm_num)
  have hm := four_mul_arctan_inv_5_sub_arctan_inv_239
  have hpow : (20 : ℝ) * (5 : ℝ)⁻¹ ^ (2 * n + 1) ≤ 1 / 8 / 2 ^ p := by
    have hp : (2 : ℝ) ^ p ≤ 2 ^ (4 * n - 5) := pow_le_pow_right₀ (by norm_num) (by omega)
    have h16 : (2 : ℝ) ^ (4 * n - 5) * 32 = 16 ^ n := by
      rw [show (32 : ℝ) = 2 ^ 5 by norm_num, ← pow_add, show 4 * n - 5 + 5 = 4 * n by omega, pow_mul]; norm_num
    have h25 : (16 : ℝ) ^ n ≤ 25 ^ n := by gcongr; norm_num
    have e : (20 : ℝ) * (5 : ℝ)⁻¹ ^ (2 * n + 1) = 4 / 25 ^ n := by
      rw [pow_succ, pow_mul, inv_pow, inv_pow]; norm_num; ring
    rw [e, div_le_div_iff₀ (by positivity) (by positivity)]
    have : (0 : ℝ) < 2 ^ p := by positivity
    rw [div_mul_eq_mul_div, le_div_iff₀ (by norm_num)]
    nlinarith
  have h239' : (239 : ℝ)⁻¹ ^ (2 * n + 1) ≤ (5 : ℝ)⁻¹ ^ (2 * n + 1) := by gcongr; norm_num
  have hrr : |π - (r : ℝ)| ≤ 1 / 8 / 2 ^ p := by
    refine le_trans ?_ hpow
    have e : π - (r : ℝ) = 16 * (arctan (5 : ℝ)⁻¹ - (arctanInv 5 n : ℚ)) - 4 * (arctan (239 : ℝ)⁻¹ - (arctanInv 239 n : ℚ)) := by
      rw [hr]; push_cast; linarith
    push_cast at h5 h239
    rw [e]
    rw [abs_le] at h5 h239 ⊢
    constructor <;> linarith [h5.1, h5.2, h239.1, h239.2]
  have hf1 : ((piFix p : ℤ) : ℝ) ≤ 2 ^ p * (r : ℝ) := by
    rw [hpi]; exact_mod_cast Int.floor_le ((2 : ℚ) ^ p * r)
  have hf2 : 2 ^ p * (r : ℝ) < (piFix p : ℝ) + 1 := by
    rw [hpi]; exact_mod_cast Int.lt_floor_add_one ((2 : ℚ) ^ p * r)
  have h2 : (0 : ℝ) < 2 ^ p := by positivity
  have h2' : (1 : ℝ) ≤ 2 ^ p := one_le_pow₀ (by norm_num)
  rw [abs_le] at hrr
  constructor
  · rw [abs_le]
    have a1 : (piFix p : ℝ) / 2 ^ p ≤ r := by rw [div_le_iff₀ h2]; linarith
    have a2 : (r : ℝ) ≤ (piFix p : ℝ) / 2 ^ p + 1 / 2 ^ p := by
      rw [← add_div, le_div_iff₀ h2]; linarith
    have e : (9 : ℝ) / 8 / 2 ^ p = 1 / 2 ^ p + 1 / 8 / 2 ^ p := by ring
    have : (0 : ℝ) < 1 / 2 ^ p := by positivity
    constructor <;> linarith [hrr.1, hrr.2]
  · rw [hpi]
    apply Int.floor_nonneg.mpr
    have : (0 : ℝ) ≤ r := by
      have : (1 : ℝ) / 8 / 2 ^ p ≤ 1 / 8 := div_le_self (by norm_num) h2'
      linarith [hrr.1, hrr.2, Real.pi_gt_three]
    have : (0 : ℚ) ≤ r := by exact_mod_cast this
    positivity

/-! ## The cosine -/

theorem cosPoly_sum (y : Rat) (n k : Nat) :
    ((cosPoly y n k : Rat) : ℝ) =
      ∑ j ∈ range (n + 1), (-1) ^ j * ((y : ℝ) ^ j * ((2 * k).factorial / (2 * (k + j)).factorial)) := by
  induction n generalizing k with
  | zero =>
    have : ((2 * k).factorial : ℝ) ≠ 0 := by positivity
    simp [cosPoly, mkRat_one_one, this]
  | succ n ih =>
    rw [cosPoly, sum_range_succ']
    have h1 : ((2 * k).factorial : ℝ) ≠ 0 := by positivity
    simp only [ratSub_eq, ratMul_eq, ratDiv_eq, Rat.mkRat_eq_div]
    push_cast
    rw [ih (k + 1), mul_sum, sub_eq_add_neg, ← sum_neg_distrib, add_comm (1 / 1 : ℝ)]
    congr 1
    · refine sum_congr rfl fun j _ => ?_
      have hk : ((2 * (k + 1)).factorial : ℝ) = (2 * k + 1) * (2 * k + 2) * (2 * k).factorial := by
        rw [show 2 * (k + 1) = 2 * k + 1 + 1 by ring, Nat.factorial_succ, Nat.factorial_succ]; push_cast; ring
      have hx : (2 * (k : ℝ) + 1) * (2 * k + 2) ≠ 0 := by positivity
      have hd : ((2 * (k + (j + 1))).factorial : ℝ) ≠ 0 := by positivity
      rw [hk, show k + 1 + j = k + (j + 1) by ring]
      field_simp
      ring
    · simp [h1]

/-- The Taylor polynomial of the cosine on `[0, 2]` is off by at most the next term. -/
theorem cosPoly_error (t : Rat) (h0 : 0 ≤ t) (h2 : t ≤ 2) (n : Nat) :
    |Real.cos t - ((cosPoly (t * t) (n + 1) 0 : Rat) : ℝ)| ≤ 4 ^ (n + 2) / (2 * (n + 2)).factorial := by
  have h0' : (0 : ℝ) ≤ t := by exact_mod_cast h0
  have h2' : (t : ℝ) ≤ 2 := by exact_mod_cast h2
  have hsq : (t : ℝ) ^ 2 ≤ 4 := by nlinarith
  set f : ℕ → ℝ := fun j => ((t : ℝ) ^ 2) ^ (j + 1) / (2 * (j + 1)).factorial with hf
  have hanti : Antitone f := by
    refine antitone_nat_of_succ_le fun j => ?_
    simp only [hf]
    have e : ((2 * (j + 1 + 1)).factorial : ℝ) = (2 * j + 4) * (2 * j + 3) * (2 * (j + 1)).factorial := by
      rw [show 2 * (j + 1 + 1) = 2 * (j + 1) + 1 + 1 by ring, Nat.factorial_succ, Nat.factorial_succ]; push_cast; ring
    have hb : (1 : ℝ) * 4 ≤ (2 * j + 4) * (2 * j + 3) := by have : (0 : ℝ) ≤ j := by positivity
                                                            nlinarith
    rw [div_le_div_iff₀ (by positivity) (by positivity), e, pow_succ _ (j + 1)]
    have : ((t : ℝ) ^ 2) ^ (j + 1) * ((2 * (j + 1)).factorial) * (t : ℝ) ^ 2 ≤
        ((t : ℝ) ^ 2) ^ (j + 1) * ((2 * (j + 1)).factorial) * ((2 * j + 4) * (2 * j + 3)) := by
      gcongr; linarith
    linarith
  have hcos := Real.hasSum_cos (t : ℝ)
  have hshift : HasSum (fun j => (-1) ^ j * f j) (1 - Real.cos t) := by
    have h := (hasSum_nat_add_iff' 1).mpr hcos
    simp only [range_one, sum_singleton, pow_zero, mul_zero, Nat.factorial_zero, Nat.cast_one, div_one, mul_one] at h
    have h' := h.neg
    rw [neg_sub] at h'
    have e : (fun b : ℕ => -((-1) ^ (b + 1) * (t : ℝ) ^ (2 * (b + 1)) / (2 * (b + 1)).factorial)) =
        fun j => (-1) ^ j * f j := by
      funext j; simp only [hf]; rw [← pow_mul, pow_succ (-1 : ℝ)]; ring
    rwa [e] at h'
  have hsum : Summable f := by
    have := hshift.summable.abs
    refine this.congr fun j => ?_
    rw [abs_mul, abs_pow, abs_neg, abs_one, one_pow, one_mul, abs_of_nonneg]
    simp only [hf]; positivity
  have herr := alternating_series_error_bound f hanti hsum (n + 1)
  rw [hshift.tsum_eq] at herr
  have hp : ((cosPoly (t * t) (n + 1) 0 : Rat) : ℝ) = 1 - ∑ j ∈ range (n + 1), (-1) ^ j * f j := by
    rw [cosPoly_sum, sum_range_succ', sub_eq_add_neg, ← sum_neg_distrib, add_comm]
    congr 1
    · simp
    · refine sum_congr rfl fun j _ => ?_
      simp only [hf]; push_cast; simp only [Nat.factorial_zero, zero_add]; rw [pow_succ (-1 : ℝ)]; push_cast; ring
  rw [hp, show Real.cos t - (1 - ∑ j ∈ range (n + 1), (-1) ^ j * f j) =
    -((1 - Real.cos t) - ∑ j ∈ range (n + 1), (-1) ^ j * f j) by ring, abs_neg]
  refine herr.trans ?_
  simp only [hf]
  gcongr

theorem factorial_beats_powers (q : ℕ) : (4 : ℝ) ^ (q + 7) * (16 ^ q * 64) ≤ (2 * (q + 7)).factorial := by
  induction q with
  | zero => norm_num [Nat.factorial]
  | succ q ih =>
    have e : ((2 * (q + 1 + 7)).factorial : ℝ) = (2 * q + 16) * (2 * q + 15) * (2 * (q + 7)).factorial := by
      rw [show 2 * (q + 1 + 7) = 2 * (q + 7) + 1 + 1 by ring, Nat.factorial_succ, Nat.factorial_succ]; push_cast; ring
    rw [e, show q + 1 + 7 = q + 7 + 1 by ring, pow_succ, pow_succ]
    have hb : (64 : ℝ) ≤ (2 * q + 16) * (2 * q + 15) := by
      have : (0 : ℝ) ≤ q := by positivity
      nlinarith
    calc (4 : ℝ) ^ (q + 7) * 4 * (16 ^ q * 16 * 64) = 64 * (4 ^ (q + 7) * (16 ^ q * 64)) := by ring
      _ ≤ 64 * (2 * (q + 7)).factorial := mul_le_mul_of_nonneg_left ih (by norm_num)
      _ ≤ (2 * q + 16) * (2 * q + 15) * (2 * (q + 7)).factorial := mul_le_mul_of_nonneg_right hb (by positivity)

/-- The number of levels `cosFix` takes leaves an error below a quarter of a unit in the last place. -/
theorem cos_levels (p : Nat) : (4 : ℝ) ^ (p / 4 + 7) / (2 * (p / 4 + 7)).factorial ≤ 1 / 4 / 2 ^ p := by
  have key := factorial_beats_powers (p / 4)
  have hp : (2 : ℝ) ^ p ≤ 16 ^ (p / 4) * 16 := by
    rw [← pow_succ, show (16 : ℝ) = 2 ^ 4 by norm_num, ← pow_mul]
    exact pow_le_pow_right₀ (by norm_num) (by omega)
  generalize p / 4 = q at *
  generalize ((2 * (q + 7)).factorial : ℝ) = F at *
  have h2 : (0 : ℝ) < 2 ^ p := by positivity
  have h4 : (0 : ℝ) < 4 ^ (q + 7) := by positivity
  generalize (2 : ℝ) ^ p = P at *
  generalize (4 : ℝ) ^ (q + 7) = A at *
  have h16 : (0 : ℝ) < 16 ^ q := by positivity
  generalize (16 : ℝ) ^ q = B at *
  have hF : 0 < F := lt_of_lt_of_le (by positivity) key
  rw [div_div, div_le_div_iff₀ hF (by positivity)]
  nlinarith

theorem floor_div_error (x : ℚ) (p : Nat) :
    (⌊(2 : ℚ) ^ p * x⌋ : ℝ) / 2 ^ p ≤ x ∧ (x : ℝ) ≤ (⌊(2 : ℚ) ^ p * x⌋ : ℝ) / 2 ^ p + 1 / 2 ^ p := by
  have h2 : (0 : ℝ) < 2 ^ p := by positivity
  have hf1 : ((⌊(2 : ℚ) ^ p * x⌋ : ℤ) : ℝ) ≤ 2 ^ p * (x : ℝ) := by exact_mod_cast Int.floor_le ((2 : ℚ) ^ p * x)
  have hf2 : 2 ^ p * (x : ℝ) < (⌊(2 : ℚ) ^ p * x⌋ : ℝ) + 1 := by exact_mod_cast Int.lt_floor_add_one ((2 : ℚ) ^ p * x)
  exact ⟨by rw [div_le_iff₀ h2]; linarith, by rw [← add_div, le_div_iff₀ h2]; linarith⟩

theorem piFix_zero_le : piFix 0 ≤ 4 := by decide +kernel

theorem piFix_le_four (p : Nat) : (piFix p : ℝ) / 2 ^ p ≤ 4 := by
  by_cases hp : p = 0
  · subst hp; rw [pow_zero, div_one]; exact_mod_cast piFix_zero_le
  · have hq : (1 : ℝ) / 2 ^ p ≤ 1 / 2 := by
      have : (2 : ℝ) ^ 1 ≤ 2 ^ p := pow_le_pow_right₀ (by norm_num) (by omega)
      rw [pow_one] at this
      exact one_div_le_one_div_of_le (by norm_num) this
    have h := (abs_le.mp (piFix_error p).1).1
    rw [show (9 : ℝ) / 8 / 2 ^ p = 9 / 8 * (1 / 2 ^ p) by ring] at h
    linarith [Real.pi_lt_d2]

/-- The arithmetic of `angle_error`: `m` is `2 a P` rounded down to a multiple of the unit `u`. -/
theorem angle_arith {a m P u c : ℝ} (ha0 : 0 ≤ a) (ha1 : 4 * a ≤ 1) (hu : 0 < u) (hP : |c - P| ≤ 9 / 8 * u)
    (hP4 : P ≤ 4) (h1 : m ≤ 2 * a * P) (h2 : 2 * a * P ≤ m + u) : |2 * c * a - m| ≤ 2 * u ∧ m ≤ 2 := by
  rw [abs_le] at hP
  have b1 : 2 * a * (c - P) ≤ 9 / 16 * u := by nlinarith [hP.2]
  have b2 : -(9 / 16 * u) ≤ 2 * a * (c - P) := by nlinarith [hP.1]
  refine ⟨abs_le.mpr ⟨by linarith, by linarith⟩, by nlinarith⟩

/-- The angle `cosFix` evaluates the polynomial at: `2π a` with an error of at most two units in the last place. -/
theorem angle_error (p : Nat) (a : Rat) (h0 : 0 ≤ a) (h1 : a ≤ 1 / 4) :
    |2 * π * a - ((⌊2 * a * (piFix p : ℚ)⌋ / 2 ^ p : ℚ) : ℝ)| ≤ 2 * (1 / 2 ^ p) ∧
      0 ≤ (⌊2 * a * (piFix p : ℚ)⌋ / 2 ^ p : ℚ) ∧ (⌊2 * a * (piFix p : ℚ)⌋ / 2 ^ p : ℚ) ≤ 2 := by
  have h2 : (0 : ℝ) < 2 ^ p := by positivity
  have ha0 : (0 : ℝ) ≤ a := by exact_mod_cast h0
  have ha1 : 4 * (a : ℝ) ≤ 1 := by exact_mod_cast (show 4 * a ≤ 1 by linarith)
  have hm0 : 0 ≤ ⌊2 * a * (piFix p : ℚ)⌋ := Int.floor_nonneg.mpr (by
    have : (0 : ℚ) ≤ piFix p := by exact_mod_cast (piFix_error p).2
    exact mul_nonneg (mul_nonneg (by norm_num) h0) this)
  have hml : (⌊2 * a * (piFix p : ℚ)⌋ : ℝ) ≤ 2 * a * (piFix p : ℝ) := by
    exact_mod_cast Int.floor_le (2 * a * (piFix p : ℚ))
  have hmu : 2 * a * (piFix p : ℝ) < ⌊2 * a * (piFix p : ℚ)⌋ + 1 := by
    exact_mod_cast Int.lt_floor_add_one (2 * a * (piFix p : ℚ))
  generalize ⌊2 * a * (piFix p : ℚ)⌋ = m at *
  have ht1 : (m : ℝ) / 2 ^ p ≤ 2 * a * ((piFix p : ℝ) / 2 ^ p) := by
    rw [← mul_div_assoc, div_le_div_iff_of_pos_right h2]; exact hml
  have ht2 : 2 * a * ((piFix p : ℝ) / 2 ^ p) ≤ (m : ℝ) / 2 ^ p + 1 / 2 ^ p := by
    rw [← mul_div_assoc, ← add_div, div_le_div_iff_of_pos_right h2]; exact hmu.le
  have hP := (piFix_error p).1
  rw [show (9 : ℝ) / 8 / 2 ^ p = 9 / 8 * (1 / 2 ^ p) by ring] at hP
  obtain ⟨r1, r2⟩ := angle_arith ha0 ha1 (by positivity) hP (piFix_le_four p) ht1 ht2
  have hcast : ((m / 2 ^ p : ℚ) : ℝ) = (m : ℝ) / 2 ^ p := by push_cast; rfl
  have hmq : (0 : ℚ) ≤ m := by exact_mod_cast hm0
  refine ⟨by rw [hcast]; exact r1, by positivity, ?_⟩
  rw [← hcast] at r2
  exact_mod_cast r2

/-- `cosFix p a` is `2^p * cos (2π a)` with an error of at most 4. -/
theorem cosFix_error (p : Nat) (a : Rat) (h0 : 0 ≤ a) (h1 : a ≤ 1 / 4) :
    |Real.cos (2 * π * a) - (cosFix p a : ℝ) / 2 ^ p| ≤ 4 / 2 ^ p := by
  obtain ⟨htd, ht0, ht2⟩ := angle_error p a h0 h1
  have hdef : cosFix p a = ⌊(2 : ℚ) ^ p * cosPoly ((⌊2 * a * (piFix p : ℚ)⌋ / 2 ^ p : ℚ) *
      (⌊2 * a * (piFix p : ℚ)⌋ / 2 ^ p : ℚ)) (p / 4 + 6) 0⌋ := by
    simp only [cosFix, ratFloor_eq, ratMul_eq, Rat.mkRat_eq_div]
    norm_num
  rw [hdef]
  generalize (⌊2 * a * (piFix p : ℚ)⌋ / 2 ^ p : ℚ) = t at *
  have hlip := (Real.abs_cos_sub_cos_le (2 * π * a) t).trans htd
  have hpoly := (cosPoly_error t ht0 ht2 (p / 4 + 5)).trans (cos_levels p)
  obtain ⟨hf3, hf4⟩ := floor_div_error (cosPoly (t * t) (p / 4 + 6) 0) p
  have hu : (0 : ℝ) < 1 / 2 ^ p := by positivity
  rw [show (1 : ℝ) / 4 / 2 ^ p = 1 / 4 * (1 / 2 ^ p) by ring] at hpoly
  rw [show (4 : ℝ) / 2 ^ p = 4 * (1 / 2 ^ p) by ring]
  generalize (⌊(2 : ℚ) ^ p * cosPoly (t * t) (p / 4 + 6) 0⌋ : ℝ) / 2 ^ p = F at *
  generalize (1 : ℝ) / 2 ^ p = u at *
  rw [abs_le] at hlip hpoly ⊢
  constructor <;> linarith [hlip.1, hlip.2, hpoly.1, hpoly.2]

/-! ## Balls -/

/-- The ball holds the real number `v`. -/
def Machine.Ball.Holds (b : Ball) (v : ℝ) : Prop := |v - (b.mid : ℝ)| ≤ (b.rad : ℝ)

theorem ballAdd_holds {a b : Ball} {u v : ℝ} (ha : a.Holds u) (hb : b.Holds v) : (ballAdd a b).Holds (u + v) := by
  simp only [Ball.Holds, ballAdd, ratAdd_eq] at *
  push_cast
  rw [show u + v - ((a.mid : ℝ) + b.mid) = (u - a.mid) + (v - b.mid) by ring]
  exact (abs_add_le _ _).trans (add_le_add ha hb)

theorem ballMul_holds {a b : Ball} {u v : ℝ} (ha : a.Holds u) (hb : b.Holds v) : (ballMul a b).Holds (u * v) := by
  simp only [Ball.Holds, ballMul, ratAdd_eq, ratMul_eq, ratAbs_eq] at *
  push_cast
  rw [show u * v - (a.mid : ℝ) * b.mid = (u - a.mid) * (v - b.mid) + (a.mid * (v - b.mid) + b.mid * (u - a.mid)) by ring]
  have ra : 0 ≤ (a.rad : ℝ) := (abs_nonneg _).trans ha
  refine (abs_add_le _ _).trans (add_le_add ?_ ((abs_add_le _ _).trans (add_le_add ?_ ?_)))
  · rw [abs_mul]; gcongr
  · rw [abs_mul]; gcongr
  · rw [abs_mul]; gcongr

theorem ballTerm_holds (p : Nat) (a c : Rat) : (ballTerm p a c).Holds ((c : ℝ) * Real.cos (2 * π * a)) := by
  obtain ⟨hf, h0, h1⟩ := turnFold_spec a
  rw [hf]
  simp only [ballTerm, ratMul_eq, ratAbs_eq, Rat.mkRat_eq_div]
  generalize (turnFold a).1 = b at *
  generalize (turnFold a).2 = f at *
  split_ifs with hb
  · subst hb; simp [Ball.Holds]
  · have he := cosFix_error p b h0 h1.le
    simp only [Ball.Holds]
    push_cast
    rw [show (c : ℝ) * (f * Real.cos (2 * π * b)) - c * f * ((cosFix p b : ℝ) / 2 ^ p) =
      (c * f) * (Real.cos (2 * π * b) - (cosFix p b : ℝ) / 2 ^ p) by ring, abs_mul]
    gcongr

/-- The enclosure of a sum holds the number the sum stands for. -/
theorem trigBall_holds (p : Nat) (x : TrigSum) : (trigBall p x).Holds (trigVal x) := by
  induction x with
  | nil => simp [trigBall, Ball.Holds]
  | cons t x ih => exact ballAdd_holds (ballTerm_holds p t.1 t.2) ih

/-- A sign that an enclosure shows is the sign of the number it holds. -/
theorem ballSign_spec {b : Ball} {v : ℝ} (h : b.Holds v) {o : Ordering} (ho : ballSign b = some o) :
    (o = .gt ∧ 0 < v) ∨ (o = .lt ∧ v < 0) := by
  unfold ballSign at ho
  simp only [ratLt_iff, ratNeg_eq] at ho
  simp only [Ball.Holds, abs_le] at h
  split_ifs at ho with h1 h2
  · have : (b.rad : ℝ) < b.mid := by exact_mod_cast h1
    exact .inl ⟨by simpa using ho.symm, by linarith [h.1]⟩
  · have : (b.mid : ℝ) < -b.rad := by exact_mod_cast h2
    exact .inr ⟨by simpa using ho.symm, by linarith [h.2]⟩

/-- An enclosure that shows no sign holds a number of at most twice its radius. -/
theorem ballSign_none {b : Ball} {v : ℝ} (h : b.Holds v) (ho : ballSign b = none) : |v| ≤ 2 * (b.rad : ℝ) := by
  unfold ballSign at ho
  simp only [ratLt_iff, ratNeg_eq] at ho
  simp only [Ball.Holds, abs_le] at h
  split_ifs at ho with h1 h2
  have h1' : (b.mid : ℝ) ≤ b.rad := by exact_mod_cast not_lt.mp h1
  have h2' : -(b.rad : ℝ) ≤ b.mid := by exact_mod_cast not_lt.mp h2
  rw [abs_le]
  constructor <;> linarith [h.1, h.2]

end Sys2Proof
end

