-- ==== Sys2Proof/Laws/ExactSign.lean ====
section
/-! SUPPORT. `trigSign` is the sign of the real number, exactly: at the precision `trigBits` a number of this form that
shows no sign is 0, since the norm of an algebraic integer other than 0 is an integer other than 0. -/

namespace Sys2Proof

open Machine Polynomial Complex

/-! ## How small an algebraic integer can be -/

/-- An integer polynomial that does not vanish at a primitive `N`-th root of unity, and is at most `B` in size at every
`N`-th root of unity, is not small there. -/
theorem root_of_unity_separation_in (K : Type) [Field K] [Algebra ℚ K] {N : ℕ} [NeZero N]
    [IsCyclotomicExtension {N} ℚ K] {ζ : ℂ} (hζ : IsPrimitiveRoot ζ N) (P : ℤ[X]) {B : ℝ} (hB : 1 ≤ B)
    (hP : ∀ η : ℂ, η ^ N = 1 → ‖aeval η P‖ ≤ B) (h0 : aeval ζ P ≠ 0) : 1 ≤ ‖aeval ζ P‖ * B ^ N := by
  classical
  have : FiniteDimensional ℚ K := IsCyclotomicExtension.finiteDimensional {N} ℚ K
  have hz : IsPrimitiveRoot (IsCyclotomicExtension.zeta N ℚ K) N := IsCyclotomicExtension.zeta_spec N ℚ K
  have hirr : Irreducible (cyclotomic N ℚ) := cyclotomic.irreducible_rat (NeZero.pos N)
  let x : K := aeval (IsCyclotomicExtension.zeta N ℚ K) P
  have hmap : ∀ σ : K →ₐ[ℚ] ℂ, σ x = aeval (σ (IsCyclotomicExtension.zeta N ℚ K)) P := fun σ => by
    change (σ.restrictScalars ℤ) x = _
    rw [← aeval_algHom_apply]; rfl
  obtain ⟨σ₀, hσ₀⟩ : ∃ σ₀ : K →ₐ[ℚ] ℂ, σ₀ (IsCyclotomicExtension.zeta N ℚ K) = ζ := by
    let e := hz.embeddingsEquivPrimitiveRoots ℂ hirr
    refine ⟨e.symm ⟨ζ, (mem_primitiveRoots (NeZero.pos N)).mpr hζ⟩, ?_⟩
    rw [← hz.embeddingsEquivPrimitiveRoots_apply_coe ℂ hirr, Equiv.apply_symm_apply]
  have hx0 : x ≠ 0 := fun h => h0 (by rw [← hσ₀, ← hmap, h, map_zero])
  have hint : IsIntegral ℤ x := by
    refine IsIntegral.of_mem_of_fg (Algebra.adjoin ℤ {IsCyclotomicExtension.zeta N ℚ K}) ?_ x ?_
    · exact (hz.isIntegral (NeZero.pos N)).fg_adjoin_singleton
    · exact aeval_mem_adjoin_singleton _ _
  have hnorm : (1 : ℝ) ≤ ‖algebraMap ℚ ℂ (Algebra.norm ℚ x)‖ := by
    obtain ⟨m, hm⟩ := (IsIntegrallyClosed.isIntegral_iff (R := ℤ) (K := ℚ)).mp (Algebra.isIntegral_norm ℚ hint)
    have hm0 : m ≠ 0 := fun h => by
      have : Algebra.norm ℚ x ≠ 0 := Algebra.norm_ne_zero_iff.mpr hx0
      exact this (by rw [← hm, h, map_zero])
    rw [← hm]
    have : (1 : ℝ) ≤ |(m : ℝ)| := by exact_mod_cast Int.one_le_abs hm0
    simpa using this
  rw [Algebra.norm_eq_prod_embeddings ℚ ℂ x, norm_prod] at hnorm
  have hall : ∀ σ : K →ₐ[ℚ] ℂ, ‖σ x‖ ≤ B := fun σ => by
    rw [hmap]; exact hP _ (by rw [← map_pow, hz.pow_eq_one, map_one])
  have hcard : Fintype.card (K →ₐ[ℚ] ℂ) ≤ N := by
    rw [AlgHom.card, IsCyclotomicExtension.finrank K hirr]
    exact Nat.totient_le N
  rw [← Finset.mul_prod_erase _ _ (Finset.mem_univ σ₀)] at hnorm
  refine hnorm.trans ?_
  rw [hmap σ₀, hσ₀]
  refine mul_le_mul_of_nonneg_left ?_ (norm_nonneg _)
  calc ∏ σ ∈ Finset.univ.erase σ₀, ‖σ x‖ ≤ ∏ _σ ∈ Finset.univ.erase σ₀, B :=
        Finset.prod_le_prod (fun _ _ => norm_nonneg _) fun σ _ => hall σ
    _ = B ^ (Finset.univ.erase σ₀).card := by rw [Finset.prod_const]
    _ ≤ B ^ N := pow_le_pow_right₀ hB ((Finset.card_le_card (Finset.erase_subset _ _)).trans hcard)

theorem root_of_unity_separation {N : ℕ} [NeZero N] {ζ : ℂ} (hζ : IsPrimitiveRoot ζ N) (P : ℤ[X]) {B : ℝ} (hB : 1 ≤ B)
    (hP : ∀ η : ℂ, η ^ N = 1 → ‖aeval η P‖ ≤ B) (h0 : aeval ζ P ≠ 0) : 1 ≤ ‖aeval ζ P‖ * B ^ N := by
  have : NeZero ((N : ℕ) : ℚ) := ⟨by exact_mod_cast NeZero.ne N⟩
  exact @root_of_unity_separation_in (CyclotomicField N ℚ) _ (CyclotomicField.algebra N ℚ) N _
    (CyclotomicField.isCyclotomicExtension N ℚ) ζ hζ P B hB hP h0

/-! ## A sum of cosines as a polynomial in a root of unity -/

/-- The exponent of the root of unity that stands for an angle of `k / N` turns. -/
def turnExp (N : ℕ) (k : ℤ) : ℕ := (k % N).toNat

theorem root_pow_turnExp {N : ℕ} [NeZero N] (k : ℤ) :
    (exp (2 * Real.pi * I / N)) ^ turnExp N k = exp (2 * Real.pi * I * (k / N)) := by
  have hN : (N : ℂ) ≠ 0 := by exact_mod_cast NeZero.ne N
  have hNz : (N : ℤ) ≠ 0 := by exact_mod_cast NeZero.ne N
  have h : (k : ℂ) = turnExp N k + N * ((k / N : ℤ) : ℂ) := by
    have h1 := Int.emod_add_mul_ediv k N
    have h2 : ((turnExp N k : ℕ) : ℤ) = k % N := Int.toNat_of_nonneg (Int.emod_nonneg k hNz)
    rw [← h2] at h1
    exact_mod_cast h1.symm
  rw [← exp_nat_mul, h]
  have e : 2 * Real.pi * I * ((turnExp N k + N * ((k / N : ℤ) : ℂ)) / N) =
      turnExp N k * (2 * Real.pi * I / N) + ((k / N : ℤ) : ℂ) * (2 * Real.pi * I) := by
    field_simp
  rw [e, exp_add, exp_int_mul_two_pi_mul_I, mul_one]

/-- The polynomial over the integers whose value at the `N`-th root of unity is `2 D` times the sum. -/
noncomputable def turnPoly (N D : ℕ) : TrigSum → ℤ[X]
  | [] => 0
  | (a, c) :: x => C (c * D).num * (X ^ turnExp N (a * N).num + X ^ turnExp N (-(a * N).num)) + turnPoly N D x

theorem num_of_den_dvd {q : ℚ} {n : ℕ} (h : q.den ∣ n) : ((q * n).num : ℚ) = q * n := by
  obtain ⟨k, rfl⟩ := h
  have : q * ((q.den * k : ℕ) : ℚ) = ((q.num * k : ℤ) : ℚ) := by
    push_cast; rw [← mul_assoc, Rat.mul_den_eq_num]
  rw [this, Rat.num_intCast]

theorem turnPoly_eval {N : ℕ} [NeZero N] (D : ℕ) (x : TrigSum) (hN : ∀ t ∈ x, t.1.den ∣ N) (hD : ∀ t ∈ x, t.2.den ∣ D) :
    aeval (exp (2 * Real.pi * I / N)) (turnPoly N D x) = ((2 * D * trigVal x : ℝ) : ℂ) := by
  induction x with
  | nil => simp [turnPoly]
  | cons t x ih =>
    obtain ⟨a, c⟩ := t
    have ih := ih (fun t ht => hN t (List.mem_cons_of_mem _ ht)) fun t ht => hD t (List.mem_cons_of_mem _ ht)
    have hNc : (N : ℂ) ≠ 0 := by exact_mod_cast NeZero.ne N
    have ha := num_of_den_dvd (hN (a, c) List.mem_cons_self)
    have hc := num_of_den_dvd (hD (a, c) List.mem_cons_self)
    have ha' : (((a * N).num : ℤ) : ℂ) / N = (a : ℂ) := by
      have : (((a * N).num : ℤ) : ℂ) = (a : ℂ) * N := by exact_mod_cast congrArg (Rat.cast : ℚ → ℂ) ha
      rw [this]; field_simp
    have hc' : (((c * D).num : ℤ) : ℂ) = (c : ℂ) * D := by exact_mod_cast congrArg (Rat.cast : ℚ → ℂ) hc
    simp only [turnPoly, map_add, map_mul, map_pow, aeval_X, aeval_C, root_pow_turnExp, ih, trigVal_cons]
    push_cast
    rw [neg_div, ha', eq_intCast, hc', mul_neg]
    have hcos : exp (2 * Real.pi * I * (a : ℂ)) + exp (-(2 * Real.pi * I * (a : ℂ))) =
        2 * Complex.cos (2 * Real.pi * (a : ℂ)) := by
      rw [Complex.two_cos]; ring_nf
    rw [hcos]; ring

theorem turnPoly_bound {N D : ℕ} (x : TrigSum) (hD : ∀ t ∈ x, t.2.den ∣ D) (η : ℂ) (hη : ‖η‖ = 1) :
    ‖aeval η (turnPoly N D x)‖ ≤ 2 * D * trigWeight x := by
  induction x with
  | nil => simp [turnPoly, trigWeight]
  | cons t x ih =>
    obtain ⟨a, c⟩ := t
    have ih := ih fun t ht => hD t (List.mem_cons_of_mem _ ht)
    have hc := num_of_den_dvd (hD (a, c) List.mem_cons_self)
    have hw : trigWeight ((a, c) :: x) = c.num.natAbs + trigWeight x := rfl
    have hcn : ‖(((c * D).num : ℤ) : ℂ)‖ ≤ D * c.num.natAbs := by
      have h1 : (((c * D).num : ℤ) : ℝ) = (c : ℝ) * D := by exact_mod_cast congrArg (Rat.cast : ℚ → ℝ) hc
      rw [← Complex.ofReal_intCast, Complex.norm_real, h1, Real.norm_eq_abs, abs_mul, Nat.abs_cast, mul_comm]
      refine mul_le_mul_of_nonneg_left ?_ (by positivity)
      have h2 : |c| ≤ (c.num.natAbs : ℚ) := by
        rw [← Rat.num_div_den c, abs_div, Nat.abs_cast, Rat.num_div_den]
        have : (1 : ℚ) ≤ c.den := by exact_mod_cast c.pos
        rw [Nat.cast_natAbs, Int.cast_abs]
        exact div_le_self (abs_nonneg _) this
      exact_mod_cast h2
    simp only [turnPoly, map_add, map_mul, map_pow, aeval_X, aeval_C]
    rw [eq_intCast]
    refine (norm_add_le _ _).trans ?_
    rw [hw, norm_mul]
    push_cast
    have hp : ‖η ^ turnExp N (a * N).num + η ^ turnExp N (-(a * N).num)‖ ≤ 2 := by
      refine (norm_add_le _ _).trans ?_
      rw [norm_pow, norm_pow, hη, one_pow, one_pow]; norm_num
    have hm := mul_le_mul hcn hp (norm_nonneg _) (by positivity)
    linarith

theorem dvd_trigTurnDen (x : TrigSum) : ∀ t ∈ x, t.1.den ∣ trigTurnDen x := by
  induction x with
  | nil => simp
  | cons s x ih =>
    intro t ht
    rcases List.mem_cons.mp ht with rfl | h
    · exact Nat.dvd_lcm_left _ _
    · exact (ih t h).trans (Nat.dvd_lcm_right _ _)

theorem dvd_trigCoefDen (x : TrigSum) : ∀ t ∈ x, t.2.den ∣ trigCoefDen x := by
  induction x with
  | nil => simp
  | cons s x ih =>
    intro t ht
    rcases List.mem_cons.mp ht with rfl | h
    · exact Nat.dvd_lcm_left _ _
    · exact (ih t h).trans (Nat.dvd_lcm_right _ _)

theorem trigTurnDen_pos (x : TrigSum) : 0 < trigTurnDen x := by
  induction x with
  | nil => simp [trigTurnDen]
  | cons s x ih => exact Nat.lcm_pos s.1.pos ih

theorem trigCoefDen_pos (x : TrigSum) : 0 < trigCoefDen x := by
  induction x with
  | nil => simp [trigCoefDen]
  | cons s x ih => exact Nat.lcm_pos s.2.pos ih

/-- A sum of cosines other than 0 is not small. -/
theorem trigVal_separation (x : TrigSum) (h : trigVal x ≠ 0) :
    1 ≤ (2 * trigCoefDen x * |trigVal x|) * (2 * trigCoefDen x * trigWeight x : ℝ) ^ trigTurnDen x := by
  set N := trigTurnDen x with hN
  set D := trigCoefDen x with hD
  have : NeZero N := ⟨(trigTurnDen_pos x).ne'⟩
  have hDpos : (0 : ℝ) < D := by exact_mod_cast trigCoefDen_pos x
  have hζ : IsPrimitiveRoot (exp (2 * Real.pi * I / N)) N := Complex.isPrimitiveRoot_exp N (NeZero.ne N)
  have hev := turnPoly_eval (N := N) D x (dvd_trigTurnDen x) (dvd_trigCoefDen x)
  have hne : aeval (exp (2 * Real.pi * I / N)) (turnPoly N D x) ≠ 0 := by
    rw [hev]
    exact_mod_cast mul_ne_zero (mul_ne_zero two_ne_zero hDpos.ne') h
  have hW : 1 ≤ trigWeight x := by
    by_contra hlt
    have h0 : trigWeight x = 0 := by omega
    have hb := turnPoly_bound (N := N) (D := D) x (dvd_trigCoefDen x) (exp (2 * Real.pi * I / N)) (hζ.norm'_eq_one (NeZero.ne N))
    rw [h0, Nat.cast_zero, mul_zero] at hb
    exact hne (norm_le_zero_iff.mp hb)
  have hB : (1 : ℝ) ≤ 2 * D * trigWeight x := by
    have h1 : (1 : ℝ) ≤ D := by exact_mod_cast trigCoefDen_pos x
    have h2 : (1 : ℝ) ≤ trigWeight x := by exact_mod_cast hW
    nlinarith
  have hsep := root_of_unity_separation hζ (turnPoly N D x) hB (fun η hη =>
    turnPoly_bound x (dvd_trigCoefDen x) η (norm_eq_one_of_pow_eq_one hη (NeZero.ne N))) hne
  rw [hev, Complex.norm_real, Real.norm_eq_abs, abs_mul, abs_of_nonneg (by positivity : (0 : ℝ) ≤ 2 * D)] at hsep
  exact hsep

/-! ## The exact sign -/

theorem ballTerm_rad (p : Nat) (a c : Rat) : (ballTerm p a c).rad ≤ c.num.natAbs * 4 / 2 ^ p := by
  have hf : |(turnFold a).2| ≤ 1 := by
    unfold turnFold
    simp only [Rat.mkRat_eq_div]
    split_ifs <;> norm_num
  have hc : |c| ≤ (c.num.natAbs : ℚ) := by
    have h : |c| = |(c.num : ℚ) / c.den| := by rw [Rat.num_div_den]
    rw [h, abs_div, Nat.abs_cast, Nat.cast_natAbs, Int.cast_abs]
    exact div_le_self (abs_nonneg _) (by exact_mod_cast c.pos)
  simp only [ballTerm]
  split_ifs
  · positivity
  · simp only [ratMul_eq, ratAbs_eq, Rat.mkRat_eq_div, abs_mul]
    push_cast
    rw [mul_div_assoc]
    refine mul_le_mul_of_nonneg_right ?_ (by positivity)
    calc |c| * |(turnFold a).2| ≤ |c| * 1 := mul_le_mul_of_nonneg_left hf (abs_nonneg _)
      _ ≤ c.num.natAbs := by rw [mul_one]; exact hc

theorem trigBall_rad (p : Nat) (x : TrigSum) : (trigBall p x).rad ≤ trigWeight x * 4 / 2 ^ p := by
  induction x with
  | nil => simp [trigBall, trigWeight]
  | cons t x ih =>
    have h := ballTerm_rad p t.1 t.2
    have e : (trigBall p (t :: x)).rad = (ballTerm p t.1 t.2).rad + (trigBall p x).rad := by
      rw [trigBall, List.foldr_cons, ← trigBall]; exact ratAdd_eq _ _
    have hw : (trigWeight (t :: x) : ℚ) = t.2.num.natAbs + trigWeight x := by
      rw [trigWeight, List.foldr_cons]; push_cast; rfl
    rw [e, hw, add_mul, add_div]
    exact add_le_add h ih

theorem lt_two_pow_log2 (n : ℕ) : (n : ℝ) < 2 ^ (n.log2 + 1) := by exact_mod_cast Nat.lt_log2_self

/-- A sum that shows no sign at the precision `trigBits` is 0. -/
theorem trigVal_zero_of_no_sign (x : TrigSum) (h : ballSign (trigBall (trigBits x) x) = none) : trigVal x = 0 := by
  by_contra hne
  have hs := trigVal_separation x hne
  have hr := ballSign_none (trigBall_holds (trigBits x) x) h
  have hrad : ((trigBall (trigBits x) x).rad : ℝ) ≤ trigWeight x * 4 / 2 ^ trigBits x := by
    have h := (Rat.cast_le (K := ℝ)).mpr (trigBall_rad (trigBits x) x)
    push_cast at h; exact h
  have hD : (0 : ℝ) < trigCoefDen x := by exact_mod_cast trigCoefDen_pos x
  have hb : (2 : ℝ) ^ trigBits x = 2 ^ ((2 * trigCoefDen x).log2 + 1) *
      (2 ^ ((2 * trigCoefDen x * trigWeight x).log2 + 1)) ^ trigTurnDen x * 2 ^ ((8 * trigWeight x).log2 + 1) := by
    rw [trigBits, pow_add, pow_add, ← pow_mul, mul_comm (trigTurnDen x)]
  have l1 := lt_two_pow_log2 (2 * trigCoefDen x)
  have l2 := lt_two_pow_log2 (2 * trigCoefDen x * trigWeight x)
  have l3 := lt_two_pow_log2 (8 * trigWeight x)
  push_cast at l1 l2 l3
  have l2' : (2 * trigCoefDen x * trigWeight x : ℝ) ^ trigTurnDen x ≤
      (2 ^ ((2 * trigCoefDen x * trigWeight x).log2 + 1)) ^ trigTurnDen x := pow_le_pow_left₀ (by positivity) l2.le _
  have habs : |trigVal x| ≤ 8 * trigWeight x / 2 ^ trigBits x := by
    have e : (8 : ℝ) * trigWeight x / 2 ^ trigBits x = 2 * (trigWeight x * 4 / 2 ^ trigBits x) := by ring
    rw [e]; linarith
  have hlt : (2 * trigCoefDen x * |trigVal x|) * (2 * trigCoefDen x * trigWeight x : ℝ) ^ trigTurnDen x < 1 := by
    have hP : (0 : ℝ) < 2 ^ trigBits x := by positivity
    calc (2 * trigCoefDen x * |trigVal x|) * (2 * trigCoefDen x * trigWeight x : ℝ) ^ trigTurnDen x
        ≤ (2 * trigCoefDen x * (8 * trigWeight x / 2 ^ trigBits x)) *
            (2 ^ ((2 * trigCoefDen x * trigWeight x).log2 + 1)) ^ trigTurnDen x := by gcongr
      _ = (2 * trigCoefDen x) * (2 ^ ((2 * trigCoefDen x * trigWeight x).log2 + 1)) ^ trigTurnDen x *
            (8 * trigWeight x) / 2 ^ trigBits x := by ring
      _ < 1 := by
        rw [div_lt_one hP, hb]
        have hA : (0 : ℝ) < (2 ^ ((2 * trigCoefDen x * trigWeight x).log2 + 1)) ^ trigTurnDen x := by positivity
        have h8 : (0 : ℝ) ≤ 8 * trigWeight x := by positivity
        calc (2 * trigCoefDen x : ℝ) * (2 ^ ((2 * trigCoefDen x * trigWeight x).log2 + 1)) ^ trigTurnDen x * (8 * trigWeight x)
            ≤ 2 ^ ((2 * trigCoefDen x).log2 + 1) * (2 ^ ((2 * trigCoefDen x * trigWeight x).log2 + 1)) ^ trigTurnDen x *
                (8 * trigWeight x) := by gcongr
          _ < _ := by gcongr
  linarith

/-- `trigSign` is the sign of the real number. -/
theorem trigSign_spec (x : TrigSum) :
    (trigSign x = .gt ∧ 0 < trigVal x) ∨ (trigSign x = .lt ∧ trigVal x < 0) ∨ (trigSign x = .eq ∧ trigVal x = 0) := by
  unfold trigSign
  cases h : ballSign (trigBall (trigBits x) x) with
  | none => exact .inr (.inr ⟨rfl, trigVal_zero_of_no_sign x h⟩)
  | some o =>
    rcases ballSign_spec (trigBall_holds _ x) h with ⟨ho, hv⟩ | ⟨ho, hv⟩
    · exact .inl ⟨ho, hv⟩
    · exact .inr (.inl ⟨ho, hv⟩)

end Sys2Proof
end

