-- ==== Sys2Proof/Laws/Ball.lean ====
section
/-! SUPPORT. The enclosures of Machine/Real.lean hold the numbers they enclose. -/

namespace Sys2Proof

open Machine Real

/-! ## A number given by its digits -/

theorem signDigit_abs (d : Int) : |(signDigit d : ℝ)| ≤ 1 := by
  unfold signDigit
  split_ifs <;> simp

theorem digit_norm_le (n k : ℕ) : ‖(signDigit (Config.givenDigit n k) : ℝ) / 2 ^ (k + 1)‖ ≤ 1 / 2 / 2 ^ k := by
  rw [Real.norm_eq_abs, abs_div, abs_of_pos (by positivity : (0 : ℝ) < 2 ^ (k + 1)), pow_succ, div_div,
    show (2 : ℝ) * 2 ^ k = 2 ^ k * 2 by ring]
  gcongr
  exact signDigit_abs _

theorem digits_summable (n : ℕ) : Summable fun k : ℕ => (signDigit (Config.givenDigit n k) : ℝ) / 2 ^ (k + 1) :=
  Summable.of_norm_bounded (summable_geometric_two' 1) (digit_norm_le n)

theorem givenFix_sum (n p : ℕ) :
    (givenFix n p : ℝ) / 2 ^ p =
      Config.givenInt n + ∑ k ∈ Finset.range p, (signDigit (Config.givenDigit n k) : ℝ) / 2 ^ (k + 1) := by
  induction p with
  | zero => simp [givenFix]
  | succ p ih =>
    rw [Finset.sum_range_succ, ← add_assoc, ← ih, givenFix]
    push_cast
    field_simp
    ring

theorem givenFix_error (n p : ℕ) : |givenVal n - (givenFix n p : ℝ) / 2 ^ p| ≤ 1 / 2 ^ p := by
  have hs := digits_summable n
  rw [givenFix_sum, givenVal, ← hs.sum_add_tsum_nat_add p]
  rw [show ∀ a b c : ℝ, a + (b + c) - (a + b) = c by intros; ring]
  have hgeo : HasSum (fun k : ℕ => (1 / 2 ^ p : ℝ) / 2 / 2 ^ k) (1 / 2 ^ p) := hasSum_geometric_two' _
  rw [← Real.norm_eq_abs]
  refine (norm_tsum_le_tsum_norm ?_).trans ?_
  · refine Summable.of_nonneg_of_le (fun _ => norm_nonneg _) (fun k => ?_) hgeo.summable
    refine (digit_norm_le n (k + p)).trans (le_of_eq ?_)
    rw [pow_add]; field_simp
  · rw [← hgeo.tsum_eq]
    refine Summable.tsum_le_tsum (fun k => ?_) ?_ hgeo.summable
    · refine (digit_norm_le n (k + p)).trans (le_of_eq ?_)
      rw [pow_add]; field_simp
    · refine Summable.of_nonneg_of_le (fun _ => norm_nonneg _) (fun k => ?_) hgeo.summable
      refine (digit_norm_le n (k + p)).trans (le_of_eq ?_)
      rw [pow_add]; field_simp

theorem ballGiven_holds (n p : ℕ) : Ball.Holds ⟨mkRat (givenFix n p) (2 ^ p), mkRat 1 (2 ^ p)⟩ (givenVal n) := by
  have h := givenFix_error n p
  simp only [Ball.Holds, Rat.mkRat_eq_div]
  push_cast
  exact h

/-! ## Turns, quotients, square roots, circle functions -/

theorem ballTurns_holds (p : ℕ) (q : ℚ) : (ballTurns p q).Holds (2 * π * q) := by
  have h := (piFix_error p).1
  simp only [Ball.Holds, ballTurns, ratMul_eq, ratAbs_eq, Rat.mkRat_eq_div]
  push_cast
  rw [show 2 * π * q - 2 / 1 * q * ((piFix p : ℝ) / 2 ^ p) = (2 * q) * (π - (piFix p : ℝ) / 2 ^ p) by ring, abs_mul,
    abs_mul, abs_two]
  calc 2 * |(q : ℝ)| * |π - (piFix p : ℝ) / 2 ^ p| ≤ 2 * |(q : ℝ)| * (9 / 8 / 2 ^ p) := by gcongr
    _ = |(q : ℝ)| * (9 / (4 * 2 ^ p)) := by field_simp; ring

theorem ballQuot_holds {a b c : Ball} {u v : ℝ} (ha : a.Holds u) (hb : b.Holds v) (h : ballQuot a b = some c) :
    c.Holds (u / v) := by
  unfold ballQuot at h
  split_ifs at h with h1
  cases h
  simp only [ratLt_iff, ratAbs_eq] at h1
  have h2 : (b.rad : ℝ) < |(b.mid : ℝ)| := by exact_mod_cast h1
  simp only [Ball.Holds, ratDiv_eq, ratAdd_eq, ratMul_eq, ratAbs_eq, ratSub_eq] at *
  push_cast
  have ra : 0 ≤ (a.rad : ℝ) := (abs_nonneg _).trans ha
  have rb : 0 ≤ (b.rad : ℝ) := (abs_nonneg _).trans hb
  have hm : 0 < |(b.mid : ℝ)| := rb.trans_lt h2
  have hv : |(b.mid : ℝ)| - b.rad ≤ |v| := by
    have := abs_sub_abs_le_abs_sub (b.mid : ℝ) v
    rw [abs_sub_comm] at this
    linarith
  have hv0 : 0 < |v| := by linarith
  have hmid : (b.mid : ℝ) ≠ 0 := abs_pos.mp hm
  have hv1 : v ≠ 0 := abs_pos.mp hv0
  rw [show u / v - (a.mid : ℝ) / b.mid = ((u - a.mid) * b.mid - a.mid * (v - b.mid)) / (b.mid * v) by field_simp; ring,
    abs_div, abs_mul (b.mid : ℝ)]
  have hnum : |(u - a.mid) * b.mid - a.mid * (v - b.mid)| ≤ a.rad * |(b.mid : ℝ)| + |(a.mid : ℝ)| * b.rad := by
    refine (abs_sub _ _).trans (add_le_add ?_ ?_)
    · rw [abs_mul]; gcongr
    · rw [abs_mul]; gcongr
  have hpos : 0 < |(b.mid : ℝ)| - b.rad := by linarith
  have hnn : 0 ≤ a.rad * |(b.mid : ℝ)| + |(a.mid : ℝ)| * b.rad := by positivity
  exact div_le_div₀ hnn hnum (mul_pos hm hpos) (by gcongr)

theorem sqrtFix_bounds (p : ℕ) (x : ℚ) :
    (sqrtFix p x : ℝ) / 2 ^ p ≤ √(x : ℝ) ∧ √(x : ℝ) ≤ (sqrtFix p x + 1 : ℝ) / 2 ^ p := by
  have hp : (0 : ℝ) < 2 ^ p := by positivity
  have h4 : (4 : ℝ) ^ p = (2 ^ p) ^ 2 := by rw [← pow_mul, mul_comm, pow_mul]; norm_num
  have hN : (sqrtFix p x) = Nat.sqrt ⌊x * 4 ^ p⌋.toNat := by
    simp [sqrtFix, Rat.mkRat_eq_div]
  rw [hN]
  generalize hk : ⌊x * 4 ^ p⌋.toNat = k
  have h1 : Nat.sqrt k ^ 2 ≤ k := Nat.sqrt_le' k
  have h2 : k < (Nat.sqrt k + 1) ^ 2 := Nat.lt_succ_sqrt' k
  have hlt : (x : ℝ) * 4 ^ p < k + 1 := by
    have : x * 4 ^ p < (k : ℚ) + 1 := by
      have := Int.lt_floor_add_one (x * 4 ^ p)
      have hle : (⌊x * 4 ^ p⌋ : ℚ) ≤ (k : ℚ) := by rw [← hk]; exact_mod_cast Int.self_le_toNat _
      linarith
    exact_mod_cast this
  have h2' : (k : ℝ) + 1 ≤ (Nat.sqrt k + 1) ^ 2 := by exact_mod_cast h2
  constructor
  · rcases le_or_gt x 0 with hx | hx
    · have : k = 0 := by
        rw [← hk, Int.toNat_eq_zero]
        exact Int.floor_nonpos (mul_nonpos_of_nonpos_of_nonneg hx (by positivity))
      subst this
      simp only [Nat.sqrt_zero, Nat.cast_zero, zero_div]
      exact Real.sqrt_nonneg _
    · have hle : (k : ℝ) ≤ (x : ℝ) * 4 ^ p := by
        have hf : (0 : ℤ) ≤ ⌊x * 4 ^ p⌋ := Int.floor_nonneg.mpr (by positivity)
        have : (k : ℚ) ≤ x * 4 ^ p := by
          have e : ((k : ℤ) : ℚ) = ⌊x * 4 ^ p⌋ := by rw [← hk, Int.toNat_of_nonneg hf]
          rw [← Int.cast_natCast, e]; exact Int.floor_le _
        exact_mod_cast this
      apply Real.le_sqrt_of_sq_le
      rw [div_pow, div_le_iff₀ (by positivity), ← h4]
      exact le_trans (by exact_mod_cast h1) hle
  · apply Real.sqrt_le_iff.mpr
    refine ⟨by positivity, ?_⟩
    rw [div_pow, le_div_iff₀ (by positivity), ← h4]
    linarith

theorem sqrt_sub_le {u v r : ℝ} (h : |u - v| ≤ r) : |√u - √v| ≤ √r := by
  have hr : 0 ≤ r := (abs_nonneg _).trans h
  have key : ∀ a b : ℝ, a - b ≤ r → √a - √b ≤ √r := by
    intro a b hab
    rcases le_or_gt a 0 with ha | ha
    · rw [Real.sqrt_eq_zero_of_nonpos ha]
      linarith [Real.sqrt_nonneg b, Real.sqrt_nonneg r]
    · have : √a ≤ √b + √r := by
        apply Real.sqrt_le_iff.mpr
        refine ⟨by positivity, ?_⟩
        have hb : b ≤ √b ^ 2 := by
          rcases le_or_gt 0 b with hb | hb
          · rw [Real.sq_sqrt hb]
          · exact hb.le.trans (sq_nonneg _)
        nlinarith [Real.sq_sqrt hr, mul_nonneg (Real.sqrt_nonneg b) (Real.sqrt_nonneg r)]
      linarith
  obtain ⟨h1, h2⟩ := abs_le.mp h
  rw [abs_le]
  exact ⟨by linarith [key v u (by linarith)], key u v h2⟩

theorem ballSqrt_holds {p : ℕ} {a : Ball} {u : ℝ} (ha : a.Holds u) : (ballSqrt p a).Holds (√u) := by
  have h1 := sqrt_sub_le ha
  obtain ⟨h2, h3⟩ := sqrtFix_bounds p a.mid
  obtain ⟨_, h5⟩ := sqrtFix_bounds p a.rad
  simp only [Ball.Holds, ballSqrt, Rat.mkRat_eq_div]
  push_cast
  have e1 : ((sqrtFix p a.mid : ℝ) + 1) / 2 ^ p = sqrtFix p a.mid / 2 ^ p + 1 / 2 ^ p := by ring
  have e2 : ((sqrtFix p a.rad : ℝ) + 2) / 2 ^ p = (sqrtFix p a.rad + 1) / 2 ^ p + 1 / 2 ^ p := by ring
  rw [e1] at h3
  rw [e2]
  obtain ⟨h6, h7⟩ := abs_le.mp h1
  rw [abs_le]
  constructor <;> linarith

theorem ballCircle_holds {p : ℕ} {a b : Ball} {u : ℝ} {turn : Rat → TrigSum} {f : ℝ → ℝ}
    (hf : ∀ q, trigVal (turn q) = f (2 * π * q)) (hl : ∀ x y, |f x - f y| ≤ |x - y|) (ha : a.Holds u)
    (h : ballCircle p turn a = some b) : b.Holds (f u) := by
  unfold ballCircle at h
  have hpi := (piFix_error p).1
  generalize piFix p = N at h hpi
  split_ifs at h with hp
  cases h
  have hP : (0 : ℝ) < N := by exact_mod_cast hp
  have hn : ((N.toNat : ℕ) : ℝ) = N := by exact_mod_cast Int.toNat_of_nonneg hp.le
  set t : ℚ := ratMul a.mid (mkRat (2 ^ p) (2 * N.toNat)) with ht
  have htv : 2 * π * (t : ℝ) = a.mid * (π * 2 ^ p / N) := by
    rw [ht, ratMul_eq, Rat.mkRat_eq_div]
    push_cast
    rw [hn]
    field_simp
  have hang : |(a.mid : ℝ) - 2 * π * t| ≤ |(a.mid : ℝ)| * (9 / (8 * N)) := by
    rw [htv, show (a.mid : ℝ) - a.mid * (π * 2 ^ p / N) =
      a.mid * (((N : ℝ) / 2 ^ p - π) * (2 ^ p / N)) by field_simp, abs_mul, abs_mul, abs_sub_comm,
      abs_of_pos (by positivity : (0 : ℝ) < 2 ^ p / N)]
    gcongr
    calc |π - (N : ℝ) / 2 ^ p| * (2 ^ p / N) ≤ 9 / 8 / 2 ^ p * (2 ^ p / N) := by gcongr
      _ = 9 / (8 * N) := by field_simp
  have hB := trigBall_holds p (turn t)
  rw [hf] at hB
  have h1 := hl u a.mid
  have h2 := hl a.mid (2 * π * t)
  simp only [Ball.Holds, ratAdd_eq, ratMul_eq, ratAbs_eq, Rat.mkRat_eq_div] at *
  push_cast
  rw [hn]
  have e : f u - ((trigBall p (turn t)).mid : ℝ) =
    (f u - f a.mid) + ((f a.mid - f (2 * π * t)) + (f (2 * π * t) - (trigBall p (turn t)).mid)) := by ring
  rw [e]
  refine (abs_add_le _ _).trans ?_
  have := abs_add_le (f a.mid - f (2 * π * t)) (f (2 * π * t) - (trigBall p (turn t)).mid)
  linarith

theorem abs_sin_sub_le (x y : ℝ) : |sin x - sin y| ≤ |x - y| := by
  have := Real.abs_sin_sub_sin_le x y
  exact this

theorem abs_cos_sub_le (x y : ℝ) : |cos x - cos y| ≤ |x - y| := by
  have := Real.abs_cos_sub_cos_le x y
  exact this

end Sys2Proof
end

