-- ==== Sys2Proof/Laws/Tone.lean ====
section
/-! SUPPORT. Sums of sampled sines over the reals: the correlation of a tone of any start phase with a reference of any
frequency, bounded through the lengths of two sampled circles.  For the statements about whole windows (rules R91, R93,
R100). -/

namespace Sys2Proof

open Finset

/-- Sums of a sampled cosine, in closed form up to the factor `sin (a / 2)`. -/
theorem sum_cos_mul_sin (a b : ℝ) (n : ℕ) :
    (∑ k ∈ range n, Real.cos (b + a * k)) * Real.sin (a / 2) = Real.sin (n * a / 2) * Real.cos (b + (n - 1) * a / 2) := by
  have h : ∀ n : ℕ, (∑ k ∈ range n, Real.cos (b + a * k)) * (2 * Real.sin (a / 2)) =
      Real.sin (b + (n - 1 / 2) * a) - Real.sin (b - a / 2) := by
    intro n
    induction n with
    | zero => simp; ring_nf
    | succ n ih =>
      rw [sum_range_succ, add_mul, ih,
        show b + ((n + 1 : ℕ) - 1 / 2) * a = (b + a * n) + a / 2 by push_cast; ring,
        show b + ((n : ℝ) - 1 / 2) * a = (b + a * n) - a / 2 by ring, Real.sin_add, Real.sin_sub]
      ring
  have h2 := h n
  rw [show b + ((n : ℝ) - 1 / 2) * a = (b + (n - 1) * a / 2) + n * a / 2 by ring,
    show b - a / 2 = (b + (n - 1) * a / 2) - n * a / 2 by ring, Real.sin_add, Real.sin_sub] at h2
  linarith

/-- The same for the sine, which is the cosine a quarter turn earlier. -/
theorem sum_sin_mul_sin (a b : ℝ) (n : ℕ) :
    (∑ k ∈ range n, Real.sin (b + a * k)) * Real.sin (a / 2) = Real.sin (n * a / 2) * Real.sin (b + (n - 1) * a / 2) := by
  have h := sum_cos_mul_sin a (b - Real.pi / 2) n
  simp only [show ∀ x : ℝ, b - Real.pi / 2 + x = (b + x) - Real.pi / 2 by intro x; ring, Real.cos_sub_pi_div_two] at h
  exact h

/-- The magnitude is a norm: two magnitudes differ by at most the magnitude of the difference. -/
theorem sqrt_triangle (a b c d : ℝ) :
    Real.sqrt ((a + c) ^ 2 + (b + d) ^ 2) ≤ Real.sqrt (a ^ 2 + b ^ 2) + Real.sqrt (c ^ 2 + d ^ 2) := by
  have h := norm_add_le (⟨a, b⟩ : ℂ) ⟨c, d⟩
  simpa [Complex.norm_eq_sqrt_sq_add_sq] using h

theorem abs_sqrt_sub_le (a b c d : ℝ) :
    |Real.sqrt (a ^ 2 + b ^ 2) - Real.sqrt (c ^ 2 + d ^ 2)| ≤ Real.sqrt ((a - c) ^ 2 + (b - d) ^ 2) := by
  have h := abs_norm_sub_norm_le (⟨a, b⟩ : ℂ) ⟨c, d⟩
  simpa [Complex.norm_eq_sqrt_sq_add_sq] using h

/-- The correlation sums of a tone with a reference, each as half the sum of two sampled circles: one at the difference
and one at the sum of the two steps. -/
theorem correlate_cos (t a b : ℝ) (n : ℕ) :
    ∑ k ∈ range n, Real.sin (t + a * k) * Real.cos (b * k) =
      ((∑ k ∈ range n, Real.sin (t + (a - b) * k)) + ∑ k ∈ range n, Real.sin (t + (a + b) * k)) / 2 := by
  rw [← sum_add_distrib, sum_div]
  refine sum_congr rfl fun k _ => ?_
  rw [show t + (a - b) * k = (t + a * k) - b * k by ring, show t + (a + b) * k = (t + a * k) + b * k by ring,
    Real.sin_add (t + a * k), Real.sin_sub (t + a * k)]
  ring

theorem correlate_sin (t a b : ℝ) (n : ℕ) :
    ∑ k ∈ range n, Real.sin (t + a * k) * Real.sin (b * k) =
      ((∑ k ∈ range n, Real.cos (t + (a - b) * k)) - ∑ k ∈ range n, Real.cos (t + (a + b) * k)) / 2 := by
  rw [← sum_sub_distrib, sum_div]
  refine sum_congr rfl fun k _ => ?_
  rw [show t + (a - b) * k = (t + a * k) - b * k by ring, show t + (a + b) * k = (t + a * k) + b * k by ring,
    Real.cos_add (t + a * k), Real.cos_sub (t + a * k)]
  ring

/-- The magnitude of a tone of start phase `t` and step `a` against a reference of step `b`, over `n` samples. -/
noncomputable def toneMag (t a b : ℝ) (n : ℕ) : ℝ :=
  Real.sqrt ((∑ k ∈ range n, Real.sin (t + a * k) * Real.cos (b * k)) ^ 2 +
    (∑ k ∈ range n, Real.sin (t + a * k) * Real.sin (b * k)) ^ 2)

/-- The length of a sampled circle of step `a`. -/
noncomputable def circleNorm (t a : ℝ) (n : ℕ) : ℝ :=
  Real.sqrt ((∑ k ∈ range n, Real.sin (t + a * k)) ^ 2 + (∑ k ∈ range n, Real.cos (t + a * k)) ^ 2)

theorem circleNorm_eq (t a : ℝ) (n : ℕ) (h : Real.sin (a / 2) ≠ 0) :
    circleNorm t a n = |Real.sin (n * a / 2)| / |Real.sin (a / 2)| := by
  have hq : (∑ k ∈ range n, Real.sin (t + a * k)) ^ 2 + (∑ k ∈ range n, Real.cos (t + a * k)) ^ 2 =
      (Real.sin (n * a / 2) / Real.sin (a / 2)) ^ 2 := by
    rw [div_pow, eq_div_iff (pow_ne_zero 2 h), add_mul, ← mul_pow, ← mul_pow, sum_cos_mul_sin, sum_sin_mul_sin, mul_pow,
      mul_pow, ← mul_add, Real.sin_sq_add_cos_sq, mul_one]
  rw [circleNorm, hq, Real.sqrt_sq_eq_abs, abs_div]

theorem circleNorm_zero (t : ℝ) (n : ℕ) : circleNorm t 0 n = n := by
  rw [circleNorm]
  simp only [zero_mul, add_zero, sum_const, card_range, nsmul_eq_mul, mul_pow]
  rw [← mul_add, Real.sin_sq_add_cos_sq, mul_one, Real.sqrt_sq (Nat.cast_nonneg n)]

/-- The magnitude lies between half the difference and half the sum of the lengths of the two sampled circles. -/
theorem toneMag_bounds (t a b : ℝ) (n : ℕ) :
    |toneMag t a b n - circleNorm t (a - b) n / 2| ≤ circleNorm t (a + b) n / 2 := by
  have half : ∀ x y : ℝ, Real.sqrt ((x / 2) ^ 2 + (y / 2) ^ 2) = Real.sqrt (x ^ 2 + y ^ 2) / 2 := by
    intro x y
    rw [show (x / 2) ^ 2 + (y / 2) ^ 2 = (x ^ 2 + y ^ 2) / 2 ^ 2 by ring, Real.sqrt_div' _ (by norm_num),
      Real.sqrt_sq (by norm_num)]
  rw [toneMag, circleNorm, circleNorm, ← half, ← half, correlate_cos, correlate_sin]
  refine (abs_sqrt_sub_le _ _ _ _).trans (le_of_eq ?_)
  congr 1
  ring

end Sys2Proof
end

