-- ==== Sys2Proof/Laws/Calibration.lean ====
section
/-! SUPPORT. The tones of the calibration parameters over the reals: a window of either tone, at any start phase, has its own
magnitude above the other by more than 64 (rules R91, R93). -/

namespace Sys2Proof

/-- The phase step `2 π f / fs` of a tone of `200 j` Hz at 44100 samples per second: that of 1200 Hz is `calStep 6`, that of
2200 Hz `calStep 11`. -/
noncomputable def calStep (j : ℤ) : ℝ := 2 * Real.pi * (200 * j) / 44100

theorem calStep_sub (i j : ℤ) : calStep i - calStep j = calStep (i - j) := by
  simp only [calStep]; push_cast; ring

theorem calStep_add (i j : ℤ) : calStep i + calStep j = calStep (i + j) := by
  simp only [calStep]; push_cast; ring

theorem calStep_neg (j : ℤ) : calStep (-j) = -calStep j := by
  simp only [calStep]; push_cast; ring

/-- Over a symbol of 147 samples the phase advances by a multiple of a third of a turn, so the sine of half of twice that is
0 or half the root of 3 in size. -/
theorem abs_sin_symbol_le (j : ℤ) : |Real.sin ((147 : ℕ) * calStep j / 2)| ≤ 0.8661 := by
  have hy : Real.cos (3 * (2 * ((147 : ℕ) * calStep j / 2))) = 1 := by
    rw [show 3 * (2 * ((147 : ℕ) * calStep j / 2)) = (2 * j : ℤ) * (2 * Real.pi) by simp only [calStep]; push_cast; ring]
    exact Real.cos_int_mul_two_pi _
  rw [Real.cos_three_mul] at hy
  have h2 := Real.cos_two_mul ((147 : ℕ) * calStep j / 2)
  have h3 := Real.sin_sq_add_cos_sq ((147 : ℕ) * calStep j / 2)
  generalize Real.cos (2 * ((147 : ℕ) * calStep j / 2)) = c at hy h2
  have h1 : (c - 1) * (2 * c + 1) ^ 2 = 0 := by linarith
  refine abs_le_of_sq_le_sq ?_ (by norm_num)
  rcases mul_eq_zero.mp h1 with h | h
  · nlinarith
  · have := pow_eq_zero_iff (two_ne_zero) |>.mp h
    nlinarith

/-- A lower bound of the sine of half a step, from `x - x ^ 3 / 6 < sin x`. -/
theorem le_sin_calStep {j : ℤ} {lo : ℝ} (h0 : 0 < j) (h : lo ≤ 3.14 * j * (2 / 441) - (3.15 * j * (2 / 441)) ^ 3 / 6) :
    lo ≤ Real.sin (calStep j / 2) := by
  have hj : (0 : ℝ) < j := by exact_mod_cast h0
  have hs : calStep j / 2 = Real.pi * j * (2 / 441) := by simp only [calStep]; ring
  have h1 : 0 < calStep j / 2 := by rw [hs]; positivity
  refine le_trans ?_ (Real.sin_gt_sub_cube h1).le
  rw [hs]
  have h2 : 3.14 * (j : ℝ) * (2 / 441) ≤ Real.pi * j * (2 / 441) := by
    have := Real.pi_gt_d2
    gcongr
  have h3 : (Real.pi * j * (2 / 441)) ^ 3 ≤ (3.15 * j * (2 / 441)) ^ 3 := by
    have := Real.pi_lt_d2
    gcongr
  linarith

theorem circleNorm_calStep_le {j : ℤ} {lo : ℝ} (t : ℝ) (h0 : 0 < lo) (h : lo ≤ |Real.sin (calStep j / 2)|) :
    circleNorm t (calStep j) 147 ≤ 0.8661 / lo := by
  rw [circleNorm_eq _ _ _ (abs_pos.mp (h0.trans_le h))]
  exact div_le_div₀ (by norm_num) (abs_sin_symbol_le j) h0 h

/-- The circles of the sum and of the difference of the two tones, and of twice the high one. -/
theorem circleNorm_difference_le (t : ℝ) : circleNorm t (calStep 5) 147 ≤ 12.2 ∧ circleNorm t (calStep (-5)) 147 ≤ 12.2 := by
  have h : (0.0711 : ℝ) ≤ |Real.sin (calStep 5 / 2)| := (le_sin_calStep (by norm_num) (by norm_num)).trans (le_abs_self _)
  have h' : (0.0711 : ℝ) ≤ |Real.sin (calStep (-5) / 2)| := by rwa [calStep_neg, neg_div, Real.sin_neg, abs_neg]
  exact ⟨(circleNorm_calStep_le t (by norm_num) h).trans (by norm_num),
    (circleNorm_calStep_le t (by norm_num) h').trans (by norm_num)⟩

theorem circleNorm_sum_le (t : ℝ) : circleNorm t (calStep 17) 147 ≤ 3.65 := by
  have h : (0.238 : ℝ) ≤ |Real.sin (calStep 17 / 2)| := (le_sin_calStep (by norm_num) (by norm_num)).trans (le_abs_self _)
  exact (circleNorm_calStep_le t (by norm_num) h).trans (by norm_num)

theorem circleNorm_high_le (t : ℝ) : circleNorm t (calStep 22) 147 ≤ 2.86 := by
  have h : (0.305 : ℝ) ≤ |Real.sin (calStep 22 / 2)| := (le_sin_calStep (by norm_num) (by norm_num)).trans (le_abs_self _)
  exact (circleNorm_calStep_le t (by norm_num) h).trans (by norm_num)

/-- Eight whole turns of the low tone close up. -/
theorem circleNorm_low (t : ℝ) : circleNorm t (calStep 12) 147 = 0 := by
  have h : (0.1 : ℝ) ≤ Real.sin (calStep 12 / 2) := le_sin_calStep (by norm_num) (by norm_num)
  rw [circleNorm_eq _ _ _ (by linarith), show ((147 : ℕ) : ℝ) * calStep 12 / 2 = (8 : ℤ) * Real.pi by
    simp only [calStep]; push_cast; ring, Real.sin_int_mul_pi, abs_zero, zero_div]

/-- A window of the low tone, at any start phase: the magnitude at the low tone is above that at the high one by more than 64
(rule R93). -/
theorem low_tone_margin (t : ℝ) :
    toneMag t (calStep 6) (calStep 11) 147 + 64 < toneMag t (calStep 6) (calStep 6) 147 := by
  have h0 := abs_le.mp (toneMag_bounds t (calStep 6) (calStep 6) 147)
  have h1 := abs_le.mp (toneMag_bounds t (calStep 6) (calStep 11) 147)
  rw [sub_self, circleNorm_zero, calStep_add, show (6 : ℤ) + 6 = 12 by rfl, circleNorm_low] at h0
  rw [calStep_sub, calStep_add, show (6 : ℤ) - 11 = -5 by rfl, show (6 : ℤ) + 11 = 17 by rfl] at h1
  have := (circleNorm_difference_le t).2
  have := circleNorm_sum_le t
  norm_num at h0
  linarith [h0.1, h1.2]

/-- A window of the high tone, at any start phase. -/
theorem high_tone_margin (t : ℝ) :
    toneMag t (calStep 11) (calStep 6) 147 + 64 < toneMag t (calStep 11) (calStep 11) 147 := by
  have h0 := abs_le.mp (toneMag_bounds t (calStep 11) (calStep 11) 147)
  have h1 := abs_le.mp (toneMag_bounds t (calStep 11) (calStep 6) 147)
  rw [sub_self, circleNorm_zero, calStep_add, show (11 : ℤ) + 11 = 22 by rfl] at h0
  rw [calStep_sub, calStep_add, show (11 : ℤ) - 6 = 5 by rfl, show (11 : ℤ) + 6 = 17 by rfl] at h1
  have := (circleNorm_difference_le t).1
  have := circleNorm_sum_le t
  have := circleNorm_high_le t
  norm_num at h0
  linarith [h0.1, h1.2]

end Sys2Proof
end

