-- ==== Sys2Proof/Laws/Quantity.lean ====
section
/-! SUPPORT. The operations of Machine/Real.lean are the operations of the real numbers, its enclosures hold, and an order
that two enclosures show is the order of the reals. -/

namespace Sys2Proof

open Machine

/-! ## Values -/

@[simp] theorem Quantity.zero_val : Quantity.zero.val = 0 := rfl

@[simp] theorem Quantity.ofRat_val (q : Rat) : (Quantity.ofRat q).val = q := by
  unfold Quantity.ofRat
  split_ifs with h
  · simp [h]
  · simp [Quantity.val]

@[simp] theorem Quantity.ofNat_val (n : Nat) : (Quantity.ofNat n).val = n := by
  simp [Quantity.ofNat, Rat.mkRat_eq_div]

@[simp] theorem Quantity.one_val : Quantity.one.val = 1 := by simp [Quantity.one]

@[simp] theorem Quantity.ofTurns_val (q : Rat) : (Quantity.ofTurns q).val = 2 * Real.pi * q := by
  unfold Quantity.ofTurns
  split_ifs with h
  · simp [h]
  · rfl

@[simp] theorem Quantity.pi_val : Quantity.pi.val = Real.pi := by
  rw [Quantity.pi, Quantity.ofTurns_val, Rat.mkRat_eq_div]; push_cast; ring

theorem Quantity.rat?_val {a : Quantity} {q : Rat} (h : a.rat? = some q) : a.val = q := by
  unfold Quantity.rat? at h
  split at h
  · cases h; simp [Quantity.val]
  · split_ifs at h with h0
    cases h; subst h0; simp [Quantity.val]
  · cases h

@[simp] theorem Quantity.add_val (a b : Quantity) : (a.add b).val = a.val + b.val := by
  unfold Quantity.add
  split_ifs with h1 h2
  · simp [h1]
  · simp [h2]
  · split
    · simp [Quantity.val]
    · rw [Quantity.ofTurns_val, ratAdd_eq]; simp only [Quantity.val]; push_cast; ring
    · rfl

@[simp] theorem Quantity.mul_val (a b : Quantity) : (a.mul b).val = a.val * b.val := by
  unfold Quantity.mul
  split_ifs with h1 h2 h3
  · rcases h1 with rfl | rfl <;> simp
  · simp [h2]
  · simp [h3]
  · split
    · split_ifs
      · simp [Quantity.val]
      · rfl
    · split
      · rename_i x q _ _ _ r hr
        rw [Quantity.ofTurns_val, ratMul_eq, Quantity.rat?_val hr]; simp only [Quantity.val]; push_cast; ring
      · rfl
    · split
      · rename_i q y _ _ _ r hr
        rw [Quantity.ofTurns_val, ratMul_eq, Quantity.rat?_val hr]; simp only [Quantity.val]; push_cast; ring
      · rfl
    · rfl

@[simp] theorem Quantity.sq_val (a : Quantity) : a.sq.val = a.val ^ 2 := by
  rw [Quantity.sq, Quantity.mul_val, pow_two]

@[simp] theorem Quantity.div_val (a b : Quantity) : (a.div b).val = a.val / b.val := by
  unfold Quantity.div
  split_ifs with h0
  · simp [h0]
  · split
    · rfl
    · rename_i q hq
      split_ifs with hz
      · rfl
      · rw [Quantity.rat?_val hq]
        split
        · simp only [Quantity.val, trigScale_val, ratDiv_eq, mkRat_one_one]; push_cast; ring
        · rw [Quantity.ofTurns_val, ratDiv_eq]; simp only [Quantity.val]; push_cast; ring
        · simp only [Quantity.val]; rw [Quantity.rat?_val hq]

@[simp] theorem Quantity.sin_val (a : Quantity) : a.sin.val = Real.sin a.val := by
  unfold Quantity.sin
  split_ifs with h
  · simp [h]
  · split
    · simp [Quantity.val]
    · rfl

@[simp] theorem Quantity.cos_val (a : Quantity) : a.cos.val = Real.cos a.val := by
  unfold Quantity.cos
  split_ifs with h
  · simp [h]
  · split
    · simp [Quantity.val]
    · rfl

@[simp] theorem Quantity.sqrt_val (a : Quantity) : a.sqrt.val = Real.sqrt a.val := rfl

/-! ## Normal forms and enclosures -/

theorem Quantity.trig?_val {a : Quantity} {x : TrigSum} (h : a.trig? = some x) : a.val = trigVal x := by
  induction a generalizing x with
  | alg y => cases h; rfl
  | sum a b iha ihb =>
    unfold Quantity.trig? at h
    split at h
    · rename_i y z ha hb
      cases h; rw [trigAdd_val, ← iha ha, ← ihb hb]; rfl
    · cases h
  | prod a b iha ihb =>
    unfold Quantity.trig? at h
    split at h
    · rename_i y z ha hb
      cases h; rw [trigMul_val, ← iha ha, ← ihb hb]; rfl
    · cases h
  | _ => cases h

theorem Quantity.ball_holds {p : Nat} {a : Quantity} {b : Ball} (h : a.ball p = some b) : b.Holds a.val := by
  induction a generalizing b with
  | alg y => cases h; exact trigBall_holds p y
  | turns q => cases h; exact ballTurns_holds p q
  | given n => cases h; exact ballGiven_holds n p
  | sum a b iha ihb =>
    unfold Quantity.ball at h
    split at h
    · rename_i m n ha hb
      cases h; exact ballAdd_holds (iha ha) (ihb hb)
    · cases h
  | prod a b iha ihb =>
    unfold Quantity.ball at h
    split at h
    · rename_i m n ha hb
      cases h; exact ballMul_holds (iha ha) (ihb hb)
    · cases h
  | quot a b iha ihb =>
    unfold Quantity.ball at h
    split at h
    · rename_i m n ha hb
      exact ballQuot_holds (iha ha) (ihb hb) h
    · cases h
  | sinOf a ih =>
    unfold Quantity.ball at h
    split at h
    · rename_i m hm
      exact ballCircle_holds sinTurn_val abs_sin_sub_le (ih hm) h
    · cases h
  | cosOf a ih =>
    unfold Quantity.ball at h
    split at h
    · rename_i m hm
      exact ballCircle_holds cosTurn_val abs_cos_sub_le (ih hm) h
    · cases h
  | sqrtOf a ih =>
    unfold Quantity.ball at h
    split at h
    · rename_i m hm
      cases h; exact ballSqrt_holds (ih hm)
    · cases h

/-! ## Defined numbers -/

theorem Quantity.defined_ofRat (q : Rat) : (Quantity.ofRat q).Defined := by
  unfold Quantity.ofRat; split_ifs <;> trivial

theorem Quantity.defined_ofNat (n : Nat) : (Quantity.ofNat n).Defined := Quantity.defined_ofRat _

theorem Quantity.defined_ofTurns (q : Rat) : (Quantity.ofTurns q).Defined := by
  unfold Quantity.ofTurns; split_ifs <;> trivial

theorem Quantity.defined_pi : Quantity.pi.Defined := Quantity.defined_ofTurns _

theorem Quantity.defined_add {a b : Quantity} (ha : a.Defined) (hb : b.Defined) : (a.add b).Defined := by
  unfold Quantity.add
  split_ifs
  · exact hb
  · exact ha
  · split
    · trivial
    · exact Quantity.defined_ofTurns _
    · exact ⟨ha, hb⟩

theorem Quantity.defined_mul {a b : Quantity} (ha : a.Defined) (hb : b.Defined) : (a.mul b).Defined := by
  unfold Quantity.mul
  split_ifs
  · trivial
  · exact hb
  · exact ha
  · split
    · split_ifs
      · trivial
      · exact ⟨ha, hb⟩
    · split
      · exact Quantity.defined_ofTurns _
      · exact ⟨ha, hb⟩
    · split
      · exact Quantity.defined_ofTurns _
      · exact ⟨ha, hb⟩
    · exact ⟨ha, hb⟩

theorem Quantity.defined_div {a b : Quantity} (ha : a.Defined) (hb : b.Defined) (h0 : b.val ≠ 0) : (a.div b).Defined := by
  unfold Quantity.div
  split_ifs
  · trivial
  · split
    · exact ⟨ha, hb, h0⟩
    · split_ifs
      · exact ⟨ha, hb, h0⟩
      · split
        · trivial
        · exact Quantity.defined_ofTurns _
        · exact ⟨ha, hb, h0⟩

theorem Quantity.defined_sin {a : Quantity} (ha : a.Defined) : a.sin.Defined := by
  unfold Quantity.sin
  split_ifs
  · trivial
  · split
    · trivial
    · exact ha

theorem Quantity.defined_cos {a : Quantity} (ha : a.Defined) : a.cos.Defined := by
  unfold Quantity.cos
  split_ifs
  · exact Quantity.defined_ofNat 1
  · split
    · trivial
    · exact ha

theorem Quantity.defined_sqrt {a : Quantity} (ha : a.Defined) (h0 : 0 ≤ a.val) : a.sqrt.Defined := ⟨ha, h0⟩

/-! ## Orders that enclosures show -/

/-- What an answer of the comparison says. -/
def orderSays (o : Ordering) (u v : ℝ) : Prop := (o = .lt ↔ u < v) ∧ (o = .eq ↔ u = v) ∧ (o = .gt ↔ v < u)

theorem orderSays_of_lt {u v : ℝ} (h : u < v) : orderSays .lt u v := by
  simp [orderSays, h, h.ne, h.not_gt]

theorem orderSays_of_gt {u v : ℝ} (h : v < u) : orderSays .gt u v := by
  simp [orderSays, h, h.ne', h.not_gt]

theorem orderSays_of_eq {u v : ℝ} (h : u = v) : orderSays .eq u v := by
  simp [orderSays, h]

theorem trigCompare_spec (x y : TrigSum) : orderSays (trigCompare x y) (trigVal x) (trigVal y) := by
  have hv : trigVal (trigAdd x (trigScale (mkRat (-1) 1) y)) = trigVal x - trigVal y := by
    rw [trigAdd_val, trigScale_val, show mkRat (-1) 1 = -1 by decide]; push_cast; ring
  rcases trigSign_spec (trigAdd x (trigScale (mkRat (-1) 1) y)) with ⟨h, h'⟩ | ⟨h, h'⟩ | ⟨h, h'⟩ <;> rw [hv] at h' <;>
    rw [trigCompare, h]
  · exact orderSays_of_gt (by linarith)
  · exact orderSays_of_lt (by linarith)
  · exact orderSays_of_eq (by linarith)

theorem compareBall_spec {p : Nat} {a b : Quantity} {o : Ordering} (h : Quantity.compareBall p a b = some o) :
    orderSays o a.val b.val := by
  unfold Quantity.compareBall at h
  split at h
  · rename_i m n hm hn
    have h1 := abs_le.mp (Quantity.ball_holds hm)
    have h2 := abs_le.mp (Quantity.ball_holds hn)
    simp only [ratLt_iff, ratAdd_eq, ratSub_eq] at h
    split_ifs at h with h3 h4
    · cases h
      have : (m.mid : ℝ) + m.rad < n.mid - n.rad := by exact_mod_cast h3
      exact orderSays_of_lt (by linarith [h1.2, h2.1])
    · cases h
      have : (n.mid : ℝ) + n.rad < m.mid - m.rad := by exact_mod_cast h4
      exact orderSays_of_gt (by linarith [h1.1, h2.2])
  · cases h

end Sys2Proof
end

