-- ==== Sys2Proof/Laws/Compare.lean ====
section
/-! SUPPORT. The enclosures become as narrow as one likes, so that the comparison and the floor of Machine/Real.lean are
those of the real numbers. -/

namespace Sys2Proof

open Machine Real Filter Topology

/-! ## Convergence -/

/-- From some precision on the number has enclosures narrower than any bound. -/
def Quantity.Narrows (a : Quantity) : Prop :=
  ∀ e : ℝ, 0 < e → ∃ P, ∀ p, P ≤ p → ∃ b, a.ball p = some b ∧ (b.rad : ℝ) < e

theorem exists_small_pow (c e : ℝ) (he : 0 < e) : ∃ P : ℕ, ∀ p, P ≤ p → c / 2 ^ p < e := by
  have h : Tendsto (fun p : ℕ => c * (1 / 2 : ℝ) ^ p) atTop (𝓝 (c * 0)) :=
    (tendsto_pow_atTop_nhds_zero_of_lt_one (by norm_num) (by norm_num)).const_mul c
  rw [mul_zero] at h
  obtain ⟨P, hP⟩ := eventually_atTop.mp (h.eventually (gt_mem_nhds he))
  refine ⟨P, fun p hp => ?_⟩
  have := hP p hp
  rwa [one_div, inv_pow, ← div_eq_mul_inv] at this

theorem Machine.Ball.Holds.rad_nonneg {b : Ball} {v : ℝ} (h : b.Holds v) : 0 ≤ (b.rad : ℝ) := (abs_nonneg _).trans h

theorem Machine.Ball.Holds.abs_mid_le {b : Ball} {v : ℝ} (h : b.Holds v) : |(b.mid : ℝ)| ≤ |v| + b.rad := by
  have := abs_sub_abs_le_abs_sub (b.mid : ℝ) v
  rw [abs_sub_comm] at this
  exact sub_le_iff_le_add'.mp (this.trans h)

theorem trigBall_rad_real (p : ℕ) (x : TrigSum) : ((trigBall p x).rad : ℝ) ≤ trigWeight x * 4 / 2 ^ p := by
  have h := (Rat.cast_le (K := ℝ)).mpr (trigBall_rad p x)
  push_cast at h
  exact h

theorem narrows_alg (x : TrigSum) : (Quantity.alg x).Narrows := by
  intro e he
  obtain ⟨P, hP⟩ := exists_small_pow (trigWeight x * 4) e he
  refine ⟨P, fun p hp => ⟨_, rfl, lt_of_le_of_lt (trigBall_rad_real p x) (hP p hp)⟩⟩

theorem narrows_turns (q : ℚ) : (Quantity.turns q).Narrows := by
  intro e he
  obtain ⟨P, hP⟩ := exists_small_pow (|(q : ℝ)| * (9 / 4)) e he
  refine ⟨P, fun p hp => ⟨_, rfl, lt_of_le_of_lt (le_of_eq ?_) (hP p hp)⟩⟩
  simp only [ballTurns, ratMul_eq, ratAbs_eq, Rat.mkRat_eq_div]
  push_cast
  field_simp

theorem narrows_given (n : ℕ) : (Quantity.given n).Narrows := by
  intro e he
  obtain ⟨P, hP⟩ := exists_small_pow 1 e he
  refine ⟨P, fun p hp => ⟨_, rfl, lt_of_le_of_lt (le_of_eq ?_) (hP p hp)⟩⟩
  simp only [Rat.mkRat_eq_div]
  push_cast
  rfl

theorem narrows_sum {a b : Quantity} (ha : a.Narrows) (hb : b.Narrows) : (Quantity.sum a b).Narrows := by
  intro e he
  obtain ⟨P, hP⟩ := ha (e / 2) (by linarith)
  obtain ⟨Q, hQ⟩ := hb (e / 2) (by linarith)
  refine ⟨max P Q, fun p hp => ?_⟩
  obtain ⟨m, hm, hm'⟩ := hP p (le_of_max_le_left hp)
  obtain ⟨n, hn, hn'⟩ := hQ p (le_of_max_le_right hp)
  refine ⟨ballAdd m n, by simp [Quantity.ball, hm, hn], ?_⟩
  simp only [ballAdd, ratAdd_eq]
  push_cast
  linarith

theorem narrows_prod {a b : Quantity} (ha : a.Narrows) (hb : b.Narrows) : (Quantity.prod a b).Narrows := by
  intro e he
  set K := |a.val| + |b.val| + 3 with hK
  have hK0 : 0 < K := by positivity
  obtain ⟨P, hP⟩ := ha (min 1 (e / K)) (by positivity)
  obtain ⟨Q, hQ⟩ := hb (min 1 (e / K)) (by positivity)
  refine ⟨max P Q, fun p hp => ?_⟩
  obtain ⟨m, hm, hm'⟩ := hP p (le_of_max_le_left hp)
  obtain ⟨n, hn, hn'⟩ := hQ p (le_of_max_le_right hp)
  refine ⟨ballMul m n, by simp [Quantity.ball, hm, hn], ?_⟩
  have h1 := Quantity.ball_holds hm
  have h2 := Quantity.ball_holds hn
  have m0 := h1.rad_nonneg
  have n0 := h2.rad_nonneg
  have ma := h1.abs_mid_le
  have na := h2.abs_mid_le
  simp only [ballMul, ratAdd_eq, ratMul_eq, ratAbs_eq]
  push_cast
  have hd : 0 < e / K := by positivity
  generalize hdd : e / K = d at *
  have hed : e = d * K := by rw [← hdd]; field_simp
  have m1 : (m.rad : ℝ) < 1 := lt_of_lt_of_le hm' (min_le_left _ _)
  have md : (m.rad : ℝ) < d := lt_of_lt_of_le hm' (min_le_right _ _)
  have n1 : (n.rad : ℝ) < 1 := lt_of_lt_of_le hn' (min_le_left _ _)
  have nd : (n.rad : ℝ) < d := lt_of_lt_of_le hn' (min_le_right _ _)
  have e1 : (m.rad : ℝ) * n.rad ≤ 1 * d := mul_le_mul m1.le nd.le n0 zero_le_one
  have e2 : |(m.mid : ℝ)| * n.rad ≤ (|a.val| + 1) * d :=
    mul_le_mul (by linarith) nd.le n0 (by positivity)
  have e3 : |(n.mid : ℝ)| * m.rad ≤ (|b.val| + 1) * d :=
    mul_le_mul (by linarith) md.le m0 (by positivity)
  rcases eq_or_lt_of_le m0 with hz | hz
  · have : (m.rad : ℝ) * n.rad < 1 * d := by rw [← hz]; simpa using hd
    rw [hed, hK]; nlinarith
  · have : (m.rad : ℝ) * n.rad < 1 * d := by
      calc (m.rad : ℝ) * n.rad < m.rad * d := by gcongr
        _ ≤ 1 * d := by gcongr
    rw [hed, hK]; nlinarith

theorem narrows_quot {a b : Quantity} (ha : a.Narrows) (hb : b.Narrows) (h0 : b.val ≠ 0) : (Quantity.quot a b).Narrows := by
  intro e he
  have hv : 0 < |b.val| := abs_pos.mpr h0
  generalize hV : |b.val| = V at *
  set K := |a.val| + V + 3 with hK
  have hK0 : 0 < K := by positivity
  set d := min 1 (min (V / 4) (e * (V / 2) ^ 2 / (2 * K))) with hd
  have hd0 : 0 < d := by positivity
  obtain ⟨P, hP⟩ := ha d hd0
  obtain ⟨Q, hQ⟩ := hb d hd0
  refine ⟨max P Q, fun p hp => ?_⟩
  obtain ⟨m, hm, hm'⟩ := hP p (le_of_max_le_left hp)
  obtain ⟨n, hn, hn'⟩ := hQ p (le_of_max_le_right hp)
  have h1 := Quantity.ball_holds hm
  have h2 := Quantity.ball_holds hn
  have m0 := h1.rad_nonneg
  have n0 := h2.rad_nonneg
  have ma := h1.abs_mid_le
  have na := h2.abs_mid_le
  have nb : V - n.rad ≤ |(n.mid : ℝ)| := by
    have h3 : |b.val - (n.mid : ℝ)| ≤ n.rad := h2
    have := abs_sub_abs_le_abs_sub b.val (n.mid : ℝ)
    rw [hV] at this
    linarith
  rw [hV] at na
  have d1 : d ≤ 1 := min_le_left _ _
  have d2 : d ≤ V / 4 := (min_le_right _ _).trans (min_le_left _ _)
  have d3 : d ≤ e * (V / 2) ^ 2 / (2 * K) := (min_le_right _ _).trans (min_le_right _ _)
  have hlt : (n.rad : ℝ) < |(n.mid : ℝ)| := by linarith
  have hlt' : n.rad < |n.mid| := by exact_mod_cast hlt
  refine ⟨_, by simp only [Quantity.ball, hm, hn, ballQuot, ratLt_iff, ratAbs_eq, hlt', if_true]; rfl, ?_⟩
  simp only [ratDiv_eq, ratAdd_eq, ratMul_eq, ratSub_eq]
  push_cast
  have hden : (V / 2) ^ 2 ≤ |(n.mid : ℝ)| * (|(n.mid : ℝ)| - n.rad) := by
    rw [sq]; exact mul_le_mul (by linarith) (by linarith) (by positivity) (by positivity)
  have hdp : 0 < (V / 2) ^ 2 := by positivity
  have hnum : (m.rad : ℝ) * |(n.mid : ℝ)| + |(m.mid : ℝ)| * n.rad ≤ d * K := by
    have e1 : (m.rad : ℝ) * |(n.mid : ℝ)| ≤ d * (V + 1) := mul_le_mul hm'.le (by linarith) (abs_nonneg _) hd0.le
    have e2 : |(m.mid : ℝ)| * n.rad ≤ (|a.val| + 1) * d := mul_le_mul (by linarith) hn'.le n0 (by positivity)
    rw [hK]; nlinarith
  have hnn : 0 ≤ (m.rad : ℝ) * |(n.mid : ℝ)| + |(m.mid : ℝ)| * n.rad := by positivity
  calc ((m.rad : ℝ) * |(n.mid : ℝ)| + |(m.mid : ℝ)| * n.rad) / (|(n.mid : ℝ)| * (|(n.mid : ℝ)| - n.rad))
      ≤ d * K / (V / 2) ^ 2 := div_le_div₀ (by positivity) hnum hdp hden
    _ ≤ (e * (V / 2) ^ 2 / (2 * K)) * K / (V / 2) ^ 2 := by gcongr
    _ = e / 2 := by field_simp
    _ < e := by linarith

theorem narrows_sqrt {a : Quantity} (ha : a.Narrows) : (Quantity.sqrtOf a).Narrows := by
  intro e he
  obtain ⟨P, hP⟩ := ha ((e / 2) ^ 2) (by positivity)
  obtain ⟨Q, hQ⟩ := exists_small_pow 2 (e / 2) (by linarith)
  refine ⟨max P Q, fun p hp => ?_⟩
  obtain ⟨m, hm, hm'⟩ := hP p (le_of_max_le_left hp)
  refine ⟨ballSqrt p m, by simp [Quantity.ball, hm], ?_⟩
  have h1 := (sqrtFix_bounds p m.rad).1
  have h2 : √(m.rad : ℝ) < e / 2 := by
    rw [Real.sqrt_lt' (by linarith)]; exact hm'
  have h3 := hQ p (le_of_max_le_right hp)
  simp only [ballSqrt, Rat.mkRat_eq_div]
  push_cast
  rw [add_div]
  linarith

theorem trigWeight_turn (q : ℚ) : trigWeight (cosTurn q) ≤ 1 := by
  have h : ∀ c : ℚ, c.num.natAbs ≤ 1 → ∀ a, trigWeight (trigInsert a c []) ≤ 1 := by
    intro c hc a
    unfold trigInsert
    split_ifs
    · simp [trigWeight]
    · simpa [trigWeight] using hc
  unfold cosTurn trigAddCos
  apply h
  rw [ratMul_eq, mkRat_one_one, one_mul]
  unfold turnFold
  simp only
  split_ifs
  · decide
  · decide
  · decide
  · change (mkRat (-1) 1).num.natAbs ≤ 1; decide
  · change (mkRat 1 1).num.natAbs ≤ 1; decide

theorem exists_large_piFix (c e : ℝ) (hc : 0 ≤ c) (he : 0 < e) :
    ∃ P : ℕ, ∀ p, P ≤ p → 0 < piFix p ∧ c / piFix p < e := by
  obtain ⟨P, hP⟩ := exists_small_pow c e he
  obtain ⟨Q, hQ⟩ := exists_small_pow (9 / 8) 1 one_pos
  refine ⟨max P Q, fun p hp => ?_⟩
  have h1 := hP p (le_of_max_le_left hp)
  have h2 := hQ p (le_of_max_le_right hp)
  have h3 := (abs_le.mp (piFix_error p).1).2
  generalize piFix p = N at *
  have hpow : (0 : ℝ) < 2 ^ p := by positivity
  have h4 : (1 : ℝ) < N / 2 ^ p := by
    have := Real.pi_gt_three
    linarith
  have h5 : (2 : ℝ) ^ p < N := by rwa [one_lt_div hpow] at h4
  have h6 : (0 : ℝ) < N := hpow.trans h5
  refine ⟨by exact_mod_cast h6, lt_of_le_of_lt ?_ h1⟩
  gcongr

theorem narrows_circle {a : Quantity} (ha : a.Narrows) {turn : Rat → TrigSum} (hw : ∀ q, trigWeight (turn q) ≤ 1) (e : ℝ)
    (he : 0 < e) :
    ∃ P, ∀ p, P ≤ p → ∃ m b, a.ball p = some m ∧ ballCircle p turn m = some b ∧ (b.rad : ℝ) < e := by
  obtain ⟨P, hP⟩ := ha (min 1 (e / 4)) (by positivity)
  obtain ⟨Q, hQ⟩ := exists_small_pow 4 (e / 4) (by linarith)
  obtain ⟨R, hR⟩ := exists_large_piFix ((|a.val| + 1) * (9 / 8)) (e / 4) (by positivity) (by linarith)
  refine ⟨max P (max Q R), fun p hp => ?_⟩
  obtain ⟨m, hm, hm'⟩ := hP p (le_of_max_le_left hp)
  have h2 := hQ p (le_of_max_le_left (le_of_max_le_right hp))
  obtain ⟨h3, h4⟩ := hR p (le_of_max_le_right (le_of_max_le_right hp))
  have hold := Quantity.ball_holds hm
  have ma := hold.abs_mid_le
  have m1 : (m.rad : ℝ) < 1 := lt_of_lt_of_le hm' (min_le_left _ _)
  have m2 : (m.rad : ℝ) < e / 4 := lt_of_lt_of_le hm' (min_le_right _ _)
  refine ⟨m, _, hm, by simp only [ballCircle, if_pos h3]; rfl, ?_⟩
  have hrad : ∀ q, ((trigBall p (turn q)).rad : ℝ) ≤ 4 / 2 ^ p := by
    intro q
    refine (trigBall_rad_real p (turn q)).trans ?_
    have h7 : (trigWeight (turn q) : ℝ) ≤ 1 := by exact_mod_cast hw q
    have hpow : (0 : ℝ) < 2 ^ p := by positivity
    gcongr
    linarith
  have h8 := hrad (ratMul m.mid (mkRat (2 ^ p) (2 * (piFix p).toNat)))
  generalize ratMul m.mid (mkRat (2 ^ p) (2 * (piFix p).toNat)) = q at h8 ⊢
  generalize piFix p = N at *
  have hn : ((N.toNat : ℕ) : ℝ) = N := by exact_mod_cast Int.toNat_of_nonneg h3.le
  have hN : (0 : ℝ) < N := by exact_mod_cast h3
  simp only [ratAdd_eq, ratMul_eq, ratAbs_eq, Rat.mkRat_eq_div]
  push_cast
  rw [hn]
  have h9 : |(m.mid : ℝ)| * (9 / (8 * N)) ≤ (|a.val| + 1) * (9 / 8) / N := by
    rw [show (|a.val| + 1) * (9 / 8) / (N : ℝ) = (|a.val| + 1) * (9 / (8 * N)) by field_simp]
    gcongr
    linarith
  linarith

theorem narrows_sin {a : Quantity} (ha : a.Narrows) : (Quantity.sinOf a).Narrows := by
  intro e he
  obtain ⟨P, hP⟩ := narrows_circle ha (turn := sinTurn) (fun q => trigWeight_turn _) e he
  refine ⟨P, fun p hp => ?_⟩
  obtain ⟨m, b, hm, hb, hr⟩ := hP p hp
  exact ⟨b, by simp [Quantity.ball, hm, hb], hr⟩

theorem narrows_cos {a : Quantity} (ha : a.Narrows) : (Quantity.cosOf a).Narrows := by
  intro e he
  obtain ⟨P, hP⟩ := narrows_circle ha (turn := cosTurn) trigWeight_turn e he
  refine ⟨P, fun p hp => ?_⟩
  obtain ⟨m, b, hm, hb, hr⟩ := hP p hp
  exact ⟨b, by simp [Quantity.ball, hm, hb], hr⟩

/-- Every number that is defined has enclosures as narrow as one likes. -/
theorem Quantity.Defined.narrows {a : Quantity} (h : a.Defined) : a.Narrows := by
  induction a with
  | alg x => exact narrows_alg x
  | turns q => exact narrows_turns q
  | given n => exact narrows_given n
  | sum a b iha ihb => exact narrows_sum (iha h.1) (ihb h.2)
  | prod a b iha ihb => exact narrows_prod (iha h.1) (ihb h.2)
  | quot a b iha ihb => exact narrows_quot (iha h.1) (ihb h.2.1) h.2.2
  | sinOf a ih => exact narrows_sin (ih h)
  | cosOf a ih => exact narrows_cos (ih h)
  | sqrtOf a ih => exact narrows_sqrt (ih h.1)

/-- A number that has an enclosure at one precision has enclosures as narrow as one likes. -/
theorem Quantity.narrows_of_ball {p : ℕ} {a : Quantity} {w : Ball} (h : a.ball p = some w) : a.Narrows := by
  induction a generalizing w with
  | alg x => exact narrows_alg x
  | turns q => exact narrows_turns q
  | given n => exact narrows_given n
  | sum a b iha ihb =>
    unfold Quantity.ball at h
    split at h
    · rename_i m n hm hn
      exact narrows_sum (iha hm) (ihb hn)
    · cases h
  | prod a b iha ihb =>
    unfold Quantity.ball at h
    split at h
    · rename_i m n hm hn
      exact narrows_prod (iha hm) (ihb hn)
    · cases h
  | quot a b iha ihb =>
    unfold Quantity.ball at h
    split at h
    · rename_i m n ha hb
      refine narrows_quot (iha ha) (ihb hb) ?_
      unfold ballQuot at h
      split_ifs at h with h1
      simp only [ratLt_iff, ratAbs_eq] at h1
      have h2 : (n.rad : ℝ) < |(n.mid : ℝ)| := by exact_mod_cast h1
      have h3 := Quantity.ball_holds hb
      intro h0
      have h4 : |b.val - (n.mid : ℝ)| ≤ n.rad := h3
      rw [h0, zero_sub, abs_neg] at h4
      linarith
    · cases h
  | sinOf a ih =>
    unfold Quantity.ball at h
    split at h
    · rename_i m hm
      exact narrows_sin (ih hm)
    · cases h
  | cosOf a ih =>
    unfold Quantity.ball at h
    split at h
    · rename_i m hm
      exact narrows_cos (ih hm)
    · cases h
  | sqrtOf a ih =>
    unfold Quantity.ball at h
    split at h
    · rename_i m hm
      exact narrows_sqrt (ih hm)
    · cases h

/-! ## The comparison -/

theorem Quantity.compareSearch_some {a b : Quantity} {p : ℕ} {o : Ordering} (h : Quantity.compareSearch a b p = some o) :
    orderSays o a.val b.val := by
  refine Quantity.compareSearch.partial_correctness a b (fun _ o => orderSays o a.val b.val) ?_ p o h
  intro f ih p o h
  split at h
  · rename_i o' ho
    cases h
    exact compareBall_spec ho
  · exact ih _ _ h

theorem Quantity.compareSearch_none {a b : Quantity} {p : ℕ} (h : Quantity.compareSearch a b p = none) (k : ℕ) :
    Quantity.compareBall (p + 40 * k) a b = none := by
  induction k generalizing p with
  | zero =>
    rw [Quantity.compareSearch] at h
    split at h
    · cases h
    · assumption
  | succ k ih =>
    rw [Quantity.compareSearch] at h
    split at h
    · cases h
    · have := ih h
      rwa [show p + 40 * (k + 1) = p + 40 + 40 * k by ring]

/-- Two numbers that no enclosures hold apart are equal. -/
theorem eq_of_never_apart {a b : Quantity} (ha : a.Narrows) (hb : b.Narrows) {p : ℕ}
    (h : ∀ k, Quantity.compareBall (p + 40 * k) a b = none) : a.val = b.val := by
  by_contra hne
  have hd : 0 < |a.val - b.val| := abs_pos.mpr (sub_ne_zero.mpr hne)
  obtain ⟨P, hP⟩ := ha (|a.val - b.val| / 4) (by linarith)
  obtain ⟨Q, hQ⟩ := hb (|a.val - b.val| / 4) (by linarith)
  obtain ⟨m, hm, hm'⟩ := hP (p + 40 * (P + Q)) (by omega)
  obtain ⟨n, hn, hn'⟩ := hQ (p + 40 * (P + Q)) (by omega)
  have h0 := h (P + Q)
  have h1 := abs_le.mp (Quantity.ball_holds hm)
  have h2 := abs_le.mp (Quantity.ball_holds hn)
  simp only [Quantity.compareBall, hm, hn, ratLt_iff, ratAdd_eq, ratSub_eq] at h0
  split_ifs at h0 with h3 h4
  have h3' : (n.mid : ℝ) - n.rad ≤ m.mid + m.rad := by exact_mod_cast not_lt.mp h3
  have h4' : (m.mid : ℝ) - m.rad ≤ n.mid + n.rad := by exact_mod_cast not_lt.mp h4
  rcases abs_cases (a.val - b.val) with ⟨he, _⟩ | ⟨he, _⟩ <;> rw [he] at hm' hn' <;> linarith [h1.1, h1.2, h2.1, h2.2]

theorem Quantity.compareCore_narrows {a b : Quantity} (ha : a.Narrows) (hb : b.Narrows) :
    orderSays (Quantity.compareCore a b) a.val b.val := by
  unfold Quantity.compareCore
  split_ifs with h
  · exact orderSays_of_eq (by rw [h])
  · split
    · rename_i p q hp hq
      rw [Quantity.rat?_val hp, Quantity.rat?_val hq]
      obtain ⟨h1, h2, h3⟩ := ratCompare_spec p q
      exact ⟨h1.trans (by norm_cast), h2.trans (by norm_cast), h3.trans (by norm_cast)⟩
    · split
      · rename_i o ho; exact compareBall_spec ho
      · split
        · rename_i x y hx hy
          rw [Quantity.trig?_val hx, Quantity.trig?_val hy]
          exact trigCompare_spec x y
        · cases hs : Quantity.compareSearch a b 80 with
          | some o => exact Quantity.compareSearch_some hs
          | none => exact orderSays_of_eq (eq_of_never_apart ha hb (Quantity.compareSearch_none hs))

/-- The comparison of two defined numbers is the order of the reals (rule R4). -/
theorem Quantity.compare_spec {a b : Quantity} (ha : a.Defined) (hb : b.Defined) :
    orderSays (Quantity.compare a b) a.val b.val := by
  unfold Quantity.compare
  split
  · obtain ⟨h1, h2, h3⟩ := Quantity.compareCore_narrows ha.1.narrows hb.1.narrows
    exact ⟨h1.trans (Real.sqrt_lt_sqrt_iff ha.2).symm, h2.trans (Real.sqrt_inj ha.2 hb.2).symm,
      h3.trans (Real.sqrt_lt_sqrt_iff hb.2).symm⟩
  · exact Quantity.compareCore_narrows ha.narrows hb.narrows

theorem Quantity.lt_iff {a b : Quantity} (ha : a.Defined) (hb : b.Defined) : Quantity.lt a b = true ↔ a.val < b.val := by
  rw [Quantity.lt, beq_iff_eq]; exact (Quantity.compare_spec ha hb).1

theorem Quantity.eq_iff {a b : Quantity} (ha : a.Defined) (hb : b.Defined) : Quantity.eq a b = true ↔ a.val = b.val := by
  rw [Quantity.eq, beq_iff_eq]; exact (Quantity.compare_spec ha hb).2.1

theorem Quantity.gt_iff {a b : Quantity} (ha : a.Defined) (hb : b.Defined) : Quantity.gt a b = true ↔ b.val < a.val := by
  rw [Quantity.gt, beq_iff_eq]; exact (Quantity.compare_spec ha hb).2.2

theorem Quantity.nonPos_iff {a : Quantity} (ha : a.Defined) : Quantity.nonPos a = true ↔ a.val ≤ 0 := by
  have h := Quantity.gt_iff ha (b := Quantity.zero) trivial
  rw [Quantity.zero_val] at h
  rw [Quantity.nonPos, Bool.not_eq_true', ← not_lt, ← h, Bool.not_eq_true]

/-- A number found positive is positive, whatever expression denotes it. -/
theorem Quantity.pos_of_nonPos {a : Quantity} (h : Quantity.nonPos a = false) : 0 < a.val ∧ a.Narrows := by
  have hgt : Quantity.compareCore a Quantity.zero = .gt := by
    have h1 : Quantity.gt a Quantity.zero = true := by simpa [Quantity.nonPos] using h
    rw [Quantity.gt, beq_iff_eq] at h1
    unfold Quantity.compare at h1
    split at h1
    · rename_i hz; cases hz
    · exact h1
  have hn : a.Narrows := by
    unfold Quantity.compareCore at hgt
    split_ifs at hgt with h0
    · split at hgt
      · rename_i p q hp hq
        unfold Quantity.rat? at hp
        split at hp
        · exact narrows_alg _
        · exact narrows_alg _
        · cases hp
      · split at hgt
        · rename_i o ho
          unfold Quantity.compareBall at ho
          split at ho
          · rename_i m n hm hn; exact Quantity.narrows_of_ball hm
          · cases ho
        · split at hgt
          · rename_i x y hx hy
            have : ∀ {a : Quantity} {x}, a.trig? = some x → a.Narrows := by
              intro a
              induction a with
              | alg y => intros; exact narrows_alg y
              | sum a b iha ihb =>
                intro x h
                unfold Quantity.trig? at h
                split at h
                · rename_i y z hy hz; exact narrows_sum (iha hy) (ihb hz)
                · cases h
              | prod a b iha ihb =>
                intro x h
                unfold Quantity.trig? at h
                split at h
                · rename_i y z hy hz; exact narrows_prod (iha hy) (ihb hz)
                · cases h
              | _ => intro x h; cases h
            exact this hx
          · cases hs : Quantity.compareSearch a Quantity.zero 80 with
            | none => rw [hs] at hgt; cases hgt
            | some o =>
              have : ∃ p w, Quantity.ball p a = some w := by
                refine Quantity.compareSearch.partial_correctness a Quantity.zero
                  (fun _ _ => ∃ p w, Quantity.ball p a = some w) ?_ 80 o hs
                intro f ih p o h
                split at h
                · rename_i o' ho
                  unfold Quantity.compareBall at ho
                  split at ho
                  · rename_i m n hm hn; exact ⟨p, m, hm⟩
                  · cases ho
                · exact ih _ _ h
              obtain ⟨p, w, hw⟩ := this
              exact Quantity.narrows_of_ball hw
  have hs := Quantity.compareCore_narrows hn (narrows_alg [])
  exact ⟨hs.2.2.mp hgt, hn⟩

/-! ## The floor -/

theorem Quantity.floorSearch_some {a : Quantity} {p n : ℕ} (h : Quantity.floorSearch a p = some n) :
    n = ⌊a.val⌋.toNat := by
  refine Quantity.floorSearch.partial_correctness a (fun _ n => n = ⌊a.val⌋.toNat) ?_ p n h
  intro f ih p n h
  split at h
  · rename_i m hm
    simp only [ratFloor_eq, ratSub_eq, ratAdd_eq] at h
    split_ifs at h with hf
    · cases h
      have hb := abs_le.mp (Quantity.ball_holds hm)
      have h0 : 0 ≤ (m.rad : ℝ) := (Quantity.ball_holds hm).rad_nonneg
      have h0' : 0 ≤ m.rad := by exact_mod_cast h0
      have e1 : ⌊((m.mid - m.rad : ℚ) : ℝ)⌋ = ⌊m.mid - m.rad⌋ := Rat.floor_cast _
      have e2 : ⌊((m.mid + m.rad : ℚ) : ℝ)⌋ = ⌊m.mid + m.rad⌋ := Rat.floor_cast _
      have l1 : ⌊m.mid - m.rad⌋ ≤ ⌊a.val⌋ := by
        rw [← e1]; apply Int.floor_le_floor; push_cast; linarith [hb.1]
      have l2 : ⌊a.val⌋ ≤ ⌊m.mid + m.rad⌋ := by
        rw [← e2]; apply Int.floor_le_floor; push_cast; linarith [hb.2]
      have l3 : ⌊m.mid - m.rad⌋ ≤ ⌊m.mid⌋ := Int.floor_le_floor (by linarith)
      have l4 : ⌊m.mid⌋ ≤ ⌊m.mid + m.rad⌋ := Int.floor_le_floor (by linarith)
      congr 1
      omega
    · exact ih _ _ h
  · exact ih _ _ h

theorem Quantity.floorSearch_none {a : Quantity} {p : ℕ} (h : Quantity.floorSearch a p = none) (k : ℕ) :
    ∀ m, Quantity.ball (p + 40 * k) a = some m → ⌊m.mid - m.rad⌋ ≠ ⌊m.mid + m.rad⌋ := by
  induction k generalizing p with
  | zero =>
    intro m hm
    rw [Nat.mul_zero, Nat.add_zero] at hm
    rw [Quantity.floorSearch, hm] at h
    simp only [ratFloor_eq, ratSub_eq, ratAdd_eq] at h
    split_ifs at h with hf
    exact hf
  | succ k ih =>
    have h' : Quantity.floorSearch a (p + 40) = none := by
      rw [Quantity.floorSearch] at h
      split at h
      · split_ifs at h
        exact h
      · exact h
    rw [show p + 40 * (k + 1) = p + 40 + 40 * k by ring]
    exact ih h'

/-- A number for which the search finds no floor is an integer. -/
theorem Quantity.floorSearch_none_int {a : Quantity} (ha : a.Narrows) {p : ℕ} (h : Quantity.floorSearch a p = none) :
    a.val = ⌊a.val⌋ := by
  by_contra hne
  have h1 : (⌊a.val⌋ : ℝ) < a.val := lt_of_le_of_ne (Int.floor_le _) (Ne.symm hne)
  have h2 := Int.lt_floor_add_one a.val
  obtain ⟨P, hP⟩ := ha (min (a.val - ⌊a.val⌋) (⌊a.val⌋ + 1 - a.val) / 2)
    (by have := lt_min (sub_pos.mpr h1) (sub_pos.mpr h2); linarith)
  obtain ⟨m, hm, hr⟩ := hP (p + 40 * P) (by omega)
  have hb := abs_le.mp (Quantity.ball_holds hm)
  have r1 : min (a.val - ⌊a.val⌋) (⌊a.val⌋ + 1 - a.val) ≤ a.val - ⌊a.val⌋ := min_le_left _ _
  have r2 : min (a.val - ⌊a.val⌋) (⌊a.val⌋ + 1 - a.val) ≤ ⌊a.val⌋ + 1 - a.val := min_le_right _ _
  have e1 : ⌊m.mid - m.rad⌋ = ⌊a.val⌋ := by
    rw [← Rat.floor_cast (α := ℝ), Int.floor_eq_iff]
    push_cast
    constructor <;> linarith [hb.1, hb.2]
  have e2 : ⌊m.mid + m.rad⌋ = ⌊a.val⌋ := by
    rw [← Rat.floor_cast (α := ℝ), Int.floor_eq_iff]
    push_cast
    constructor <;> linarith [hb.1, hb.2]
  exact Quantity.floorSearch_none h P m hm (e1.trans e2.symm)

theorem Quantity.nearestSearch_some {a : Quantity} (hi : a.val = ⌊a.val⌋) {p n : ℕ}
    (h : Quantity.nearestSearch a p = some n) : n = ⌊a.val⌋.toNat := by
  refine Quantity.nearestSearch.partial_correctness a (fun _ n => n = ⌊a.val⌋.toNat) ?_ p n h
  intro f ih p n h
  split at h
  · rename_i m hm
    simp only [ratFloor_eq, ratAdd_eq, ratLt_iff, Rat.mkRat_eq_div] at h
    split_ifs at h with hf
    · cases h
      have hb := abs_le.mp (Quantity.ball_holds hm)
      have hr : (m.rad : ℝ) < 1 / 2 := by
        have h9 : m.rad < 1 / 2 := by simpa using hf
        have h10 := (Rat.cast_lt (K := ℝ)).mpr h9
        push_cast at h10
        exact h10
      congr 1
      rw [← Rat.floor_cast (α := ℝ), Int.floor_eq_iff]
      rw [hi] at hb
      push_cast
      constructor <;> linarith [hb.1, hb.2]
    · exact ih _ _ h
  · exact ih _ _ h

theorem Quantity.nearestSearch_isSome {a : Quantity} (ha : a.Narrows) (p : ℕ) : (Quantity.nearestSearch a p).isSome := by
  obtain ⟨P, hP⟩ := ha (1 / 2) (by norm_num)
  have key : ∀ k p, P ≤ p + 40 * k → (Quantity.nearestSearch a p).isSome := by
    intro k
    induction k with
    | zero =>
      intro p hp
      obtain ⟨m, hm, hr⟩ := hP p (by omega)
      have hr' : m.rad < mkRat 1 2 := by
        have h2 : mkRat 1 2 = 1 / 2 := by rw [Rat.mkRat_eq_div]; norm_num
        rw [h2]
        apply (Rat.cast_lt (K := ℝ)).mp
        push_cast
        exact hr
      rw [Quantity.nearestSearch, hm]
      simp [hr']
    | succ k ih =>
      intro p hp
      rw [Quantity.nearestSearch]
      split
      · split_ifs
        · rfl
        · exact ih _ (by omega)
      · exact ih _ (by omega)
  exact key P p (by omega)

/-- The floor of a quotient is the floor of the real quotient (rule R6). -/
theorem Quantity.floorDiv_narrows {a b : Quantity} (ha : a.Narrows) (hb : b.Narrows) (h0 : b.val ≠ 0) :
    Quantity.floorDiv a b = ⌊a.val / b.val⌋.toNat := by
  unfold Quantity.floorDiv
  split
  · rename_i p q hp hq
    rw [Quantity.rat?_val hp, Quantity.rat?_val hq]
    simp only [ratFloor_eq, ratDiv_eq]
    congr 1
    exact_mod_cast (Rat.floor_cast (α := ℝ) (p / q)).symm
  · have hn := narrows_quot ha hb h0
    cases hs : Quantity.floorSearch (.quot a b) 40 with
    | some n => exact Quantity.floorSearch_some hs
    | none =>
      have hi := Quantity.floorSearch_none_int hn hs
      obtain ⟨n, hf⟩ := Option.isSome_iff_exists.mp (Quantity.nearestSearch_isSome hn 40)
      simp only [hf, Option.getD_some]
      exact Quantity.nearestSearch_some hi hf

theorem Quantity.floorDiv_defined {a b : Quantity} (ha : a.Defined) (hb : b.Defined) (h0 : b.val ≠ 0) :
    Quantity.floorDiv a b = ⌊a.val / b.val⌋.toNat := Quantity.floorDiv_narrows ha.narrows hb.narrows h0

end Sys2Proof
end

