-- ==== Sys2Proof/Laws/State.lean ====
section
/-! SUPPORT. What each state update does to each field, one lemma per field per update. -/

namespace Sys2Proof.Machine

/-! ## `setTx` -/

@[simp] theorem setTx_tx (u : TxUnit) (s : State) : (setTx u s).tx = u := rfl
@[simp] theorem setTx_rx (u : TxUnit) (s : State) : (setTx u s).rx = s.rx := rfl
@[simp] theorem setTx_err (u : TxUnit) (s : State) : (setTx u s).err = s.err := rfl
@[simp] theorem setTx_txout (u : TxUnit) (s : State) : (setTx u s).txout = s.txout := rfl
@[simp] theorem setTx_rxout (u : TxUnit) (s : State) : (setTx u s).rxout = s.rxout := rfl
@[simp] theorem setTx_rsp (u : TxUnit) (s : State) : (setTx u s).rsp = s.rsp := rfl
@[simp] theorem setTx_port (u : TxUnit) (s : State) : (setTx u s).port = s.port := rfl
@[simp] theorem setTx_input (u : TxUnit) (s : State) : (setTx u s).input = s.input := rfl

/-! ## `setRx` -/

@[simp] theorem setRx_tx (u : RxUnit) (s : State) : (setRx u s).tx = s.tx := rfl
@[simp] theorem setRx_rx (u : RxUnit) (s : State) : (setRx u s).rx = u := rfl
@[simp] theorem setRx_err (u : RxUnit) (s : State) : (setRx u s).err = s.err := rfl
@[simp] theorem setRx_txout (u : RxUnit) (s : State) : (setRx u s).txout = s.txout := rfl
@[simp] theorem setRx_rxout (u : RxUnit) (s : State) : (setRx u s).rxout = s.rxout := rfl
@[simp] theorem setRx_rsp (u : RxUnit) (s : State) : (setRx u s).rsp = s.rsp := rfl
@[simp] theorem setRx_port (u : RxUnit) (s : State) : (setRx u s).port = s.port := rfl
@[simp] theorem setRx_input (u : RxUnit) (s : State) : (setRx u s).input = s.input := rfl

/-! ## `orErr` -/

@[simp] theorem orErr_tx (e : ErrBits) (s : State) : (orErr e s).tx = s.tx := rfl
@[simp] theorem orErr_rx (e : ErrBits) (s : State) : (orErr e s).rx = s.rx := rfl
@[simp] theorem orErr_err (e : ErrBits) (s : State) : (orErr e s).err = s.err ||| e := rfl
@[simp] theorem orErr_txout (e : ErrBits) (s : State) : (orErr e s).txout = s.txout := rfl
@[simp] theorem orErr_rxout (e : ErrBits) (s : State) : (orErr e s).rxout = s.rxout := rfl
@[simp] theorem orErr_rsp (e : ErrBits) (s : State) : (orErr e s).rsp = s.rsp := rfl
@[simp] theorem orErr_port (e : ErrBits) (s : State) : (orErr e s).port = s.port := rfl
@[simp] theorem orErr_input (e : ErrBits) (s : State) : (orErr e s).input = s.input := rfl

/-! ## `emitTx` -/

@[simp] theorem emitTx_tx (v : Quantity × Quantity) (s : State) : (emitTx v s).tx = s.tx := rfl
@[simp] theorem emitTx_rx (v : Quantity × Quantity) (s : State) : (emitTx v s).rx = s.rx := rfl
@[simp] theorem emitTx_err (v : Quantity × Quantity) (s : State) : (emitTx v s).err = s.err := rfl
@[simp] theorem emitTx_txout (v : Quantity × Quantity) (s : State) : (emitTx v s).txout = s.txout ++ [v] := rfl
@[simp] theorem emitTx_rxout (v : Quantity × Quantity) (s : State) : (emitTx v s).rxout = s.rxout := rfl
@[simp] theorem emitTx_rsp (v : Quantity × Quantity) (s : State) : (emitTx v s).rsp = s.rsp := rfl
@[simp] theorem emitTx_port (v : Quantity × Quantity) (s : State) : (emitTx v s).port = s.port := rfl
@[simp] theorem emitTx_input (v : Quantity × Quantity) (s : State) : (emitTx v s).input = s.input := rfl

/-! ## `emitRx` -/

@[simp] theorem emitRx_tx (b : Bit) (s : State) : (emitRx b s).tx = s.tx := rfl
@[simp] theorem emitRx_rx (b : Bit) (s : State) : (emitRx b s).rx = s.rx := rfl
@[simp] theorem emitRx_err (b : Bit) (s : State) : (emitRx b s).err = s.err := rfl
@[simp] theorem emitRx_txout (b : Bit) (s : State) : (emitRx b s).txout = s.txout := rfl
@[simp] theorem emitRx_rxout (b : Bit) (s : State) : (emitRx b s).rxout = s.rxout ++ [b] := rfl
@[simp] theorem emitRx_rsp (b : Bit) (s : State) : (emitRx b s).rsp = s.rsp := rfl
@[simp] theorem emitRx_port (b : Bit) (s : State) : (emitRx b s).port = s.port := rfl
@[simp] theorem emitRx_input (b : Bit) (s : State) : (emitRx b s).input = s.input := rfl

/-! ## `respond` -/

@[simp] theorem respond_tx (c : Response) (s : State) : (respond c s).tx = s.tx := rfl
@[simp] theorem respond_rx (c : Response) (s : State) : (respond c s).rx = s.rx := rfl
@[simp] theorem respond_err (c : Response) (s : State) : (respond c s).err = s.err := rfl
@[simp] theorem respond_txout (c : Response) (s : State) : (respond c s).txout = s.txout := rfl
@[simp] theorem respond_rxout (c : Response) (s : State) : (respond c s).rxout = s.rxout := rfl
@[simp] theorem respond_rsp (c : Response) (s : State) : (respond c s).rsp = s.rsp ++ [c] := rfl
@[simp] theorem respond_port (c : Response) (s : State) : (respond c s).port = .none := rfl
@[simp] theorem respond_input (c : Response) (s : State) : (respond c s).input = s.input := rfl

/-! ## `raise` -/

@[simp] theorem raise_tx (c : Response) (cs : List Response) (s : State) : (raise c cs s).tx = s.tx := rfl
@[simp] theorem raise_rx (c : Response) (cs : List Response) (s : State) : (raise c cs s).rx = s.rx := rfl
@[simp] theorem raise_err (c : Response) (cs : List Response) (s : State) : (raise c cs s).err = s.err ||| errBits (c :: cs) := rfl
@[simp] theorem raise_txout (c : Response) (cs : List Response) (s : State) : (raise c cs s).txout = s.txout := rfl
@[simp] theorem raise_rxout (c : Response) (cs : List Response) (s : State) : (raise c cs s).rxout = s.rxout := rfl
@[simp] theorem raise_rsp (c : Response) (cs : List Response) (s : State) : (raise c cs s).rsp = s.rsp ++ [c] := rfl
@[simp] theorem raise_port (c : Response) (cs : List Response) (s : State) : (raise c cs s).port = .none := rfl
@[simp] theorem raise_input (c : Response) (cs : List Response) (s : State) : (raise c cs s).input = s.input := rfl

/-! ## `deliver` -/

@[simp] theorem deliver_tx (p : Payload) (rest : List HostEvent) (s : State) : (deliver p rest s).tx = s.tx := rfl
@[simp] theorem deliver_rx (p : Payload) (rest : List HostEvent) (s : State) : (deliver p rest s).rx = s.rx := rfl
@[simp] theorem deliver_err (p : Payload) (rest : List HostEvent) (s : State) : (deliver p rest s).err = s.err := rfl
@[simp] theorem deliver_txout (p : Payload) (rest : List HostEvent) (s : State) : (deliver p rest s).txout = s.txout := rfl
@[simp] theorem deliver_rxout (p : Payload) (rest : List HostEvent) (s : State) : (deliver p rest s).rxout = s.rxout := rfl
@[simp] theorem deliver_rsp (p : Payload) (rest : List HostEvent) (s : State) : (deliver p rest s).rsp = s.rsp := rfl
@[simp] theorem deliver_port (p : Payload) (rest : List HostEvent) (s : State) : (deliver p rest s).port = p := rfl
@[simp] theorem deliver_input (p : Payload) (rest : List HostEvent) (s : State) : (deliver p rest s).input = rest := rfl

/-! ## `openTx` -/

@[simp] theorem openTx_st (m : Mode) (P : Params) (u : TxUnit) : (openTx m P u).st = .active := rfl
@[simp] theorem openTx_mode (m : Mode) (P : Params) (u : TxUnit) : (openTx m P u).mode = m := rfl
@[simp] theorem openTx_f0 (m : Mode) (P : Params) (u : TxUnit) : (openTx m P u).f0 = P.freq0 := rfl
@[simp] theorem openTx_f1 (m : Mode) (P : Params) (u : TxUnit) : (openTx m P u).f1 = P.freq1 := rfl
@[simp] theorem openTx_fs (m : Mode) (P : Params) (u : TxUnit) : (openTx m P u).fs = P.samplingRate := rfl
@[simp] theorem openTx_br (m : Mode) (P : Params) (u : TxUnit) : (openTx m P u).br = P.baudRate := rfl
@[simp] theorem openTx_sps (m : Mode) (P : Params) (u : TxUnit) : (openTx m P u).sps = samplesPerSymbol P := rfl
@[simp] theorem openTx_tsym (m : Mode) (P : Params) (u : TxUnit) : (openTx m P u).tsym = symbolDuration P := rfl
@[simp] theorem openTx_n (m : Mode) (P : Params) (u : TxUnit) : (openTx m P u).n = 0 := rfl
@[simp] theorem openTx_phi (m : Mode) (P : Params) (u : TxUnit) : (openTx m P u).phi = Quantity.zero := rfl
@[simp] theorem openTx_written (m : Mode) (P : Params) (u : TxUnit) : (openTx m P u).written = true := rfl

/-! ## `dump` -/

@[simp] theorem dump_st (u : RxUnit) : (dump u).st = u.st := rfl
@[simp] theorem dump_f0 (u : RxUnit) : (dump u).f0 = u.f0 := rfl
@[simp] theorem dump_f1 (u : RxUnit) : (dump u).f1 = u.f1 := rfl
@[simp] theorem dump_fs (u : RxUnit) : (dump u).fs = u.fs := rfl
@[simp] theorem dump_br (u : RxUnit) : (dump u).br = u.br := rfl
@[simp] theorem dump_sps (u : RxUnit) : (dump u).sps = u.sps := rfl
@[simp] theorem dump_tsym (u : RxUnit) : (dump u).tsym = u.tsym := rfl
@[simp] theorem dump_k (u : RxUnit) : (dump u).k = 0 := rfl
@[simp] theorem dump_i0 (u : RxUnit) : (dump u).i0 = Quantity.zero := rfl
@[simp] theorem dump_q0 (u : RxUnit) : (dump u).q0 = Quantity.zero := rfl
@[simp] theorem dump_i1 (u : RxUnit) : (dump u).i1 = Quantity.zero := rfl
@[simp] theorem dump_q1 (u : RxUnit) : (dump u).q1 = Quantity.zero := rfl
@[simp] theorem dump_written (u : RxUnit) : (dump u).written = u.written := rfl

/-! ## `openRx` -/

@[simp] theorem openRx_st (P : Params) (u : RxUnit) : (openRx P u).st = .active := rfl
@[simp] theorem openRx_f0 (P : Params) (u : RxUnit) : (openRx P u).f0 = P.freq0 := rfl
@[simp] theorem openRx_f1 (P : Params) (u : RxUnit) : (openRx P u).f1 = P.freq1 := rfl
@[simp] theorem openRx_fs (P : Params) (u : RxUnit) : (openRx P u).fs = P.samplingRate := rfl
@[simp] theorem openRx_br (P : Params) (u : RxUnit) : (openRx P u).br = P.baudRate := rfl
@[simp] theorem openRx_sps (P : Params) (u : RxUnit) : (openRx P u).sps = samplesPerSymbol P := rfl
@[simp] theorem openRx_tsym (P : Params) (u : RxUnit) : (openRx P u).tsym = symbolDuration P := rfl
@[simp] theorem openRx_k (P : Params) (u : RxUnit) : (openRx P u).k = 0 := rfl
@[simp] theorem openRx_i0 (P : Params) (u : RxUnit) : (openRx P u).i0 = Quantity.zero := rfl
@[simp] theorem openRx_q0 (P : Params) (u : RxUnit) : (openRx P u).q0 = Quantity.zero := rfl
@[simp] theorem openRx_i1 (P : Params) (u : RxUnit) : (openRx P u).i1 = Quantity.zero := rfl
@[simp] theorem openRx_q1 (P : Params) (u : RxUnit) : (openRx P u).q1 = Quantity.zero := rfl
@[simp] theorem openRx_written (P : Params) (u : RxUnit) : (openRx P u).written = true := rfl

/-! ## `integrate` -/

@[simp] theorem integrate_st (x : Quantity) (u : RxUnit) : (integrate x u).st = u.st := rfl
@[simp] theorem integrate_f0 (x : Quantity) (u : RxUnit) : (integrate x u).f0 = u.f0 := rfl
@[simp] theorem integrate_f1 (x : Quantity) (u : RxUnit) : (integrate x u).f1 = u.f1 := rfl
@[simp] theorem integrate_fs (x : Quantity) (u : RxUnit) : (integrate x u).fs = u.fs := rfl
@[simp] theorem integrate_br (x : Quantity) (u : RxUnit) : (integrate x u).br = u.br := rfl
@[simp] theorem integrate_sps (x : Quantity) (u : RxUnit) : (integrate x u).sps = u.sps := rfl
@[simp] theorem integrate_tsym (x : Quantity) (u : RxUnit) : (integrate x u).tsym = u.tsym := rfl
@[simp] theorem integrate_k (x : Quantity) (u : RxUnit) : (integrate x u).k = u.k + 1 := rfl
@[simp] theorem integrate_i0 (x : Quantity) (u : RxUnit) : (integrate x u).i0 = Quantity.add u.i0 (Quantity.mul x (refCos u.f0 u.k u.fs)) := rfl
@[simp] theorem integrate_q0 (x : Quantity) (u : RxUnit) : (integrate x u).q0 = Quantity.add u.q0 (Quantity.mul x (refSin u.f0 u.k u.fs)) := rfl
@[simp] theorem integrate_i1 (x : Quantity) (u : RxUnit) : (integrate x u).i1 = Quantity.add u.i1 (Quantity.mul x (refCos u.f1 u.k u.fs)) := rfl
@[simp] theorem integrate_q1 (x : Quantity) (u : RxUnit) : (integrate x u).q1 = Quantity.add u.q1 (Quantity.mul x (refSin u.f1 u.k u.fs)) := rfl
@[simp] theorem integrate_written (x : Quantity) (u : RxUnit) : (integrate x u).written = u.written := rfl

end Sys2Proof.Machine
end

