-- ==== Sys2Proof/Laws/Meaning.lean ====
section
/-! SUPPORT. Everything a command can do, said once: `exec_next` splits a next state into a fault entry and the command's
own effect, and `exec_total` says that nothing else happens but a refusal for a payload of the wrong shape. -/

namespace Sys2Proof.Machine

/-- The fault entry of rule R109, for the causes the command has. -/
def Faulted (i : Instr) (s t : State) : Prop := ∃ c cs, FaultCauses i s c cs ∧ t = raise c cs s

/-- The command's own effect, where it completes. -/
def Completed : Instr → State → State → Prop
  | .nop, s, t => t = respond .ok s
  | .txstartF, s, t => s.tx.st = .idle ∧ ∃ P, s.port = .params P ∧ validate P = [] ∧
      t = respond .ok (setTx (openTx .fsk P s.tx) s)
  | .txstartC, s, t => s.tx.st = .idle ∧ ∃ P, s.port = .params P ∧ validate P = [] ∧
      t = respond .ok (setTx (openTx .cpfsk P s.tx) s)
  | .txsym v, s, t => s.tx.st = .active ∧
      t = respond .ok (txSteps (mapFreq v s.tx.f0 s.tx.f1) s.tx.sps s)
  | .txend, s, t => s.tx.st = .active ∧ t = respond .ok (setTx { s.tx with st := .idle } s)
  | .rxstart, s, t => s.rx.st = .idle ∧ ∃ P, s.port = .params P ∧ validate P = [] ∧
      t = respond .ok (setRx (openRx P s.rx) s)
  | .rxsamp, s, t => s.rx.st = .active ∧ ∃ x, s.port = .sample x ∧ t = respond .ok (takeSample x s)
  | .rxend, s, t => s.rx.st = .active ∧ t = respond .ok (setRx { dump s.rx with st := .idle } s)

theorem withParams_next {s : State} {f : Params → Result} {t : State} (h : withParams s f = .next t) :
    ∃ P, s.port = .params P ∧ f P = .next t := by
  unfold withParams at h
  split at h
  · exact ⟨_, ‹_›, h⟩
  · cases h
  · cases h

theorem withSample_next {s : State} {f : Quantity → Result} {t : State} (h : withSample s f = .next t) :
    ∃ x, s.port = .sample x ∧ f x = .next t := by
  unfold withSample at h
  split at h
  · exact ⟨_, ‹_›, h⟩
  · cases h
  · cases h

/-- The causes `Validate` finds are faults. -/
theorem validate_ne_ok {P : Params} {c : Response} (h : c ∈ validate P) : c ≠ .ok := by
  rintro rfl
  simp [validate] at h

/-- No cause is `OK`. -/
theorem FaultCauses.ne_ok {i : Instr} {s : State} {c : Response} {cs : List Response} (h : FaultCauses i s c cs) :
    c ≠ .ok := by
  rcases h with ⟨-, rfl, -⟩ | ⟨-, -, P, -, hv⟩
  · decide
  · exact validate_ne_ok (by rw [hv]; simp)

theorem openCall_next {P : Params} {s o t : State} (h : openCall P s o = .next t) :
    (∃ c cs, validate P = c :: cs ∧ t = raise c cs s) ∨ (validate P = [] ∧ t = respond .ok o) := by
  unfold openCall at h
  split at h
  · cases h; exact .inr ⟨‹_›, rfl⟩
  · cases h; exact .inl ⟨_, _, ‹_›, rfl⟩

theorem openCall_total (P : Params) (s o : State) : ∃ t, openCall P s o = .next t := by
  unfold openCall
  split <;> exact ⟨_, rfl⟩

theorem openCall_valid {P : Params} {s o : State} (h : validate P = []) : openCall P s o = .next (respond .ok o) := by
  simp [openCall, h]

theorem startTx_next {i : Instr} {m : Mode} {s t : State} (hi : isStart i = true)
    (hw : wrongState s i = decide (s.tx.st = .active)) (h : startTx m s = .next t) :
    Faulted i s t ∨ (s.tx.st = .idle ∧ ∃ P, s.port = .params P ∧ validate P = [] ∧
      t = respond .ok (setTx (openTx m P s.tx) s)) := by
  unfold startTx at h
  split at h
  · rename_i hs
    cases h; exact .inl ⟨_, _, .inl ⟨by rw [hw, hs]; rfl, rfl, rfl⟩, rfl⟩
  · rename_i hs
    obtain ⟨P, hp, h⟩ := withParams_next h
    rcases openCall_next h with ⟨c, cs, hv, rfl⟩ | ⟨hv, rfl⟩
    · exact .inl ⟨c, cs, .inr ⟨by rw [hw, hs]; rfl, hi, P, hp, hv⟩, rfl⟩
    · exact .inr ⟨‹_›, P, hp, hv, rfl⟩

/-- A next state is a fault entry or the command's own effect. -/
theorem exec_next {i : Instr} {s t : State} (h : exec i s = .next t) : Faulted i s t ∨ Completed i s t := by
  have hseq : ∀ t, wrongState s i = true → t = raise .sequenceError [] s → Faulted i s t :=
    fun t hw ht => ⟨_, _, .inl ⟨hw, rfl, rfl⟩, ht⟩
  cases i with
  | nop => cases h; exact .inr rfl
  | txstartF => exact startTx_next rfl rfl h
  | txstartC => exact startTx_next rfl rfl h
  | txsym v =>
    simp only [exec, execTxsym] at h
    split at h <;> cases h
    · exact .inl (hseq _ (by simp [wrongState, *]) rfl)
    · exact .inr ⟨‹_›, rfl⟩
  | txend =>
    simp only [exec, execTxend] at h
    split at h <;> cases h
    · exact .inl (hseq _ (by simp [wrongState, *]) rfl)
    · exact .inr ⟨‹_›, rfl⟩
  | rxstart =>
    simp only [exec, execRxstart] at h
    split at h
    · cases h; exact .inl (hseq _ (by simp [wrongState, *]) rfl)
    · rename_i hs
      obtain ⟨P, hp, h⟩ := withParams_next h
      rcases openCall_next h with ⟨c, cs, hv, rfl⟩ | ⟨hv, rfl⟩
      · exact .inl ⟨c, cs, .inr ⟨by simp [wrongState, hs], rfl, P, hp, hv⟩, rfl⟩
      · exact .inr ⟨‹_›, P, hp, hv, rfl⟩
  | rxsamp =>
    simp only [exec, execRxsamp] at h
    split at h
    · cases h; exact .inl (hseq _ (by simp [wrongState, *]) rfl)
    · obtain ⟨x, hx, h⟩ := withSample_next h
      cases h
      exact .inr ⟨‹_›, x, hx, rfl⟩
  | rxend =>
    simp only [exec, execRxend] at h
    split at h <;> cases h
    · exact .inl (hseq _ (by simp [wrongState, *]) rfl)
    · exact .inr ⟨‹_›, rfl⟩

/-- A command with a payload of its shape comes to a next state, from every state. -/
theorem exec_total {i : Instr} {s : State} (h : i.payloadFits s.port = true) : ∃ t, exec i s = .next t := by
  have hP : ∀ p : Payload, (match p with | .params _ => true | _ => false) = true → ∃ P, p = .params P := by
    intro p hp; cases p <;> simp_all
  have start : ∀ m, (∃ P, s.port = .params P) → ∃ t, startTx m s = .next t := by
    rintro m ⟨P, hp⟩
    unfold startTx
    split
    · exact ⟨_, rfl⟩
    · simp only [withParams, hp]; exact openCall_total _ _ _
  cases i with
  | nop => exact ⟨_, rfl⟩
  | txstartF => exact start _ (hP _ h)
  | txstartC => exact start _ (hP _ h)
  | txsym v => simp only [exec, execTxsym]; split <;> exact ⟨_, rfl⟩
  | txend => simp only [exec, execTxend]; split <;> exact ⟨_, rfl⟩
  | rxstart =>
    obtain ⟨P, hp⟩ := hP _ h
    simp only [exec, execRxstart]
    split
    · exact ⟨_, rfl⟩
    · simp only [withParams, hp]; exact openCall_total _ _ _
  | rxsamp =>
    simp only [exec, execRxsamp]
    split
    · exact ⟨_, rfl⟩
    · unfold withSample
      cases hp : s.port <;> simp_all [Instr.payloadFits]
  | rxend => simp only [exec, execRxend]; split <;> exact ⟨_, rfl⟩

end Sys2Proof.Machine
end

