-- ==== Sys2Proof/Laws/Modulator.lean ====
section
/-! SUPPORT. The loop of `TXSYM`: what it emits and what it leaves in the TX unit. -/

namespace Sys2Proof.Machine

@[simp] theorem twoPi_val : twoPi.val = 2 * Real.pi := by simp [twoPi]

@[simp] theorem deltaPhi_val (f fs : Quantity) : (deltaPhi f fs).val = 2 * Real.pi * f.val / fs.val := by simp [deltaPhi]

theorem sampleFsk_val (f : Quantity) (i : Nat) (fs : Quantity) :
    (sampleFsk f i fs).1.val = Real.sin (2 * Real.pi * f.val * (i / fs.val)) ∧ (sampleFsk f i fs).2.val = i / fs.val := by
  simp [sampleFsk]

/-- The TX unit after one pass of the loop. -/
def txNext (f : Quantity) (u : TxUnit) : TxUnit := { (synthesize f u).1 with n := (synthesize f u).1.n + 1 }

/-- The TX unit after `k` passes. -/
def txAfter (f : Quantity) : Nat → TxUnit → TxUnit
  | 0, u => u
  | k + 1, u => txAfter f k (txNext f u)

/-- The elements `k` passes emit. -/
def txWave (f : Quantity) : Nat → TxUnit → List (Quantity × Quantity)
  | 0, _ => []
  | k + 1, u => (synthesize f u).2 :: txWave f k (txNext f u)

/-- The loop writes the TX unit and appends to `TXOUT`, and touches nothing else. -/
theorem txSteps_eq (f : Quantity) (k : Nat) (s : State) :
    txSteps f k s = { s with tx := txAfter f k s.tx, txout := s.txout ++ txWave f k s.tx } := by
  induction k generalizing s with
  | zero => simp [txSteps, txAfter, txWave]
  | succ k ih =>
    rw [txSteps, ih]
    have h1 : (txStep f s).tx = txNext f s.tx := rfl
    have h2 : (txStep f s).txout = s.txout ++ [(synthesize f s.tx).2] := rfl
    rw [h1, h2]
    simp only [txAfter, txWave, List.append_assoc, List.singleton_append]
    rfl

@[simp] theorem txWave_length (f : Quantity) (k : Nat) (u : TxUnit) : (txWave f k u).length = k := by
  induction k generalizing u with
  | zero => rfl
  | succ k ih => simp [txWave, ih]

/-- One pass in `FSK` mode advances `TX.N` alone. -/
theorem txNext_fsk {f : Quantity} {u : TxUnit} (h : u.mode = .fsk) : txNext f u = { u with n := u.n + 1 } := by
  simp [txNext, synthesize, h]

/-- One pass in `CPFSK` mode advances `TX.N` and the accumulator. -/
theorem txNext_cpfsk {f : Quantity} {u : TxUnit} (h : u.mode = .cpfsk) :
    txNext f u = { u with n := u.n + 1, phi := Quantity.add u.phi (deltaPhi f u.fs) } := by
  simp [txNext, synthesize, h, stepCpfsk]

/-- The time of an element, in either mode (rules R62, R68). -/
theorem synthesize_time (f : Quantity) (u : TxUnit) : (synthesize f u).2.2 = Quantity.div (Quantity.ofNat u.n) u.fs := by
  unfold synthesize; split <;> rfl

/-- A pass keeps every register but `TX.N` and `TX.PHI`, in either mode. -/
theorem txNext_eq (f : Quantity) (u : TxUnit) : txNext f u = { u with n := u.n + 1, phi := (txNext f u).phi } := by
  cases h : u.mode
  · simp [txNext_fsk h, h]
  · simp [txNext_cpfsk h, h]

/-- `k` passes keep every register but `TX.N` and `TX.PHI`, in either mode. -/
theorem txAfter_eq (f : Quantity) (k : Nat) (u : TxUnit) :
    txAfter f k u = { u with n := u.n + k, phi := (txAfter f k u).phi } := by
  induction k generalizing u with
  | zero => rfl
  | succ k ih =>
    rw [txAfter, ih, txNext_eq]
    simp only [TxUnit.mk.injEq, true_and, and_true]
    omega

/-- `k` passes in `FSK` mode leave the accumulator. -/
theorem txAfter_fsk {f : Quantity} {k : Nat} {u : TxUnit} (h : u.mode = .fsk) :
    txAfter f k u = { u with n := u.n + k } := by
  induction k generalizing u with
  | zero => rfl
  | succ k ih =>
    rw [txAfter, txNext_fsk h, ih (by exact h)]
    simp only [TxUnit.mk.injEq, true_and, and_true]
    omega

/-- `k` passes in `CPFSK` mode advance the accumulator by `k` increments. -/
theorem txAfter_phi_val {f : Quantity} {k : Nat} {u : TxUnit} (h : u.mode = .cpfsk) :
    (txAfter f k u).phi.val = u.phi.val + k * (2 * Real.pi * f.val / u.fs.val) := by
  induction k generalizing u with
  | zero => simp [txAfter]
  | succ k ih =>
    rw [txAfter, txNext_cpfsk h, ih (by exact h)]
    simp only [Quantity.add_val, deltaPhi_val]
    push_cast; ring

/-- The elements of the loop in `FSK` mode. -/
theorem txWave_fsk {f : Quantity} {m k : Nat} {u : TxUnit} (h : u.mode = .fsk) (hk : k < m) :
    (txWave f m u)[k]? = some (sampleFsk f (u.n + k) u.fs) := by
  induction m generalizing u k with
  | zero => omega
  | succ m ih =>
    cases k with
    | zero => simp [txWave, synthesize, h]
    | succ k =>
      rw [txWave, List.getElem?_cons_succ, txNext_fsk h, ih (by exact h) (by omega)]
      simp only [Nat.add_assoc, Nat.add_comm 1]

/-- The elements of the loop in `CPFSK` mode. -/
theorem txWave_cpfsk {f : Quantity} {m k : Nat} {u : TxUnit} (h : u.mode = .cpfsk) (hk : k < m) :
    ∃ x, (txWave f m u)[k]? = some (x, Quantity.div (Quantity.ofNat (u.n + k)) u.fs) ∧
      x.val = Real.sin (u.phi.val + (k + 1) * (2 * Real.pi * f.val / u.fs.val)) := by
  induction m generalizing u k with
  | zero => omega
  | succ m ih =>
    cases k with
    | zero =>
      refine ⟨Quantity.sin (Quantity.add u.phi (deltaPhi f u.fs)), by simp [txWave, synthesize, h, stepCpfsk], ?_⟩
      simp
    | succ k =>
      obtain ⟨x, hx, hv⟩ := ih (u := { u with n := u.n + 1, phi := Quantity.add u.phi (deltaPhi f u.fs) }) (k := k)
        (by exact h) (by omega)
      refine ⟨x, ?_, ?_⟩
      · rw [txWave, List.getElem?_cons_succ, txNext_cpfsk h, hx]
        simp only [Nat.add_assoc, Nat.add_comm 1]
      · rw [hv]
        simp only [Quantity.add_val, deltaPhi_val]
        congr 1; push_cast; ring

end Sys2Proof.Machine
end

