-- ==== Sys2Proof/Laws/Receiver.lean ====
section
/-! SUPPORT. The correlator and the slicer: what a sample adds, what a complete window decides. -/

namespace Sys2Proof.Machine

@[simp] theorem refAngle_val (f : Quantity) (k : Nat) (fs : Quantity) :
    (refAngle f k fs).val = 2 * Real.pi * f.val * (k / fs.val) := by
  simp [refAngle, twoPi]

@[simp] theorem refCos_val (f : Quantity) (k : Nat) (fs : Quantity) :
    (refCos f k fs).val = Real.cos (2 * Real.pi * f.val * (k / fs.val)) := by simp [refCos]

@[simp] theorem refSin_val (f : Quantity) (k : Nat) (fs : Quantity) :
    (refSin f k fs).val = Real.sin (2 * Real.pi * f.val * (k / fs.val)) := by simp [refSin]

@[simp] theorem mag_val (i q : Quantity) : (mag i q).val = Real.sqrt (i.val ^ 2 + q.val ^ 2) := by
  simp [mag, Quantity.sqrt, Quantity.val]

/-- Equal magnitudes decide 1 (rule R79). -/
@[simp] theorem decideBit_self (m : Quantity) : decideBit m m = 1 := by
  have h : Quantity.compare m m = .eq := by
    unfold Quantity.compare
    split
    · simp [Quantity.compareCore]
    · simp [Quantity.compareCore]
  simp [decideBit, Quantity.gt, h]

/-- A sample that does not complete the window. -/
theorem takeSample_inside {x : Quantity} {s : State} (h : s.rx.k + 1 ≠ s.rx.sps) :
    takeSample x s = setRx (integrate x s.rx) s := by simp [takeSample, h]

/-- A sample that completes the window. -/
theorem takeSample_complete {x : Quantity} {s : State} (h : s.rx.k + 1 = s.rx.sps) :
    takeSample x s = setRx (dump (integrate x s.rx)) (emitRx (windowBit (integrate x s.rx)) s) := by
  simp only [takeSample, setRx_rx, integrate_k, integrate_sps, h, if_true, detectAndDump]
  rfl

/-- What a sample leaves alone, and how much it emits. -/
theorem takeSample_frame (x : Quantity) (s : State) :
    (takeSample x s).tx = s.tx ∧ (takeSample x s).txout = s.txout ∧ (takeSample x s).err = s.err ∧
    (takeSample x s).rsp = s.rsp ∧ (takeSample x s).port = s.port ∧ (takeSample x s).input = s.input ∧
    (takeSample x s).rx.st = s.rx.st ∧ (takeSample x s).rx.f0 = s.rx.f0 ∧ (takeSample x s).rx.f1 = s.rx.f1 ∧
    (takeSample x s).rx.fs = s.rx.fs ∧ (takeSample x s).rx.br = s.rx.br ∧ (takeSample x s).rx.sps = s.rx.sps ∧
    (takeSample x s).rx.tsym = s.rx.tsym ∧ (takeSample x s).rx.written = s.rx.written ∧
    ∃ bs, bs.length ≤ 1 ∧ (takeSample x s).rxout = s.rxout ++ bs := by
  by_cases h : s.rx.k + 1 = s.rx.sps
  · rw [takeSample_complete h]
    simp only [setRx_tx, setRx_txout, setRx_err, setRx_rsp, setRx_port, setRx_input, setRx_rx, setRx_rxout, emitRx_tx,
      emitRx_txout, emitRx_err, emitRx_rsp, emitRx_port, emitRx_input, emitRx_rxout, dump_st, dump_f0, dump_f1, dump_fs,
      dump_br, dump_sps, dump_tsym, dump_written, integrate_st, integrate_f0, integrate_f1, integrate_fs, integrate_br,
      integrate_sps, integrate_tsym, integrate_written, true_and]
    exact ⟨_, by simp, rfl⟩
  · rw [takeSample_inside h]
    simp only [setRx_tx, setRx_txout, setRx_err, setRx_rsp, setRx_port, setRx_input, setRx_rx, setRx_rxout,
      integrate_st, integrate_f0, integrate_f1, integrate_fs, integrate_br, integrate_sps, integrate_tsym,
      integrate_written, true_and]
    exact ⟨[], by simp, by simp⟩

end Sys2Proof.Machine
end

