-- ==== Sys2Proof/Laws/Calls.lean ====
section
/-! SUPPORT. Command sequences and windows: how the commands of a call chain, and what the samples of a window leave in the
RX unit. -/

namespace Sys2Proof

/-- The order of two positive numbers, also where they are known only by their enclosures. -/
theorem Quantity.lt_iff_of_pos {a b : Quantity} (ha : a.Narrows) (hb : b.Narrows) (h : 0 < a.val) :
    Quantity.lt a b = true ↔ a.val < b.val := by
  have root : ∀ x : Quantity, (Quantity.sqrtOf x).Narrows → x.Narrows := by
    intro x hx
    obtain ⟨P, hP⟩ := hx 1 one_pos
    obtain ⟨m, hm, -⟩ := hP P le_rfl
    unfold Quantity.ball at hm
    split at hm
    · exact Quantity.narrows_of_ball ‹_›
    · cases hm
  rw [Quantity.lt, beq_iff_eq]
  unfold Quantity.compare
  split
  · rw [(Quantity.compareCore_narrows (root _ ha) (root _ hb)).1]
    exact (Real.sqrt_lt_sqrt_iff (Real.sqrt_pos.mp h).le).symm
  · exact (Quantity.compareCore_narrows ha hb).1

namespace Machine

/-- The tests a valid payload passes (rule R58). -/
theorem valid_tests {P : Params} (h : validate P = []) :
    Quantity.nonPos P.freq0 = false ∧ Quantity.nonPos P.freq1 = false ∧ Quantity.nonPos P.samplingRate = false ∧
    Quantity.nonPos P.baudRate = false ∧ Quantity.eq P.freq0 P.freq1 = false ∧
    Quantity.lt P.samplingRate P.baudRate = false := by
  revert h
  unfold validate outOfRange equalTones undersampled
  cases Quantity.nonPos P.freq0 <;> cases Quantity.nonPos P.freq1 <;> cases Quantity.nonPos P.samplingRate <;>
    cases Quantity.nonPos P.baudRate <;> cases Quantity.eq P.freq0 P.freq1 <;>
    cases Quantity.lt P.samplingRate P.baudRate <;> simp

/-- A valid payload has at least one sample per symbol (rule R59). -/
theorem samplesPerSymbol_pos {P : Params} (h : validate P = []) : 1 ≤ samplesPerSymbol P := by
  obtain ⟨-, -, h3, h4, -, h6⟩ := valid_tests h
  obtain ⟨p3, n3⟩ := Quantity.pos_of_nonPos h3
  obtain ⟨p4, n4⟩ := Quantity.pos_of_nonPos h4
  have hle : P.baudRate.val ≤ P.samplingRate.val := by
    rw [← not_lt, ← Quantity.lt_iff_of_pos n3 n4 p3, h6]; simp
  have hf : (1 : ℤ) ≤ ⌊P.samplingRate.val / P.baudRate.val⌋ :=
    Int.le_floor.mpr (by rw [Int.cast_one, one_le_div p4]; exact hle)
  rw [samplesPerSymbol, Quantity.floorDiv_narrows n3 n4 p4.ne']
  omega

/-- A command sequence in two parts. -/
theorem issueAll_append {cs ds : List (CmdWord × Payload)} {s t : State} (h : issueAll cs s = .next t) :
    issueAll (cs ++ ds) s = issueAll ds t := by
  induction cs generalizing s with
  | nil => cases h; rfl
  | cons c cs ih =>
    simp only [List.cons_append, issueAll] at h ⊢
    split at h
    · exact ih h
    · cases h
    · cases h

/-- The word of a well-formed command, issued, is that command. -/
theorem issue_encode {i : Instr} (h : decode (encode i) = .ok i) (p : Payload) (s : State) :
    issue (encode i) p s = exec i (deliver p s.input s) := by
  simp only [issue, execWord, h]

/-- The sums of a window grow sample by sample (rule R73). -/
@[simp] theorem windowSums_snoc (P : Params) (w : List Quantity) (x : Quantity) :
    windowSums P (w ++ [x]) = integrate x (windowSums P w) := by
  simp [windowSums, List.foldl_append]

/-- The registers of an open call in a window, the sums apart; dumped, they are those of an empty window. -/
theorem windowSums_shape (P : Params) (w : List Quantity) :
    (windowSums P w).st = .active ∧ (windowSums P w).f0 = P.freq0 ∧ (windowSums P w).f1 = P.freq1 ∧
    (windowSums P w).fs = P.samplingRate ∧ (windowSums P w).sps = samplesPerSymbol P ∧ (windowSums P w).k = w.length ∧
    dump (windowSums P w) = windowSums P [] := by
  induction w using List.reverseRecOn with
  | nil => exact ⟨rfl, rfl, rfl, rfl, rfl, rfl, rfl⟩
  | append_singleton w x ih =>
    obtain ⟨h1, h2, h3, h4, h5, h6, h7⟩ := ih
    rw [windowSums_snoc]
    refine ⟨h1, h2, h3, h4, h5, by simp [h6], ?_⟩
    rw [← h7]; rfl

end Machine

end Sys2Proof
end

