-- ==== Sys2Proof/Laws/Codec.lean ====
section
/-! SUPPORT. The codec: what one sample and one waveform become. -/

namespace Sys2Proof.Machine

theorem roundNearest_near (x : ℝ) : |(roundNearest x : ℝ) - x| ≤ 1 / 2 := by
  have h := Int.floor_add_fract x
  have h0 := Int.fract_nonneg x
  have h1 := (Int.fract_lt_one x).le
  unfold roundNearest
  split_ifs <;> rw [abs_le] <;> push_cast <;> constructor <;> linarith

@[simp] theorem dequantize_val (q : ℤ) : (dequantize q).val = q / 32767 := by
  rw [dequantize, Quantity.ofRat_val, Rat.mkRat_eq_div]; push_cast; rfl

theorem throughCodec_eq_some {x y : Quantity} :
    throughCodec x = some y ↔ (-1 ≤ x.val ∧ x.val ≤ 1) ∧ y = dequantize (roundNearest (x.val * 32767)) := by
  unfold throughCodec quantize
  split_ifs with h <;> simp [h, eq_comm]

/-- The codec moves no sample by more than half a step, and what comes out is a real number. -/
theorem throughCodec_near {x y : Quantity} (h : throughCodec x = some y) :
    |y.val - x.val| ≤ 0.5 / 32767 ∧ y.Defined := by
  obtain ⟨-, rfl⟩ := throughCodec_eq_some.mp h
  refine ⟨?_, Quantity.defined_ofRat _⟩
  have h2 := abs_le.mp (roundNearest_near (x.val * 32767))
  rw [dequantize_val, abs_le]
  constructor <;> linarith [h2.1, h2.2]

/-- A waveform comes through the codec sample by sample. -/
theorem waveformThroughCodec_eq_some {xs ys : List Quantity} :
    waveformThroughCodec xs = some ys ↔ List.Forall₂ (fun x y => throughCodec x = some y) xs ys := by
  induction xs generalizing ys with
  | nil => simp [waveformThroughCodec, eq_comm]
  | cons x xs ih =>
    rw [List.forall₂_cons_left_iff, waveformThroughCodec]
    constructor
    · intro h
      split at h
      · rename_i y zs hy hzs
        cases h
        exact ⟨y, zs, hy, ih.mp hzs, rfl⟩
      · cases h
    · rintro ⟨y, zs, hy, hzs, rfl⟩
      rw [hy, ih.mpr hzs]

/-- A waveform of samples of `[-1, 1]` has a result. -/
theorem waveformThroughCodec_isSome {xs : List Quantity} (h : ∀ x ∈ xs, -1 ≤ x.val ∧ x.val ≤ 1) :
    ∃ ys, waveformThroughCodec xs = some ys := by
  simp only [waveformThroughCodec_eq_some]
  induction xs with
  | nil => exact ⟨[], .nil⟩
  | cons x xs ih =>
    obtain ⟨ys, hys⟩ := ih fun z hz => h z (List.mem_cons_of_mem _ hz)
    exact ⟨_ :: ys, .cons (throughCodec_eq_some.mpr ⟨h x List.mem_cons_self, rfl⟩) hys⟩

end Sys2Proof.Machine
end

