-- ==== Sys2Proof/Laws/PerInstr.lean ====
section
/-! SUPPORT. Statements about commands as syntax, one lemma per constructor. -/

namespace Sys2Proof.Laws.SelectsRow

/-- The word of a well-formed command selects exactly one row of the opcode map (rule R50). -/
def Statement (i : Instr) : Prop := i.wellFormed = true → rowsSelected (encode i) = 1

theorem nop : Statement .nop := fun _ => by decide
theorem txstartF : Statement .txstartF := fun _ => by decide
theorem txstartC : Statement .txstartC := fun _ => by decide
theorem txsym (v : Nat) : Statement (.txsym v) := by
  intro h
  have hv : v < 16 := of_decide_eq_true h
  interval_cases v <;> decide
theorem txend : Statement .txend := fun _ => by decide
theorem rxstart : Statement .rxstart := fun _ => by decide
theorem rxsamp : Statement .rxsamp := fun _ => by decide
theorem rxend : Statement .rxend := fun _ => by decide

end Sys2Proof.Laws.SelectsRow
end

