-- ==== Sys2Proof/Tests/Slice0.lean ====
section
/-! SUPPORT. The model's own tests, their expected results from spec/95_test_vectors.md and the rules' examples, and one
witness per statement that has hypotheses. -/

namespace Sys2Proof.Tests

open Sys2Proof Sys2Proof.Machine

/-! ## States and numbers of the tests -/

/-- The small exact parameters `Ps = (1, 2, 8, 2)` of 95_test_vectors.md. -/
def small : Params := ratParams 1 2 8 2

/-- One sample per symbol: `(1200, 2200, 8000, 8000)`, program P8. -/
def single : Params := ratParams 1200 2200 8000 8000

/-- Parameters with every configuration cause: `(-1, -1, 1, 2)`, section 2.2. -/
def wrong : Params := ratParams (mkRat (-1) 1) (mkRat (-1) 1) 1 2

/-- `sqrt(2) / 2`, which is the cosine of an eighth of a turn. -/
def halfRoot : Quantity := .alg [(mkRat 1 8, 1)]

/-- A modulation call open at `Ps`. -/
def txOpen (m : Mode) : State := { State.reset with tx := openTx m small TxUnit.reset }

/-- A demodulation call open at `Ps`. -/
def rxOpen : State := { State.reset with rx := openRx small RxUnit.reset }

/-- A state with a payload on the port. -/
def withPort (p : Payload) (s : State) : State := { s with port := p }

/-- A state about to take one command. -/
def withCommand (w : CmdWord) (p : Payload) (s : State) : State := { s with input := [.command w p] }

/-- The next state of an outcome, or the state before where there is none. -/
def after (s : State) : Result → State
  | .next t => t
  | .fault _ => s
  | .refused _ => s

/-! ## Well-formedness (rules R53, R30): the ill-formed terms are refused -/

theorem test_symbol_16_is_ill_formed : Instr.wellFormed (.txsym 16) = false := by decide
theorem test_symbol_15_is_well_formed : Instr.wellFormed (.txsym 15) = true := by decide
theorem test_start_without_parameters : Instr.payloadFits .txstartF .none = false := by decide
theorem test_cpfsk_start_with_a_sample : Instr.payloadFits .txstartC (.sample Quantity.one) = false := by decide
theorem test_rxstart_without_parameters : Instr.payloadFits .rxstart .none = false := by decide
theorem test_rxsamp_without_a_sample : Instr.payloadFits .rxsamp (.params small) = false := by decide

/-! ## Decoding: words written bit by bit from the diagrams of rules R46 and R50 -/

theorem test_decode_nop : decode 0b0000_0000 = .ok .nop := by decide
theorem test_decode_txstart_f : decode 0b0001_0000 = .ok .txstartF := by decide
theorem test_decode_txstart_c : decode 0b0001_0001 = .ok .txstartC := by decide
theorem test_decode_txsym_9 : decode 0b0010_1001 = .ok (.txsym 9) := by decide
theorem test_decode_txend : decode 0b0011_0000 = .ok .txend := by decide
theorem test_decode_rxstart : decode 0b0100_0000 = .ok .rxstart := by decide
theorem test_decode_rxsamp : decode 0b0101_0000 = .ok .rxsamp := by decide
theorem test_decode_rxend : decode 0b0110_0000 = .ok .rxend := by decide
theorem test_decode_reserved_mode : decode 0b0001_0010 = .error .mode := by decide
theorem test_decode_reserved_argument : decode 0b0101_1010 = .error .argument := by decide
theorem test_decode_reserved_opcode : decode 0b0111_0000 = .error .opcode := by decide
theorem test_table_word : decodeTableWord 8 0x2F = some (.txsym 15) := by decide
theorem test_first_step_runs_the_word :
    (after State.reset (step (State.reset.withFetchWord 8 0x11))).tx.mode = .cpfsk := by decide +kernel

/-! ## The parameter check and the symbol timing: the tables of sections 1.7 and 2.2 -/

theorem test_validate_equal_tones : validate (ratParams 1200 1200 44100 300) = [.configFreq] := by decide
theorem test_validate_timing : validate (ratParams 1200 2200 (mkRat 2999 10) 300) = [.configTiming] := by decide
theorem test_validate_zero_baud : validate (ratParams 1200 2200 44100 0) = [.configRange] := by decide
theorem test_validate_all : validate wrong = [.configRange, .configFreq, .configTiming] := by decide
theorem test_sps_36 : samplesPerSymbol (ratParams 1200 2200 44100 1200) = 36 := by decide
theorem test_tsym : symbolDuration (ratParams 1 2 (mkRat 15 2) (mkRat 5 2)) = Quantity.ofRat (mkRat 2 5) := by decide

/-- Numbers without a normal form compare as the reals do. -/
theorem test_three_below_pi : Quantity.lt (Quantity.ofNat 3) Quantity.pi = true := by
  rw [Quantity.lt_iff (Quantity.defined_ofNat 3) Quantity.defined_pi]
  simpa using Real.pi_gt_three

/-! ## The meanings, one step each -/

/-- Section 2.3: `NOP` from reset responds 0. -/
theorem test_nop : (after State.reset (exec .nop State.reset)).rsp = [.ok] := by decide

/-- Section 2.3 and rule R63's example: `TX.SPS = 147`. -/
theorem test_txstart_f :
    (after State.reset (exec .txstartF (withPort (.params calibration) State.reset))).tx.sps = 147 := by decide

/-- Program P4 line 3: two causes, the response is `ConfigFreq`. -/
theorem test_txstart_f_two_causes :
    (let t := after State.reset (exec .txstartF (withPort (.params (ratParams 1200 1200 300 44100)) State.reset))
     (t.rsp, t.err, t.tx.st)) = ([.configFreq], 0b00011, .idle) := by decide

/-- Section 2.3: an open call keeps its mode when another START arrives, and the payload is not examined. -/
theorem test_txstart_c_while_active :
    (let t := after State.reset (exec .txstartC (withPort (.params (ratParams 0 0 0 0)) (txOpen .fsk)))
     (t.rsp, t.err, t.tx.mode)) = ([.sequenceError], 0b01000, .fsk) := by decide

/-- Program P1 line 2: the four samples of tone 1 at 8 samples per second. -/
theorem test_txsym_fsk :
    (after State.reset (exec (.txsym 0) (txOpen .fsk))).txout =
      [(Quantity.zero, Quantity.zero), (halfRoot, Quantity.ofRat (mkRat 1 8)), (Quantity.one, Quantity.ofRat (mkRat 1 4)),
       (halfRoot, Quantity.ofRat (mkRat 3 8))] := by decide +kernel

/-- Section 2.6: the accumulator is `PI` after the four samples of symbol 0. -/
theorem test_txsym_cpfsk :
    (let t := after State.reset (exec (.txsym 0) (txOpen .cpfsk)); (t.tx.phi, t.txout.map Prod.fst)) =
      (Quantity.pi, [halfRoot, Quantity.one, halfRoot, Quantity.zero]) := by decide +kernel

/-- Program P4 line 10: `TXEND` of a closed call. -/
theorem test_txend_idle : (after State.reset (exec .txend State.reset)).err = 0b01000 := by decide

/-- Section 2.7, second line of the accumulation table: `I0 = Q0 = 1/2`, `I1 = 0`, `Q1 = sqrt(2)/2`. -/
theorem test_rxsamp :
    (let s := withPort (.sample halfRoot) { rxOpen with rx := { rxOpen.rx with k := 1 } }
     let u := (after State.reset (exec .rxsamp s)).rx
     (u.k, u.i0, u.q0, u.i1, u.q1)) =
      (2, Quantity.ofRat (mkRat 1 2), Quantity.ofRat (mkRat 1 2), Quantity.zero, halfRoot) := by decide +kernel

/-- Section 2.7, fourth line: the window `[0, sqrt(2)/2, 1, sqrt(2)/2]` decides 0. -/
theorem test_rxsamp_decides :
    (let s := withPort (.sample halfRoot)
        { rxOpen with rx := { rxOpen.rx with k := 3, i0 := Quantity.ofRat (mkRat 1 2), q0 := Quantity.ofRat (mkRat 3 2),
                                             i1 := Quantity.ofRat (mkRat (-1) 1), q1 := halfRoot } }
     let t := after State.reset (exec .rxsamp s)
     (t.rxout, t.rx.k, t.rx.q0)) = ([0], 0, Quantity.zero) := by decide +kernel

/-- Section 2.8: `Decide(1, 1.0000000001) = 1`. -/
theorem test_decide_near_tie : decideBit Quantity.one (Quantity.ofRat (mkRat 10000000001 10000000000)) = 1 := by
  decide +kernel

/-- Rule R80's example: magnitudes 2 and 1 decide 0. -/
theorem test_window_bit :
    windowBit { rxOpen.rx with q0 := Quantity.ofNat 2, i1 := Quantity.ofRat (mkRat (-1) 1) } = 0 := by decide +kernel

/-- Program P5 line 12: the partial window is dropped. -/
theorem test_rxend :
    (let t := after State.reset (exec .rxend { rxOpen with rx := { rxOpen.rx with k := 2, i0 := Quantity.one } })
     (t.rx.st, t.rx.k, t.rx.i0, t.rxout)) = (.idle, 0, Quantity.zero, []) := by decide

/-- Section 2.3: the reserved word `0x7F`. -/
theorem test_reserved_word :
    (let t := after State.reset (step (withCommand 0x7F .none State.reset)); (t.rsp, t.err)) =
      ([.illegalCommand], 0b10000) := by decide

/-- Section 1.8: `0x41` packed from its bits. -/
theorem test_pack : packBits [0, 1, 0, 0, 0, 0, 0, 1] = 0x41 := by decide

/-- Rule R98's examples: `Quantize(0) = 0`, `Quantize(1) = 32767`, `Quantize(-1) = -32767`. -/
theorem test_quantize : quantize 0 = some 0 ∧ quantize 1 = some 32767 ∧ quantize (-1) = some (-32767) := by
  refine ⟨?_, ?_, ?_⟩ <;> norm_num [quantize, roundNearest]

/-- 93_implementation_defined.md U5: a waveform with a sample outside [-1, 1] has no result in the codec. -/
theorem test_codec_refuses : waveformThroughCodec [Quantity.ofNat 2] = none := by
  simp [waveformThroughCodec, throughCodec, quantize]

/-! ## Witnesses: for each statement with hypotheses, a state and operands that meet them together, one per clause -/

theorem witness_DecodeOfEncode : Instr.wellFormed (.txsym 15) = true ∧ Instr.wellFormed .rxend = true := by decide

theorem witness_EncodeOfDecode : decode 0x2F = .ok (.txsym 15) := by decide

theorem witness_StepRunsDecoded :
    (withCommand 0x10 (.params small) State.reset).input = .command 0x10 (.params small) :: [] ∧
    decode 0x10 = .ok .txstartF ∧ decodeTableWord 8 0x50 = some .rxsamp := by decide

theorem witness_IllegalCommandStep :
    (withCommand 0x1F .none State.reset).input = .command 0x1F .none :: [] ∧ rowsSelected 0x1F = 0 := by decide

theorem witness_ResetEvent :
    ({ txOpen .fsk with input := [.reset, .command 0x00 .none] } : State).input = .reset :: [.command 0x00 .none] := by decide

theorem witness_IdleTxRegistersUnread :
    State.reset.tx.st = .idle ∧ ({ TxUnit.reset with n := 7 } : TxUnit).st = .idle ∧
    (∃ t, exec .txstartF (withPort (.params small) State.reset) = .next t) ∧ ∃ t, exec .nop State.reset = .next t :=
  ⟨rfl, rfl, ⟨_, rfl⟩, ⟨_, rfl⟩⟩

theorem witness_IdleRxRegistersUnread :
    State.reset.rx.st = .idle ∧ ({ RxUnit.reset with k := 7 } : RxUnit).st = .idle ∧
    (∃ t, exec .rxstart (withPort (.params small) State.reset) = .next t) ∧ ∃ t, exec .nop State.reset = .next t :=
  ⟨rfl, rfl, ⟨_, rfl⟩, ⟨_, rfl⟩⟩

theorem witness_HostReads : (txOpen .cpfsk).tx.written = true ∧ rxOpen.rx.written = true := by decide

theorem witness_SequenceErrors :
    (txOpen .fsk).tx.st = .active ∧ rxOpen.rx.st = .active ∧ State.reset.tx.st = .idle ∧ State.reset.rx.st = .idle := by
  decide

/-- Each cause alone, and all together. -/
theorem witness_ConfigurationFaults :
    State.reset.tx.st = .idle ∧ State.reset.rx.st = .idle ∧
    (withPort (.params wrong) State.reset).port = .params wrong ∧
    Quantity.nonPos wrong.freq0 = true ∧ Quantity.eq wrong.freq0 wrong.freq1 = true ∧
    Quantity.lt wrong.samplingRate wrong.baudRate = true ∧
    validate (ratParams 1200 2200 44100 0) = [.configRange] ∧ validate (ratParams 1200 1200 44100 300) = [.configFreq] ∧
    validate (ratParams 1200 2200 200 300) = [.configTiming] := by decide

theorem witness_ExactOrder : halfRoot.Defined ∧ (Quantity.given 0).Defined ∧ Quantity.pi.Defined :=
  ⟨trivial, trivial, Quantity.defined_pi⟩

/-- For `FaultsArePrecise`, `ErrIsSticky`, `WhatCommandsProduce`, `Frames` and `UnitIndependence`: every command comes to a
next state somewhere, with `OK` and, all but `NOP`, with a fault. -/
theorem witness_next_states :
    (∃ t, exec .nop State.reset = .next t) ∧
    (∃ t, exec .txstartF (withPort (.params small) State.reset) = .next t) ∧ (∃ t, exec .txstartF (txOpen .fsk) = .next t) ∧
    (∃ t, exec .txstartC (withPort (.params small) State.reset) = .next t) ∧ (∃ t, exec .txstartC (txOpen .fsk) = .next t) ∧
    (∃ t, exec (.txsym 1) (txOpen .fsk) = .next t) ∧ (∃ t, exec (.txsym 1) State.reset = .next t) ∧
    (∃ t, exec .txend (txOpen .fsk) = .next t) ∧ (∃ t, exec .txend State.reset = .next t) ∧
    (∃ t, exec .rxstart (withPort (.params small) State.reset) = .next t) ∧ (∃ t, exec .rxstart rxOpen = .next t) ∧
    (∃ t, exec .rxsamp (withPort (.sample halfRoot) rxOpen) = .next t) ∧ (∃ t, exec .rxsamp State.reset = .next t) ∧
    (∃ t, exec .rxend rxOpen = .next t) ∧ (∃ t, exec .rxend State.reset = .next t) :=
  ⟨⟨_, rfl⟩, ⟨_, rfl⟩, ⟨_, rfl⟩, ⟨_, rfl⟩, ⟨_, rfl⟩, ⟨_, rfl⟩, ⟨_, rfl⟩, ⟨_, rfl⟩, ⟨_, rfl⟩, ⟨_, rfl⟩, ⟨_, rfl⟩, ⟨_, rfl⟩,
    ⟨_, rfl⟩, ⟨_, rfl⟩, ⟨_, rfl⟩⟩

/-- The causes of `FaultsArePrecise`: a command not legal, and each configuration cause first. -/
theorem witness_FaultCauses :
    FaultCauses .txend State.reset .sequenceError [] ∧
    FaultCauses .rxstart (withPort (.params wrong) State.reset) .configRange [.configFreq, .configTiming] ∧
    FaultCauses .txstartC (withPort (.params (ratParams 1200 1200 44100 300)) State.reset) .configFreq [] ∧
    FaultCauses .txstartF (withPort (.params (ratParams 1200 2200 200 300)) State.reset) .configTiming [] :=
  ⟨.inl (by decide), .inr ⟨by decide, by decide, wrong, rfl, by decide⟩,
    .inr ⟨by decide, by decide, _, rfl, by decide⟩, .inr ⟨by decide, by decide, _, rfl, by decide⟩⟩

/-- For the clauses of `WhatCommandsProduce` on `RXSAMP`: a sample inside a window and one that completes it. -/
theorem witness_window_edges :
    rxOpen.rx.k + 1 ≠ rxOpen.rx.sps ∧ ({ rxOpen.rx with k := 3 } : RxUnit).k + 1 = rxOpen.rx.sps := by decide

/-- Deliveries of every shape, a reset event and no event are well delivered; a START without parameters is not. -/
theorem witness_EveryStepCompletes :
    wellDelivered (.command 0x10 (.params small)) = true ∧ wellDelivered (.command 0x50 (.sample halfRoot)) = true ∧
    wellDelivered (.command 0x21 .none) = true ∧ wellDelivered (.command 0xFF .none) = true ∧
    wellDelivered .reset = true ∧ wellDelivered (.command 0x40 .none) = false := by decide

theorem witness_TxStartOpens :
    State.reset.tx.st = .idle ∧ (withPort (.params small) State.reset).port = .params small ∧ validate small = [] := by decide

theorem witness_RxStartOpens :
    State.reset.rx.st = .idle ∧ (withPort (.params calibration) State.reset).port = .params calibration ∧
    validate calibration = [] := by decide

theorem small_defined : paramsDefined small :=
  ⟨Quantity.defined_ofRat 1, Quantity.defined_ofRat 2, Quantity.defined_ofRat 8, Quantity.defined_ofRat 2⟩

theorem witness_ValidParameters : paramsDefined small ∧ validate small = [] := ⟨small_defined, by decide⟩

/-- `samplingRate = baudRate` is valid (rule R103). -/
theorem witness_SymbolTiming : paramsDefined small ∧ validate small = [] ∧ validate single = [] ∧
    validate (ratParams 1 2 10 4) = [] := ⟨small_defined, by decide⟩

theorem witness_MapFreqIsTotal : 0 < 16 ∧ 15 < 16 := by decide

theorem witness_TxsymFskCompletes : (txOpen .fsk).tx.st = .active ∧ (txOpen .fsk).tx.mode = .fsk := by decide

theorem witness_TxsymCpfskCompletes : (txOpen .cpfsk).tx.st = .active ∧ (txOpen .cpfsk).tx.mode = .cpfsk := by decide

theorem witness_TxendCompletes : (txOpen .cpfsk).tx.st = .active ∧ State.reset.tx.st = .idle := by decide

theorem witness_PhaseContinuity : 0 < (Quantity.ofNat 2).val ∧ 0 < (Quantity.ofNat 8).val := by
  constructor <;> norm_num

theorem witness_RxsampIntegrates :
    rxOpen.rx.st = .active ∧ (withPort (.sample halfRoot) rxOpen).port = .sample halfRoot ∧
    rxOpen.rx.k + 1 ≠ rxOpen.rx.sps := by decide

theorem witness_RxsampDecides :
    ({ rxOpen.rx with k := 3 } : RxUnit).st = .active ∧ (withPort (.sample halfRoot) rxOpen).port = .sample halfRoot ∧
    ({ rxOpen.rx with k := 3 } : RxUnit).k + 1 = ({ rxOpen.rx with k := 3 } : RxUnit).sps := by decide

/-- A state of real numbers about to complete a window. -/
theorem witness_RxsampDecides_real :
    let s := withPort (.sample halfRoot) { rxOpen with rx := { rxOpen.rx with k := 3 } }
    AllDefined s ∧ s.rx.st = .active ∧ s.port = .sample halfRoot ∧ s.rx.k + 1 = s.rx.sps := by
  obtain ⟨h1, h2, h3, h4⟩ := small_defined
  have h : (symbolDuration small).Defined :=
    Quantity.defined_div (Quantity.defined_ofNat _) h3 (by simp [small, ratParams])
  refine ⟨⟨by simp [withPort, rxOpen, State.reset], (trivial : halfRoot.Defined), fun h => absurd h (by decide),
    fun _ => ⟨h1, h2, h3, h4, h, trivial, trivial, trivial, trivial, by simp [withPort, rxOpen, small, ratParams]⟩,
    by simp [withPort, rxOpen, State.reset]⟩, by decide⟩

theorem witness_DecisionOnMagnitudes : Quantity.zero.Defined ∧ (Quantity.ofNat 2).Defined ∧ halfRoot.Defined :=
  ⟨trivial, Quantity.defined_ofNat 2, trivial⟩

theorem witness_RxendCompletes : rxOpen.rx.st = .active ∧ State.reset.rx.st = .idle := by decide

theorem witness_UnitIndependence : forTx .txend = true ∧ forRx .rxend = true := by decide

/-- Commands of both units and a reserved word, issued one after another. -/
theorem witness_Interleaving :
    ∃ t, issueAll [(0x11, .params small), (0x40, .params small), (0x21, .none), (0x50, .sample halfRoot), (0x7F, .none)]
      State.reset = .next t := ⟨_, rfl⟩

theorem txOpen_inv : (txOpen .cpfsk).Inv := by
  refine ⟨fun _ => ⟨rfl, ?_, fun h => absurd h (by decide), 0, 0, rfl, fun _ => ?_⟩, fun h => absurd h (by decide), ?_⟩
  · unfold RatesHold; decide
  · simp [txOpen]
  · exact ⟨fun r hr => absurd hr (by simp [txOpen, State.reset]), by simp [txOpen, State.reset]⟩

theorem txOpen_timeAxis : TimeAxisHolds (txOpen .cpfsk) := fun _ => ⟨[], [], rfl, rfl⟩

theorem witness_InvariantKept :
    (withCommand 0x20 .none (txOpen .cpfsk)).Inv ∧ ∃ t, step (withCommand 0x20 .none (txOpen .cpfsk)) = .next t :=
  ⟨txOpen_inv, ⟨_, rfl⟩⟩

theorem witness_TimeAxisKept :
    TimeAxisHolds (withCommand 0x20 .none (txOpen .cpfsk)) ∧
    ∃ t, step (withCommand 0x20 .none (txOpen .cpfsk)) = .next t := ⟨txOpen_timeAxis, ⟨_, rfl⟩⟩

theorem witness_RealsKept :
    AllDefined (withCommand 0x50 (.sample halfRoot) rxOpen) ∧
    ∃ t, step (withCommand 0x50 (.sample halfRoot) rxOpen) = .next t := by
  obtain ⟨h1, h2, h3, h4⟩ := small_defined
  refine ⟨⟨?_, trivial, fun h => absurd h (by decide), fun _ => ⟨h1, h2, h3, h4, ?_, trivial, trivial, trivial, trivial, ?_⟩,
    fun e he => absurd he (by simp [withCommand, rxOpen, State.reset])⟩, ⟨_, rfl⟩⟩
  · intro e he
    simp only [withCommand, List.mem_singleton] at he
    subst he
    exact (trivial : halfRoot.Defined)
  · have h : (symbolDuration small).Defined :=
      Quantity.defined_div (Quantity.defined_ofNat _) h3 (by simp [small, ratParams])
    exact h
  · simp [rxOpen, withCommand, small, ratParams]

/-- For the closed forms of the two modulation calls and of the demodulation call. -/
theorem witness_closed_forms :
    State.reset.tx.st = .idle ∧ State.reset.rx.st = .idle ∧ validate small = [] ∧ ∀ v ∈ [0, 1, 15], v < 16 := by decide

theorem witness_EmptyCalls :
    State.reset.tx.st = .idle ∧ State.reset.rx.st = .idle ∧ validate small = [] ∧ validate wrong ≠ [] := by decide

theorem witness_SilenceDecodesToOne : State.reset.rx.st = .idle ∧ validate small = [] ∧ samplesPerSymbol small = 4 := by decide

theorem witness_SingleSampleWindowsTie :
    State.reset.rx.st = .idle ∧ validate single = [] ∧ samplesPerSymbol single = 1 := by decide

theorem witness_RoundTripAtCalibration : State.reset.tx.st = .idle ∧ State.reset.rx.st = .idle := by decide

theorem witness_QuantizationBound : (-1 : ℝ) ≤ 1 / 2 ∧ (1 / 2 : ℝ) ≤ 1 := by norm_num

theorem witness_QuantizationMovesWindows :
    ∀ x ∈ [Quantity.zero, Quantity.one, Quantity.ofRat (mkRat (-1) 1)], -1 ≤ x.val ∧ x.val ≤ 1 := by
  simp [Rat.mkRat_eq_div]

theorem witness_WaveformFitsCodec :
    State.reset.tx.st = .idle ∧ validate small = [] ∧ ∀ v ∈ [0, 1, 15], v < 16 := by decide

theorem witness_CalibrationMargin : State.reset.tx.st = .idle ∧ [(0 : Bit), 1][1]? = some 1 := by decide

theorem witness_QuantizedRoundTripAtCalibration : State.reset.tx.st = .idle ∧ State.reset.rx.st = .idle := by decide

/-- Every code is some step's (rule R101's table): deliveries from reset with the codes 0 to 5. -/
theorem witness_ResponseCodes :
    (after State.reset (step (withCommand 0x00 .none State.reset))).rspCodes = [0] ∧
    (after State.reset (step (withCommand 0x10 (.params (ratParams 1200 1200 44100 300)) State.reset))).rspCodes = [1] ∧
    (after State.reset (step (withCommand 0x11 (.params (ratParams 1200 2200 200 300)) State.reset))).rspCodes = [2] ∧
    (after State.reset (step (withCommand 0x40 (.params wrong) State.reset))).rspCodes = [3] ∧
    (after State.reset (step (withCommand 0x50 .none State.reset))).rspCodes = [4] ∧
    (after State.reset (step (withCommand 0x7F .none State.reset))).rspCodes = [5] := by decide

/-- Parameters with eight samples per symbol, at 8 samples per second. -/
def eight : Params := ratParams 1 2 8 1

/-- A window of eight samples of a tone of `f` Hz. -/
def eightWindow (f : Nat) : List Quantity := (List.range 8).map fun k => (sampleFsk (Quantity.ofNat f) k eight.samplingRate).1

/-- The hypotheses of `WholeCycleWindows` on such a window, with start phase 0 and `f` cycles. -/
def holdsCycles (f : Nat) : Prop :=
  eight.samplingRate.val ≠ 0 ∧ 0 < f ∧ (Quantity.ofNat f).val * (eightWindow f).length = f * eight.samplingRate.val ∧
  ¬ (eightWindow f).length ∣ 2 * f ∧
  ∀ k < (eightWindow f).length, ((eightWindow f).getD k Quantity.zero).val =
    Real.sin (2 * Real.pi * (Quantity.ofNat f).val * k / eight.samplingRate.val + 0)

theorem eightWindow_holdsCycles {f : Nat} (hf : f = 1 ∨ f = 2) : holdsCycles f := by
  refine ⟨by simp [eight, ratParams], by omega, by simp [eight, eightWindow, ratParams],
    by rcases hf with rfl | rfl <;> simp [eightWindow], fun k hk => ?_⟩
  have hk' : k < 8 := by simpa [eightWindow] using hk
  simp only [eightWindow, List.getD_eq_getElem?_getD, List.getElem?_map, List.getElem?_range hk', Option.map_some,
    Option.getD_some, (sampleFsk_val _ _ _).1, add_zero]
  congr 1; ring

theorem witness_WholeCycleWindows :
    holdsCycles 1 ∧ eight.freq0 = Quantity.ofNat 1 ∧ holdsCycles 2 ∧ eight.freq1 = Quantity.ofNat 2 :=
  ⟨eightWindow_holdsCycles (.inl rfl), by decide, eightWindow_holdsCycles (.inr rfl), by decide⟩

end Sys2Proof.Tests
end

section
/-! PROOF. O16: the comparisons of the model are those of the reals. -/

open Sys2Proof

/-- Settles O16: each test is read off `Quantity.compare_spec`, which holds the comparison to the order of the reals. -/
theorem exactOrder : Obligations.ExactOrder := fun _ _ ha hb =>
  ⟨Quantity.lt_iff ha hb, Quantity.gt_iff ha hb, Quantity.eq_iff ha hb, Quantity.nonPos_iff ha⟩

end

section
/-! PROOF. O43: the block makes no undefined real.  The only divisors it uses are sampling rates of open calls, and those
are positive by the parameter check (rule R58).  First the quantities the units compute, then the registers of each unit,
then one rule per state operation, then `exec` and `step`. -/

namespace Sys2Proof.Machine

/-! ## The quantities the units compute -/

theorem defined_mapFreq {f0 f1 : Quantity} (h0 : f0.Defined) (h1 : f1.Defined) (v : Nat) : (mapFreq v f0 f1).Defined := by
  unfold mapFreq
  split
  · exact h0
  · exact h1

theorem defined_twoPi : twoPi.Defined := Quantity.defined_mul (Quantity.defined_ofNat 2) Quantity.defined_pi

/-- The time of a sample: the index divided by a positive sampling rate. -/
theorem defined_sampleTime {fs : Quantity} (hfs : fs.Defined) (hpos : 0 < fs.val) (i : Nat) :
    (Quantity.div (Quantity.ofNat i) fs).Defined := Quantity.defined_div (Quantity.defined_ofNat i) hfs hpos.ne'

theorem defined_deltaPhi {f fs : Quantity} (hf : f.Defined) (hfs : fs.Defined) (hpos : 0 < fs.val) :
    (deltaPhi f fs).Defined := Quantity.defined_div (Quantity.defined_mul defined_twoPi hf) hfs hpos.ne'

theorem defined_refAngle {f fs : Quantity} (hf : f.Defined) (hfs : fs.Defined) (hpos : 0 < fs.val) (k : Nat) :
    (refAngle f k fs).Defined :=
  Quantity.defined_mul (Quantity.defined_mul defined_twoPi hf) (defined_sampleTime hfs hpos k)

/-- The sample of `SampleFSK` is the sine of the reference angle at the global index. -/
theorem defined_sampleFsk {f fs : Quantity} (hf : f.Defined) (hfs : fs.Defined) (hpos : 0 < fs.val) (i : Nat) :
    (sampleFsk f i fs).1.Defined ∧ (sampleFsk f i fs).2.Defined :=
  ⟨Quantity.defined_sin (defined_refAngle hf hfs hpos i), defined_sampleTime hfs hpos i⟩

/-- One of the four sums after a sample: the sum plus the sample times a reference. -/
theorem defined_accumulate {a x r : Quantity} (ha : a.Defined) (hx : x.Defined) (hr : r.Defined) :
    (Quantity.add a (Quantity.mul x r)).Defined := Quantity.defined_add ha (Quantity.defined_mul hx hr)

/-- The parameter check admits positive sampling rates only. -/
theorem samplingRate_pos {P : Params} (h : validate P = []) : 0 < P.samplingRate.val := by
  obtain ⟨-, -, hfs, -⟩ := valid_tests h
  exact (Quantity.pos_of_nonPos hfs).1

theorem defined_symbolDuration {P : Params} (hP : paramsDefined P) (h : validate P = []) : (symbolDuration P).Defined := by
  obtain ⟨-, -, hfs, -⟩ := hP
  exact defined_sampleTime hfs (samplingRate_pos h) _

/-! ## The registers of an open call -/

/-- What `AllDefined` asks of the TX registers of an open call. -/
structure TxUnit.RegsDefined (u : TxUnit) : Prop where
  f0 : u.f0.Defined
  f1 : u.f1.Defined
  fs : u.fs.Defined
  br : u.br.Defined
  tsym : u.tsym.Defined
  phi : u.phi.Defined
  fs_pos : 0 < u.fs.val

/-- What `AllDefined` asks of the RX registers of an open call. -/
structure RxUnit.RegsDefined (u : RxUnit) : Prop where
  f0 : u.f0.Defined
  f1 : u.f1.Defined
  fs : u.fs.Defined
  br : u.br.Defined
  tsym : u.tsym.Defined
  i0 : u.i0.Defined
  q0 : u.q0.Defined
  i1 : u.i1.Defined
  q1 : u.q1.Defined
  fs_pos : 0 < u.fs.val

theorem TxUnit.regsDefined_iff (u : TxUnit) : u.RegsDefined ↔
    u.f0.Defined ∧ u.f1.Defined ∧ u.fs.Defined ∧ u.br.Defined ∧ u.tsym.Defined ∧ u.phi.Defined ∧ 0 < u.fs.val :=
  ⟨fun ⟨h0, h1, hs, hb, ht, hp, hpos⟩ => ⟨h0, h1, hs, hb, ht, hp, hpos⟩,
    fun ⟨h0, h1, hs, hb, ht, hp, hpos⟩ => ⟨h0, h1, hs, hb, ht, hp, hpos⟩⟩

theorem RxUnit.regsDefined_iff (u : RxUnit) : u.RegsDefined ↔
    u.f0.Defined ∧ u.f1.Defined ∧ u.fs.Defined ∧ u.br.Defined ∧ u.tsym.Defined ∧ u.i0.Defined ∧ u.q0.Defined ∧
    u.i1.Defined ∧ u.q1.Defined ∧ 0 < u.fs.val :=
  ⟨fun ⟨h0, h1, hs, hb, ht, hi0, hq0, hi1, hq1, hpos⟩ => ⟨h0, h1, hs, hb, ht, hi0, hq0, hi1, hq1, hpos⟩,
    fun ⟨h0, h1, hs, hb, ht, hi0, hq0, hi1, hq1, hpos⟩ => ⟨h0, h1, hs, hb, ht, hi0, hq0, hi1, hq1, hpos⟩⟩

theorem allDefined_iff (s : State) : AllDefined s ↔
    (∀ e ∈ s.input, eventDefined e) ∧ payloadDefined s.port ∧ (s.tx.st = .active → s.tx.RegsDefined) ∧
    (s.rx.st = .active → s.rx.RegsDefined) ∧ ∀ e ∈ s.txout, e.1.Defined ∧ e.2.Defined := by
  rw [TxUnit.regsDefined_iff, RxUnit.regsDefined_iff, AllDefined]

theorem openTx_regsDefined {P : Params} (hP : paramsDefined P) (hv : validate P = []) (m : Mode) (u : TxUnit) :
    (openTx m P u).RegsDefined := by
  obtain ⟨h0, h1, hs, hb⟩ := hP
  exact ⟨h0, h1, hs, hb, defined_symbolDuration ⟨h0, h1, hs, hb⟩ hv, trivial, samplingRate_pos hv⟩

/-- An empty window holds the sum 0 four times. -/
theorem dump_regsDefined {u : RxUnit} (h : u.RegsDefined) : (dump u).RegsDefined :=
  { h with i0 := trivial, q0 := trivial, i1 := trivial, q1 := trivial }

theorem openRx_regsDefined {P : Params} (hP : paramsDefined P) (hv : validate P = []) (u : RxUnit) :
    (openRx P u).RegsDefined := by
  obtain ⟨h0, h1, hs, hb⟩ := hP
  exact ⟨h0, h1, hs, hb, defined_symbolDuration ⟨h0, h1, hs, hb⟩ hv, trivial, trivial, trivial, trivial,
    samplingRate_pos hv⟩

/-- One pass of the loop of `TXSYM` in either mode: the element it emits. -/
theorem synthesize_defined {f : Quantity} (hf : f.Defined) {u : TxUnit} (h : u.RegsDefined) :
    (synthesize f u).2.1.Defined ∧ (synthesize f u).2.2.Defined := by
  unfold synthesize
  split
  · exact defined_sampleFsk hf h.fs h.fs_pos u.n
  · have hphi := Quantity.defined_add h.phi (defined_deltaPhi hf h.fs h.fs_pos)
    exact ⟨Quantity.defined_sin hphi, defined_sampleTime h.fs h.fs_pos u.n⟩

/-- One pass of the loop of `TXSYM` in either mode: the registers it leaves, where only `TX.PHI` may be a new number. -/
theorem txNext_regsDefined {f : Quantity} (hf : f.Defined) {u : TxUnit} (h : u.RegsDefined) :
    (txNext f u).RegsDefined := by
  cases hm : u.mode with
  | fsk => rw [txNext_fsk hm]; exact { h with }
  | cpfsk =>
    rw [txNext_cpfsk hm]
    exact { h with phi := Quantity.defined_add h.phi (defined_deltaPhi hf h.fs h.fs_pos) }

theorem integrate_regsDefined {x : Quantity} (hx : x.Defined) {u : RxUnit} (h : u.RegsDefined) :
    (integrate x u).RegsDefined := by
  have angle0 := defined_refAngle h.f0 h.fs h.fs_pos u.k
  have angle1 := defined_refAngle h.f1 h.fs h.fs_pos u.k
  exact { h with
    i0 := defined_accumulate h.i0 hx (Quantity.defined_cos angle0)
    q0 := defined_accumulate h.q0 hx (Quantity.defined_sin angle0)
    i1 := defined_accumulate h.i1 hx (Quantity.defined_cos angle1)
    q1 := defined_accumulate h.q1 hx (Quantity.defined_sin angle1) }

/-! ## One rule per state operation -/

/-- A response empties the port and touches no other number. -/
theorem allDefined_respond {s : State} (h : AllDefined s) (c : Response) : AllDefined (respond c s) := by
  obtain ⟨hin, -, htx, hrx, hout⟩ := h
  exact ⟨hin, trivial, htx, hrx, hout⟩

/-- The fault entry writes `ERR` and responds, and `ERR` holds no real number. -/
theorem allDefined_raise {s : State} (h : AllDefined s) (c : Response) (cs : List Response) : AllDefined (raise c cs s) :=
  allDefined_respond (s := orErr (errBits (c :: cs)) s) h c

theorem allDefined_setTx {s : State} (h : AllDefined s) {u : TxUnit} (hu : u.st = .active → u.RegsDefined) :
    AllDefined (setTx u s) := by
  obtain ⟨hin, hport, -, hrx, hout⟩ := (allDefined_iff s).mp h
  exact (allDefined_iff _).mpr ⟨hin, hport, hu, hrx, hout⟩

theorem allDefined_setRx {s : State} (h : AllDefined s) {u : RxUnit} (hu : u.st = .active → u.RegsDefined) :
    AllDefined (setRx u s) := by
  obtain ⟨hin, hport, htx, -, hout⟩ := (allDefined_iff s).mp h
  exact (allDefined_iff _).mpr ⟨hin, hport, htx, hu, hout⟩

theorem allDefined_emitTx {s : State} (h : AllDefined s) {v : Quantity × Quantity} (hv : v.1.Defined ∧ v.2.Defined) :
    AllDefined (emitTx v s) := by
  obtain ⟨hin, hport, htx, hrx, hout⟩ := h
  refine ⟨hin, hport, htx, hrx, fun e he => ?_⟩
  rcases List.mem_append.mp he with he | he
  · exact hout e he
  · rw [List.mem_singleton.mp he]; exact hv

/-- A delivery puts one of the host's payloads on the port. -/
theorem allDefined_deliver {s : State} (h : AllDefined s) {w : CmdWord} {p : Payload} {rest : List HostEvent}
    (hs : s.input = .command w p :: rest) : AllDefined (deliver p rest s) := by
  obtain ⟨hin, -, htx, hrx, hout⟩ := h
  rw [hs, List.forall_mem_cons] at hin
  obtain ⟨hp, hrest⟩ := hin
  exact ⟨hrest, hp, htx, hrx, hout⟩

/-- After reset both units are idle and `TXOUT` is empty. -/
theorem allDefined_takeReset {rest : List HostEvent} (h : ∀ e ∈ rest, eventDefined e) : AllDefined (takeReset rest) :=
  ⟨h, trivial, nofun, nofun, nofun⟩

/-! ## The loop of `TXSYM`, and `RXSAMP` -/

theorem txStep_st (f : Quantity) (s : State) : (txStep f s).tx.st = s.tx.st := by
  have hnext : (txStep f s).tx = txNext f s.tx := rfl
  rw [hnext, txNext_eq]

theorem allDefined_txStep {f : Quantity} (hf : f.Defined) {s : State} (h : AllDefined s) (hst : s.tx.st = .active) :
    AllDefined (txStep f s) := by
  obtain ⟨-, -, htx, -, -⟩ := (allDefined_iff s).mp h
  have hregs := htx hst
  exact allDefined_emitTx (allDefined_setTx h fun _ => txNext_regsDefined hf hregs) (synthesize_defined hf hregs)

theorem allDefined_txSteps {f : Quantity} (hf : f.Defined) (k : Nat) {s : State} (h : AllDefined s)
    (hst : s.tx.st = .active) : AllDefined (txSteps f k s) := by
  induction k generalizing s with
  | zero => exact h
  | succ k ih => exact ih (allDefined_txStep hf h hst) ((txStep_st f s).trans hst)

/-- Complete or not, the window's registers are defined: the bit that goes out is no real number. -/
theorem allDefined_takeSample {x : Quantity} (hx : x.Defined) {s : State} (h : AllDefined s) (hst : s.rx.st = .active) :
    AllDefined (takeSample x s) := by
  obtain ⟨-, -, -, hrx, -⟩ := (allDefined_iff s).mp h
  have hregs := integrate_regsDefined hx (hrx hst)
  by_cases hk : s.rx.k + 1 = s.rx.sps
  · rw [takeSample_complete hk]
    exact allDefined_setRx (s := emitRx _ s) h fun _ => dump_regsDefined hregs
  · rw [takeSample_inside hk]
    exact allDefined_setRx h fun _ => hregs

/-! ## Commands and steps -/

/-- The payload a START reads. -/
theorem AllDefined.params {s : State} (h : AllDefined s) {P : Params} (hp : s.port = .params P) : paramsDefined P := by
  obtain ⟨-, hport, -⟩ := h
  rwa [hp] at hport

/-- The payload `RXSAMP` reads. -/
theorem AllDefined.sample {s : State} (h : AllDefined s) {x : Quantity} (hp : s.port = .sample x) : x.Defined := by
  obtain ⟨-, hport, -⟩ := h
  rwa [hp] at hport

/-- A call opens with the host's numbers. -/
theorem allDefined_txOpened {s : State} (h : AllDefined s) (m : Mode) {P : Params} (hp : s.port = .params P)
    (hv : validate P = []) : AllDefined (respond .ok (setTx (openTx m P s.tx) s)) :=
  allDefined_respond (allDefined_setTx h fun _ => openTx_regsDefined (h.params hp) hv m s.tx) .ok

theorem Completed.allDefined {i : Instr} {s t : State} (hc : Completed i s t) (h : AllDefined s) : AllDefined t := by
  cases i with
  | nop =>
    subst hc
    exact allDefined_respond h .ok
  | txstartF =>
    obtain ⟨-, P, hp, hv, rfl⟩ := hc
    exact allDefined_txOpened h .fsk hp hv
  | txstartC =>
    obtain ⟨-, P, hp, hv, rfl⟩ := hc
    exact allDefined_txOpened h .cpfsk hp hv
  | txsym v =>
    obtain ⟨hst, rfl⟩ := hc
    obtain ⟨-, -, htx, -, -⟩ := (allDefined_iff s).mp h
    have htone := defined_mapFreq (htx hst).f0 (htx hst).f1 v
    exact allDefined_respond (allDefined_txSteps htone _ h hst) .ok
  | txend =>
    obtain ⟨-, rfl⟩ := hc
    exact allDefined_respond (allDefined_setTx (u := { s.tx with st := .idle }) h nofun) .ok
  | rxstart =>
    obtain ⟨-, P, hp, hv, rfl⟩ := hc
    exact allDefined_respond (allDefined_setRx h fun _ => openRx_regsDefined (h.params hp) hv s.rx) .ok
  | rxsamp =>
    obtain ⟨hst, x, hx, rfl⟩ := hc
    exact allDefined_respond (allDefined_takeSample (h.sample hx) h hst) .ok
  | rxend =>
    obtain ⟨-, rfl⟩ := hc
    exact allDefined_respond (allDefined_setRx (u := { dump s.rx with st := .idle }) h nofun) .ok

theorem exec_allDefined {i : Instr} {s t : State} (h : AllDefined s) (he : exec i s = .next t) : AllDefined t := by
  rcases exec_next he with ⟨c, cs, -, rfl⟩ | hc
  · exact allDefined_raise h c cs
  · exact hc.allDefined h

theorem execWord_allDefined {w : CmdWord} {s t : State} (h : AllDefined s) (he : execWord w s = .next t) :
    AllDefined t := by
  unfold execWord at he
  split at he
  · exact exec_allDefined h he
  · cases he
    exact allDefined_raise h _ _

theorem step_allDefined {s t : State} (h : AllDefined s) (he : step s = .next t) : AllDefined t := by
  unfold step at he
  split at he
  next => cases he; exact h
  next rest hs =>
    cases he
    obtain ⟨hin, -⟩ := h
    rw [hs, List.forall_mem_cons] at hin
    exact allDefined_takeReset hin.2
  next w p rest hs => exact execWord_allDefined (allDefined_deliver h hs) he

end Sys2Proof.Machine

/-- Settles O43, by the three kinds of event a step takes. -/
theorem realsKept : Obligations.RealsKept := fun _ _ => Sys2Proof.Machine.step_allDefined

end

section
/-! PROOF. What `exec` does, as an equivalence, and as a change that a state undergoes whatever its other parts hold: the
reading half of rules R12, R16 and R23.  Frames and noninterference of commands are read off `exec_move`. -/

namespace Sys2Proof.Machine

/-! ## The converse of `exec_next` -/

theorem withParams_params {s : State} {P : Params} (h : s.port = .params P) (f : Params → Result) :
    withParams s f = f P := by
  simp only [withParams, h]

theorem withSample_sample {s : State} {x : Quantity} (h : s.port = .sample x) (f : Quantity → Result) :
    withSample s f = f x := by
  simp only [withSample, h]

theorem openCall_invalid {P : Params} {c : Response} {cs : List Response} (h : validate P = c :: cs) (s o : State) :
    openCall P s o = .next (raise c cs s) := by
  simp only [openCall, h]

theorem startTx_active {s : State} (h : s.tx.st = .active) (m : Mode) :
    startTx m s = .next (raise .sequenceError [] s) := by
  simp only [startTx, h]

theorem startTx_idle {s : State} (h : s.tx.st = .idle) {P : Params} (hp : s.port = .params P) (m : Mode) :
    startTx m s = openCall P s (setTx (openTx m P s.tx) s) := by
  simp only [startTx, h, withParams_params hp]

theorem execRxstart_idle {s : State} (h : s.rx.st = .idle) {P : Params} (hp : s.port = .params P) :
    execRxstart s = openCall P s (setRx (openRx P s.rx) s) := by
  simp only [execRxstart, h, withParams_params hp]

/-- Rule R105: a command not legal in its unit's state is a `SequenceError`, whatever stands on the port. -/
theorem exec_wrongState {i : Instr} {s : State} (h : wrongState s i = true) :
    exec i s = .next (raise .sequenceError [] s) := by
  cases i with
  | nop => cases h
  | txstartF => exact startTx_active (of_decide_eq_true h) .fsk
  | txstartC => exact startTx_active (of_decide_eq_true h) .cpfsk
  | txsym v => simp only [exec, execTxsym, of_decide_eq_true h]
  | txend => simp only [exec, execTxend, of_decide_eq_true h]
  | rxstart => simp only [exec, execRxstart, of_decide_eq_true h]
  | rxsamp => simp only [exec, execRxsamp, of_decide_eq_true h]
  | rxend => simp only [exec, execRxend, of_decide_eq_true h]

theorem UnitState.idle_of_not_active {u : UnitState} (h : decide (u = .active) = false) : u = .idle := by
  cases u
  · rfl
  · cases h

/-- Rules R109, R110: a START legal in its unit's state raises the causes `Validate` finds. -/
theorem exec_invalidStart {i : Instr} {s : State} {P : Params} {c : Response} {cs : List Response}
    (hw : wrongState s i = false) (hi : isStart i = true) (hp : s.port = .params P) (hv : validate P = c :: cs) :
    exec i s = .next (raise c cs s) := by
  cases i with
  | txstartF => exact (startTx_idle (UnitState.idle_of_not_active hw) hp .fsk).trans (openCall_invalid hv ..)
  | txstartC => exact (startTx_idle (UnitState.idle_of_not_active hw) hp .cpfsk).trans (openCall_invalid hv ..)
  | rxstart => exact (execRxstart_idle (UnitState.idle_of_not_active hw) hp).trans (openCall_invalid hv ..)
  | _ => cases hi

theorem FaultCauses.exec_eq {i : Instr} {s : State} {c : Response} {cs : List Response} (h : FaultCauses i s c cs) :
    exec i s = .next (raise c cs s) := by
  rcases h with ⟨hw, rfl, rfl⟩ | ⟨hw, hi, P, hp, hv⟩
  · exact exec_wrongState hw
  · exact exec_invalidStart hw hi hp hv

theorem Completed.exec_eq {i : Instr} {s t : State} (h : Completed i s t) : exec i s = .next t := by
  cases i with
  | nop => cases h; rfl
  | txstartF => obtain ⟨hst, P, hp, hv, rfl⟩ := h; exact (startTx_idle hst hp .fsk).trans (openCall_valid hv)
  | txstartC => obtain ⟨hst, P, hp, hv, rfl⟩ := h; exact (startTx_idle hst hp .cpfsk).trans (openCall_valid hv)
  | txsym v => obtain ⟨hst, rfl⟩ := h; simp only [exec, execTxsym, hst]
  | txend => obtain ⟨hst, rfl⟩ := h; simp only [exec, execTxend, hst]
  | rxstart => obtain ⟨hst, P, hp, hv, rfl⟩ := h; exact (execRxstart_idle hst hp).trans (openCall_valid hv)
  | rxsamp => obtain ⟨hst, x, hx, rfl⟩ := h; simp only [exec, execRxsamp, hst, withSample_sample hx]
  | rxend => obtain ⟨hst, rfl⟩ := h; simp only [exec, execRxend, hst]

/-- A command that completes is legal in its unit's state. -/
theorem Completed.wrongState_eq {i : Instr} {s t : State} (h : Completed i s t) : wrongState s i = false := by
  cases i with
  | nop => rfl
  | _ => obtain ⟨hst, -⟩ := h; simp only [wrongState, hst]; rfl

/-! ## `RXSAMP` as a change of the RX unit -/

/-- The RX unit after a sample (rules R76, R80). -/
def rxSampled (x : Quantity) (u : RxUnit) : RxUnit :=
  if u.k + 1 = u.sps then dump (integrate x u) else integrate x u

/-- The bits a sample emits: that of the window it completes, if it does. -/
def rxDecided (x : Quantity) (u : RxUnit) : List Bit :=
  if u.k + 1 = u.sps then [windowBit (integrate x u)] else []

/-- `RXSAMP` writes the RX unit and appends to `RXOUT`, and touches nothing else. -/
theorem takeSample_eq (x : Quantity) (s : State) :
    takeSample x s = { s with rx := rxSampled x s.rx, rxout := s.rxout ++ rxDecided x s.rx } := by
  by_cases hk : s.rx.k + 1 = s.rx.sps
  · rw [takeSample_complete hk, rxSampled, rxDecided, if_pos hk, if_pos hk]; rfl
  · rw [takeSample_inside hk, rxSampled, rxDecided, if_neg hk, if_neg hk, List.append_nil]; rfl

/-! ## Moves -/

/-- A change of the state that a command makes: the unit it writes, if any, what it adds to `ERR` and appends to the logs. -/
structure Move where
  tx : Option TxUnit
  rx : Option RxUnit
  added : ErrBits
  pairs : List (Quantity × Quantity)
  bits : List Bit
  response : Response

/-- The state after the change. -/
def Move.apply (m : Move) (s : State) : State :=
  { s with tx := m.tx.getD s.tx, rx := m.rx.getD s.rx, err := s.err ||| m.added, txout := s.txout ++ m.pairs,
           rxout := s.rxout ++ m.bits, rsp := s.rsp ++ [m.response], port := .none }

/-- The fault entry as a change (rule R109). -/
def Move.fault (c : Response) (cs : List Response) : Move := ⟨none, none, errBits (c :: cs), [], [], c⟩

/-- A completed command that writes neither unit. -/
def Move.nop : Move := ⟨none, none, 0, [], [], .ok⟩

/-- A completed command of the TX unit. -/
def Move.onTx (u : TxUnit) (pairs : List (Quantity × Quantity)) : Move := ⟨some u, none, 0, pairs, [], .ok⟩

/-- A completed command of the RX unit. -/
def Move.onRx (u : RxUnit) (bits : List Bit) : Move := ⟨none, some u, 0, [], bits, .ok⟩

theorem Move.fault_apply (c : Response) (cs : List Response) (s : State) :
    (Move.fault c cs).apply s = raise c cs s := by
  simp only [Move.apply, Move.fault, Option.getD_none, List.append_nil]; rfl

theorem Move.nop_apply (s : State) : Move.nop.apply s = respond .ok s := by
  simp [Move.apply, Move.nop, respond]

theorem Move.onTx_apply (u : TxUnit) (pairs : List (Quantity × Quantity)) (s : State) :
    (Move.onTx u pairs).apply s = respond .ok { s with tx := u, txout := s.txout ++ pairs } := by
  simp [Move.apply, Move.onTx, respond]

theorem Move.onRx_apply (u : RxUnit) (bits : List Bit) (s : State) :
    (Move.onRx u bits).apply s = respond .ok { s with rx := u, rxout := s.rxout ++ bits } := by
  simp [Move.apply, Move.onRx, respond]

/-- The frame of a change that command `i` makes of state `s`: its own unit alone, elements and bits only if it is the command
that emits them, and an idle unit only to open it. -/
structure Move.Fits (m : Move) (i : Instr) (s : State) : Prop where
  tx : forTx i = false → m.tx = none
  rx : forRx i = false → m.rx = none
  pairs : (∀ v, i ≠ .txsym v) → m.pairs = []
  bits : i ≠ .rxsamp → m.bits = []
  txOpens : s.tx.st = .idle → ∀ u, m.tx = some u → u.st = .active
  rxOpens : s.rx.st = .idle → ∀ u, m.rx = some u → u.st = .active

theorem Move.fault_fits (c : Response) (cs : List Response) (i : Instr) (s : State) : (Move.fault c cs).Fits i s :=
  ⟨fun _ => rfl, fun _ => rfl, fun _ => rfl, fun _ => rfl, nofun, nofun⟩

theorem Move.nop_fits (i : Instr) (s : State) : Move.nop.Fits i s :=
  ⟨fun _ => rfl, fun _ => rfl, fun _ => rfl, fun _ => rfl, nofun, nofun⟩

theorem Move.onTx_fits {i : Instr} {s : State} {u : TxUnit} {pairs : List (Quantity × Quantity)} (hi : forTx i = true)
    (hp : (∀ v, i ≠ .txsym v) → pairs = []) (ho : s.tx.st = .idle → u.st = .active) : (Move.onTx u pairs).Fits i s :=
  ⟨fun h => absurd (hi.symm.trans h) nofun, fun _ => rfl, hp, fun _ => rfl, fun h _ hu => Option.some.inj hu ▸ ho h, nofun⟩

theorem Move.onRx_fits {i : Instr} {s : State} {u : RxUnit} {bits : List Bit} (hi : forRx i = true)
    (hb : i ≠ .rxsamp → bits = []) (ho : s.rx.st = .idle → u.st = .active) : (Move.onRx u bits).Fits i s :=
  ⟨fun _ => rfl, fun h => absurd (hi.symm.trans h) nofun, fun _ => rfl, hb, nofun, fun h _ hu => Option.some.inj hu ▸ ho h⟩

/-! ## What a command reads -/

/-- The two states agree on what command `i` reads: the payload, the state bit of its unit, and the registers of its unit if
a call is open there (rules R12, R16, R23). -/
structure SameReads (i : Instr) (s s' : State) : Prop where
  port : s'.port = s.port
  tx : forTx i = true → s'.tx.st = s.tx.st ∧ (s.tx.st = .active → s'.tx = s.tx)
  rx : forRx i = true → s'.rx.st = s.rx.st ∧ (s.rx.st = .active → s'.rx = s.rx)

theorem SameReads.of_units {i : Instr} {s s' : State} (hp : s'.port = s.port) (htx : s'.tx = s.tx) (hrx : s'.rx = s.rx) :
    SameReads i s s' :=
  ⟨hp, fun _ => ⟨congrArg _ htx, fun _ => htx⟩, fun _ => ⟨congrArg _ hrx, fun _ => hrx⟩⟩

/-- All but RX commands read nothing of the RX unit. -/
theorem SameReads.of_tx {i : Instr} {s s' : State} (hi : forRx i = false) (hp : s'.port = s.port) (htx : s'.tx = s.tx) :
    SameReads i s s' :=
  ⟨hp, fun _ => ⟨congrArg _ htx, fun _ => htx⟩, fun h => absurd (hi.symm.trans h) nofun⟩

/-- All but TX commands read nothing of the TX unit. -/
theorem SameReads.of_rx {i : Instr} {s s' : State} (hi : forTx i = false) (hp : s'.port = s.port) (hrx : s'.rx = s.rx) :
    SameReads i s s' :=
  ⟨hp, fun h => absurd (hi.symm.trans h) nofun, fun _ => ⟨congrArg _ hrx, fun _ => hrx⟩⟩

theorem SameReads.wrongState_eq {i : Instr} {s s' : State} (r : SameReads i s s') : wrongState s' i = wrongState s i := by
  obtain ⟨-, htx, hrx⟩ := r
  cases i with
  | nop => rfl
  | txstartF => simp only [wrongState, (htx rfl).1]
  | txstartC => simp only [wrongState, (htx rfl).1]
  | txsym v => simp only [wrongState, (htx rfl).1]
  | txend => simp only [wrongState, (htx rfl).1]
  | rxstart => simp only [wrongState, (hrx rfl).1]
  | rxsamp => simp only [wrongState, (hrx rfl).1]
  | rxend => simp only [wrongState, (hrx rfl).1]

theorem FaultCauses.congr {i : Instr} {s s' : State} {c : Response} {cs : List Response} (h : FaultCauses i s c cs)
    (r : SameReads i s s') : FaultCauses i s' c cs := by
  rwa [FaultCauses, r.wrongState_eq, r.port]

/-- A completed command makes the same change of every state that agrees on what the command reads. -/
theorem Completed.move {i : Instr} {s t : State} (h : Completed i s t) :
    ∃ m : Move, m.Fits i s ∧ m.added = 0 ∧ m.response = .ok ∧
      ∀ s', SameReads i s s' → Completed i s' (m.apply s') := by
  cases i with
  | nop => exact ⟨.nop, Move.nop_fits .., rfl, rfl, fun s' _ => Move.nop_apply s'⟩
  | txstartF =>
    obtain ⟨hst, P, hp, hv, -⟩ := h
    refine ⟨.onTx (openTx .fsk P s.tx) [], Move.onTx_fits rfl (fun _ => rfl) fun _ => rfl, rfl, rfl, fun s' r => ?_⟩
    exact ⟨(r.tx rfl).1.trans hst, P, r.port.trans hp, hv, by rw [Move.onTx_apply, List.append_nil]; rfl⟩
  | txstartC =>
    obtain ⟨hst, P, hp, hv, -⟩ := h
    refine ⟨.onTx (openTx .cpfsk P s.tx) [], Move.onTx_fits rfl (fun _ => rfl) fun _ => rfl, rfl, rfl, fun s' r => ?_⟩
    exact ⟨(r.tx rfl).1.trans hst, P, r.port.trans hp, hv, by rw [Move.onTx_apply, List.append_nil]; rfl⟩
  | txsym v =>
    obtain ⟨hst, -⟩ := h
    refine ⟨.onTx (txAfter (mapFreq v s.tx.f0 s.tx.f1) s.tx.sps s.tx) (txWave (mapFreq v s.tx.f0 s.tx.f1) s.tx.sps s.tx),
      Move.onTx_fits rfl (fun hi => absurd rfl (hi v)) fun hi => absurd (hi.symm.trans hst) nofun, rfl, rfl, fun s' r => ?_⟩
    obtain ⟨hst', hregs⟩ := r.tx rfl
    exact ⟨hst'.trans hst, by rw [Move.onTx_apply, txSteps_eq, hregs hst]⟩
  | txend =>
    obtain ⟨hst, -⟩ := h
    refine ⟨.onTx { s.tx with st := .idle } [], Move.onTx_fits rfl (fun _ => rfl) fun hi => absurd (hi.symm.trans hst) nofun,
      rfl, rfl, fun s' r => ?_⟩
    obtain ⟨hst', hregs⟩ := r.tx rfl
    exact ⟨hst'.trans hst, by rw [Move.onTx_apply, hregs hst, List.append_nil]; rfl⟩
  | rxstart =>
    obtain ⟨hst, P, hp, hv, -⟩ := h
    refine ⟨.onRx (openRx P s.rx) [], Move.onRx_fits rfl (fun _ => rfl) fun _ => rfl, rfl, rfl, fun s' r => ?_⟩
    exact ⟨(r.rx rfl).1.trans hst, P, r.port.trans hp, hv, by rw [Move.onRx_apply, List.append_nil]; rfl⟩
  | rxsamp =>
    obtain ⟨hst, x, hx, -⟩ := h
    refine ⟨.onRx (rxSampled x s.rx) (rxDecided x s.rx), Move.onRx_fits rfl (fun hi => absurd rfl hi)
      fun hi => absurd (hi.symm.trans hst) nofun, rfl, rfl, fun s' r => ?_⟩
    obtain ⟨hst', hregs⟩ := r.rx rfl
    exact ⟨hst'.trans hst, x, r.port.trans hx, by rw [Move.onRx_apply, takeSample_eq, hregs hst]⟩
  | rxend =>
    obtain ⟨hst, -⟩ := h
    refine ⟨.onRx { dump s.rx with st := .idle } [], Move.onRx_fits rfl (fun _ => rfl)
      fun hi => absurd (hi.symm.trans hst) nofun, rfl, rfl, fun s' r => ?_⟩
    obtain ⟨hst', hregs⟩ := r.rx rfl
    exact ⟨hst'.trans hst, by rw [Move.onRx_apply, hregs hst, List.append_nil]; rfl⟩

/-- Any command that comes to a next state makes the same change of every state that agrees on what the command reads. -/
theorem exec_move {i : Instr} {s t : State} (h : exec i s = .next t) :
    ∃ m : Move, m.Fits i s ∧ t = m.apply s ∧ ∀ s', SameReads i s s' → exec i s' = .next (m.apply s') := by
  have reads : ∃ m : Move, m.Fits i s ∧ ∀ s', SameReads i s s' → exec i s' = .next (m.apply s') := by
    rcases exec_next h with ⟨c, cs, hf, -⟩ | hc
    · exact ⟨.fault c cs, Move.fault_fits .., fun s' r => by rw [Move.fault_apply]; exact (hf.congr r).exec_eq⟩
    · obtain ⟨m, hm, -, -, hr⟩ := hc.move
      exact ⟨m, hm, fun s' r => (hr s' r).exec_eq⟩
  obtain ⟨m, hm, hr⟩ := reads
  exact ⟨m, hm, by simpa [h] using hr s (.of_units rfl rfl rfl), hr⟩

end Sys2Proof.Machine
end

section
/-! PROOF. O10, O11, O18, O37, O38, O39: what commands leave unchanged and what they do not read. -/

namespace Sys2Proof.Machine

/-! ## The registers of an idle unit (rule R23) -/

theorem sameReads_idleTx {s : State} {u : TxUnit} (hs : s.tx.st = .idle) (hu : u.st = .idle) (i : Instr) :
    SameReads i s { s with tx := u } :=
  ⟨rfl, fun _ => ⟨hu.trans hs.symm, fun ha => absurd (hs.symm.trans ha) nofun⟩, fun _ => ⟨rfl, fun _ => rfl⟩⟩

theorem sameReads_idleRx {s : State} {u : RxUnit} (hs : s.rx.st = .idle) (hu : u.st = .idle) (i : Instr) :
    SameReads i s { s with rx := u } :=
  ⟨rfl, fun _ => ⟨rfl, fun _ => rfl⟩, fun _ => ⟨hu.trans hs.symm, fun ha => absurd (hs.symm.trans ha) nofun⟩⟩

/-- A change of a state whose TX unit is idle either opens that unit and overwrites it whole, or leaves it. -/
theorem Move.Fits.apply_idleTx {m : Move} {i : Instr} {s : State} (hm : m.Fits i s) (hs : s.tx.st = .idle) (u : TxUnit) :
    m.apply { s with tx := u } = if (m.apply s).tx.st = .active then m.apply s else { m.apply s with tx := u } := by
  cases hx : m.tx with
  | none => simp [Move.apply, hx, hs]
  | some v => simp [Move.apply, hx, hm.txOpens hs v hx]

/-- A change of a state whose RX unit is idle either opens that unit and overwrites it whole, or leaves it. -/
theorem Move.Fits.apply_idleRx {m : Move} {i : Instr} {s : State} (hm : m.Fits i s) (hs : s.rx.st = .idle) (u : RxUnit) :
    m.apply { s with rx := u } = if (m.apply s).rx.st = .active then m.apply s else { m.apply s with rx := u } := by
  cases hx : m.rx with
  | none => simp [Move.apply, hx, hs]
  | some v => simp [Move.apply, hx, hm.rxOpens hs v hx]

/-! ## The other unit (rule R12) -/

theorem forRx_of_forTx {i : Instr} (h : forTx i = true) : forRx i = false := by
  cases i <;> simp_all [forTx, forRx]

theorem forTx_of_forRx {i : Instr} (h : forRx i = true) : forTx i = false := by
  cases i <;> simp_all [forTx, forRx]

/-- No command but a TX command emits elements. -/
theorem Move.Fits.pairs_eq_nil {m : Move} {i : Instr} {s : State} (hm : m.Fits i s) (hi : forTx i = false) : m.pairs = [] :=
  hm.pairs fun _ hv => absurd (hv ▸ hi) nofun

/-- No command but an RX command emits bits. -/
theorem Move.Fits.bits_eq_nil {m : Move} {i : Instr} {s : State} (hm : m.Fits i s) (hi : forRx i = false) : m.bits = [] :=
  hm.bits fun hv => absurd (hv ▸ hi) nofun

/-- A command of another unit leaves the TX registers and `TXOUT`. -/
theorem exec_tx_frame {i : Instr} {s t : State} (hi : forTx i = false) (h : exec i s = .next t) :
    t.tx = s.tx ∧ t.txout = s.txout := by
  obtain ⟨m, hm, rfl, -⟩ := exec_move h
  simp [Move.apply, hm.tx hi, hm.pairs_eq_nil hi]

/-- A command of another unit leaves the RX registers and `RXOUT`. -/
theorem exec_rx_frame {i : Instr} {s t : State} (hi : forRx i = false) (h : exec i s = .next t) :
    t.rx = s.rx ∧ t.rxout = s.rxout := by
  obtain ⟨m, hm, rfl, -⟩ := exec_move h
  simp [Move.apply, hm.rx hi, hm.bits_eq_nil hi]

/-- A TX command does the same whatever stands in the RX unit. -/
theorem exec_with_rx {i : Instr} {s t : State} (hi : forTx i = true) (h : exec i s = .next t) (r : RxUnit)
    (bits : List Bit) : exec i { s with rx := r, rxout := bits } = .next { t with rx := r, rxout := bits } := by
  have hrx := forRx_of_forTx hi
  obtain ⟨m, hm, rfl, hr⟩ := exec_move h
  rw [hr { s with rx := r, rxout := bits } (.of_tx hrx rfl rfl)]
  simp [Move.apply, hm.rx hrx, hm.bits_eq_nil hrx]

/-- An RX command does the same whatever stands in the TX unit. -/
theorem exec_with_tx {i : Instr} {s t : State} (hi : forRx i = true) (h : exec i s = .next t) (u : TxUnit)
    (pairs : List (Quantity × Quantity)) :
    exec i { s with tx := u, txout := pairs } = .next { t with tx := u, txout := pairs } := by
  have htx := forTx_of_forRx hi
  obtain ⟨m, hm, rfl, hr⟩ := exec_move h
  rw [hr { s with tx := u, txout := pairs } (.of_rx htx rfl rfl)]
  simp [Move.apply, hm.tx htx, hm.pairs_eq_nil htx]

/-! ## What each command writes -/

theorem exec_input {i : Instr} {s t : State} (h : exec i s = .next t) : t.input = s.input := by
  obtain ⟨m, -, rfl, -⟩ := exec_move h
  rfl

theorem exec_txout_frame {i : Instr} {s t : State} (h : exec i s = .next t) (hi : ∀ v, i ≠ .txsym v) :
    t.txout = s.txout := by
  obtain ⟨m, hm, rfl, -⟩ := exec_move h
  simp [Move.apply, hm.pairs hi]

theorem exec_rxout_frame {i : Instr} {s t : State} (h : exec i s = .next t) (hi : i ≠ .rxsamp) : t.rxout = s.rxout := by
  obtain ⟨m, hm, rfl, -⟩ := exec_move h
  simp [Move.apply, hm.bits hi]

/-- `TXSYM` writes `TX.N` and `TX.PHI` alone, and in `FSK` mode `TX.N` alone. -/
theorem exec_txsym_tx {v : Nat} {s t : State} (h : exec (.txsym v) s = .next t) :
    t.tx = { s.tx with n := t.tx.n, phi := t.tx.phi } ∧ (s.tx.mode = .fsk → t.tx.phi = s.tx.phi) := by
  rcases exec_next h with ⟨c, cs, -, rfl⟩ | ⟨-, rfl⟩
  · exact ⟨rfl, fun _ => rfl⟩
  · rw [respond_tx, txSteps_eq]
    refine ⟨?_, fun hm => by rw [txAfter_fsk hm]⟩
    rw [txAfter_eq]

theorem exec_txend_tx {s t : State} (h : exec .txend s = .next t) : t.tx = { s.tx with st := t.tx.st } := by
  rcases exec_next h with ⟨c, cs, -, rfl⟩ | ⟨-, rfl⟩ <;> rfl

/-- A sample writes the four sums and `RX.K` alone. -/
theorem rxSampled_frame (x : Quantity) (u : RxUnit) :
    rxSampled x u = { u with i0 := (rxSampled x u).i0, q0 := (rxSampled x u).q0, i1 := (rxSampled x u).i1,
                             q1 := (rxSampled x u).q1, k := (rxSampled x u).k } := by
  unfold rxSampled
  split <;> rfl

theorem exec_rxsamp_rx {s t : State} (h : exec .rxsamp s = .next t) :
    t.rx = { s.rx with i0 := t.rx.i0, q0 := t.rx.q0, i1 := t.rx.i1, q1 := t.rx.q1, k := t.rx.k } := by
  rcases exec_next h with ⟨c, cs, -, rfl⟩ | ⟨-, x, -, rfl⟩
  · rfl
  · rw [respond_rx, takeSample_eq]
    exact rxSampled_frame x s.rx

theorem exec_rxend_rx {s t : State} (h : exec .rxend s = .next t) :
    t.rx = { s.rx with st := t.rx.st, i0 := t.rx.i0, q0 := t.rx.q0, i1 := t.rx.i1, q1 := t.rx.q1, k := t.rx.k } := by
  rcases exec_next h with ⟨c, cs, -, rfl⟩ | ⟨-, rfl⟩ <;> rfl

/-! ## Command sequences with some commands deleted (rule R116) -/

/-- A part of the state that the deleted commands leave, and that the kept commands determine from itself, is after the
shortened sequence what it is after the whole one. -/
theorem issueAll_filter {α : Type} {view : State → α} {deleted : CmdWord → Bool}
    (leaves : ∀ w p s t, deleted w = true → issue w p s = .next t → view t = view s)
    (determines : ∀ w p s s' t, deleted w = false → view s' = view s → issue w p s = .next t →
      ∃ t', issue w p s' = .next t' ∧ view t' = view t)
    {cs : List (CmdWord × Payload)} {s s' t : State} (hv : view s' = view s) (h : issueAll cs s = .next t) :
    ∃ u, issueAll (cs.filter fun c => !deleted c.1) s' = .next u ∧ view u = view t := by
  induction cs generalizing s s' with
  | nil => cases h; exact ⟨s', rfl, hv⟩
  | cons c cs ih =>
    simp only [issueAll] at h
    split at h
    next s₁ h₁ =>
      cases hd : deleted c.1 with
      | true =>
        rw [List.filter_cons_of_neg (by simp [hd])]
        exact ih (hv.trans (leaves _ _ _ _ hd h₁).symm) h
      | false =>
        obtain ⟨s₁', h₁', hv₁⟩ := determines _ _ _ _ _ hd hv h₁
        rw [List.filter_cons_of_pos (by simp [hd])]
        simp only [issueAll, h₁']
        exact ih hv₁ h
    next => cases h
    next => cases h

/-- The TX side of the block: its registers and its log. -/
def txView (s : State) : TxUnit × List (Quantity × Quantity) := (s.tx, s.txout)

/-- The RX side of the block: its registers and its log. -/
def rxView (s : State) : RxUnit × List Bit := (s.rx, s.rxout)

theorem wordForTx_ok {w : CmdWord} {i : Instr} (h : decode w = .ok i) : wordForTx w = forTx i := by simp only [wordForTx, h]

theorem wordForRx_ok {w : CmdWord} {i : Instr} (h : decode w = .ok i) : wordForRx w = forRx i := by simp only [wordForRx, h]

/-- An issued word is a command, executed with its payload on the port, or reserved. -/
theorem issue_next {w : CmdWord} {p : Payload} {s t : State} (h : issue w p s = .next t) :
    (∃ i, decode w = .ok i ∧ exec i (deliver p s.input s) = .next t) ∨
    ∃ e, decode w = .error e ∧ t = raise .illegalCommand [] (deliver p s.input s) := by
  unfold issue execWord at h
  split at h
  next i hi => exact .inl ⟨i, hi, h⟩
  next e he => cases h; exact .inr ⟨e, he, rfl⟩

theorem issue_ok {w : CmdWord} {i : Instr} (h : decode w = .ok i) (p : Payload) (s : State) :
    issue w p s = exec i (deliver p s.input s) := by
  simp only [issue, execWord, h]

theorem issue_reserved {w : CmdWord} {e : Reserved} (h : decode w = .error e) (p : Payload) (s : State) :
    issue w p s = .next (raise .illegalCommand [] (deliver p s.input s)) := by
  simp only [issue, execWord, h]; rfl

theorem issue_leaves_txView {w : CmdWord} {p : Payload} {s t : State} (hw : wordForRx w = true)
    (h : issue w p s = .next t) : txView t = txView s := by
  rcases issue_next h with ⟨i, hi, he⟩ | ⟨e, -, rfl⟩
  · obtain ⟨htx, hout⟩ := exec_tx_frame (forTx_of_forRx (wordForRx_ok hi ▸ hw)) he
    exact Prod.ext htx hout
  · rfl

theorem issue_leaves_rxView {w : CmdWord} {p : Payload} {s t : State} (hw : wordForTx w = true)
    (h : issue w p s = .next t) : rxView t = rxView s := by
  rcases issue_next h with ⟨i, hi, he⟩ | ⟨e, -, rfl⟩
  · obtain ⟨hrx, hout⟩ := exec_rx_frame (forRx_of_forTx (wordForTx_ok hi ▸ hw)) he
    exact Prod.ext hrx hout
  · rfl

theorem issue_determines_txView {w : CmdWord} {p : Payload} {s s' t : State} (hw : wordForRx w = false)
    (hv : txView s' = txView s) (h : issue w p s = .next t) : ∃ t', issue w p s' = .next t' ∧ txView t' = txView t := by
  obtain ⟨htx, hout⟩ := Prod.ext_iff.mp hv
  rcases issue_next h with ⟨i, hi, he⟩ | ⟨e, hd, rfl⟩
  · obtain ⟨m, -, rfl, hr⟩ := exec_move he
    have hrx : forRx i = false := (wordForRx_ok hi).symm.trans hw
    refine ⟨_, (issue_ok hi p s').trans (hr _ (.of_tx hrx rfl htx)), ?_⟩
    exact Prod.ext (congrArg m.tx.getD htx) (congrArg (· ++ m.pairs) hout)
  · exact ⟨_, issue_reserved hd p s', hv⟩

theorem issue_determines_rxView {w : CmdWord} {p : Payload} {s s' t : State} (hw : wordForTx w = false)
    (hv : rxView s' = rxView s) (h : issue w p s = .next t) : ∃ t', issue w p s' = .next t' ∧ rxView t' = rxView t := by
  obtain ⟨hrx, hout⟩ := Prod.ext_iff.mp hv
  rcases issue_next h with ⟨i, hi, he⟩ | ⟨e, hd, rfl⟩
  · obtain ⟨m, -, rfl, hr⟩ := exec_move he
    have htx : forTx i = false := (wordForTx_ok hi).symm.trans hw
    refine ⟨_, (issue_ok hi p s').trans (hr _ (.of_rx htx rfl hrx)), ?_⟩
    exact Prod.ext (congrArg m.rx.getD hrx) (congrArg (· ++ m.bits) hout)
  · exact ⟨_, issue_reserved hd p s', hv⟩

end Sys2Proof.Machine

open Sys2Proof Sys2Proof.Machine

/-- Settles O10: an idle TX unit is read for its state bit alone, and the change a command makes opens it or leaves it. -/
theorem idleTxRegistersUnread : Obligations.IdleTxRegistersUnread := by
  intro i s t u hs hu h
  obtain ⟨m, hm, rfl, hr⟩ := exec_move h
  rw [hr _ (sameReads_idleTx hs hu i), hm.apply_idleTx hs u]

/-- Settles O11: an idle RX unit is read for its state bit alone, and the change a command makes opens it or leaves it. -/
theorem idleRxRegistersUnread : Obligations.IdleRxRegistersUnread := by
  intro i s t u hs hu h
  obtain ⟨m, hm, rfl, hr⟩ := exec_move h
  rw [hr _ (sameReads_idleRx hs hu i), hm.apply_idleRx hs u]

/-- Settles O18: no command reads `ERR`, so the change a command makes adds the same bits to any other value in it. -/
theorem errIsSticky : Obligations.ErrIsSticky := by
  intro i s t h
  obtain ⟨m, -, rfl, hr⟩ := exec_move h
  exact ⟨m.added, rfl, fun e => hr _ (.of_units rfl rfl rfl)⟩

/-- Settles O37: the frames of units and logs are those of the changes commands make; the registers a command writes in its
own unit are read off its completion. -/
theorem frames : Obligations.Frames := by
  intro i s t h
  refine ⟨exec_input h, ?_, ?_, ?_, ?_, ?_, ?_, ?_⟩
  · rintro rfl
    cases h
    exact ⟨rfl, rfl, rfl, rfl, rfl⟩
  · rintro (rfl | rfl) <;> exact ⟨(exec_rx_frame rfl h).1, exec_txout_frame h nofun, exec_rxout_frame h nofun⟩
  · rintro v rfl
    obtain ⟨hrx, hout⟩ := exec_rx_frame rfl h
    exact ⟨hrx, hout, exec_txsym_tx h⟩
  · rintro rfl
    exact ⟨(exec_rx_frame rfl h).1, exec_txout_frame h nofun, exec_rxout_frame h nofun, exec_txend_tx h⟩
  · rintro rfl
    exact ⟨(exec_tx_frame rfl h).1, exec_txout_frame h nofun, exec_rxout_frame h nofun⟩
  · rintro rfl
    obtain ⟨htx, hout⟩ := exec_tx_frame rfl h
    exact ⟨htx, hout, exec_rxsamp_rx h⟩
  · rintro rfl
    exact ⟨(exec_tx_frame rfl h).1, exec_txout_frame h nofun, exec_rxout_frame h nofun, exec_rxend_rx h⟩

/-- Settles O38: a command neither writes nor reads the other unit. -/
theorem unitIndependence : Obligations.UnitIndependence := by
  refine ⟨fun i s t hi h => ?_, fun i s t hi h => ?_⟩
  · obtain ⟨hrx, hout⟩ := exec_rx_frame (forRx_of_forTx hi) h
    exact ⟨hrx, hout, exec_with_rx hi h⟩
  · obtain ⟨htx, hout⟩ := exec_tx_frame (forTx_of_forRx hi) h
    exact ⟨htx, hout, exec_with_tx hi h⟩

/-- Settles O39: each unit's registers and log are left by the other unit's commands and determined by the rest. -/
theorem interleaving : Obligations.Interleaving := by
  intro cs s t h
  obtain ⟨u, hu, htx⟩ := issueAll_filter (view := txView) (fun _ _ _ _ => issue_leaves_txView)
    (fun _ _ _ _ _ => issue_determines_txView) rfl h
  obtain ⟨r, hr, hrx⟩ := issueAll_filter (view := rxView) (fun _ _ _ _ => issue_leaves_rxView)
    (fun _ _ _ _ _ => issue_determines_rxView) rfl h
  exact ⟨⟨u, hu, Prod.ext_iff.mp htx⟩, ⟨r, hr, Prod.ext_iff.mp hrx⟩⟩

end

section
/-! PROOF. O40, O41, O42: the invariants of rules R27, R31 and R111.  The case split over the kinds of event is made once,
in `step_keeps`; what a completed command does to one unit is said once per unit. -/

namespace Sys2Proof.Machine

/-! ## Keeping an invariant -/

/-- A step keeps what reset establishes and what a delivery, the fault entry and every completed command keep. -/
theorem step_keeps {I : State → Prop} (onReset : ∀ rest, I (takeReset rest))
    (onDeliver : ∀ {s} p rest, I s → I (deliver p rest s))
    (onRaise : ∀ {s} c cs, c ≠ .ok → I s → I (raise c cs s))
    (onCompleted : ∀ {i s t}, Completed i s t → I s → I t)
    {s t : State} (h : I s) (he : step s = .next t) : I t := by
  have onExec : ∀ {i s t}, I s → exec i s = .next t → I t := by
    intro i s t h he
    rcases exec_next he with ⟨c, cs, hf, rfl⟩ | hc
    · exact onRaise c cs hf.ne_ok h
    · exact onCompleted hc h
  unfold step at he
  split at he
  next => cases he; exact h
  next rest _ => cases he; exact onReset rest
  next w p rest _ =>
    unfold execWord at he
    split at he
    · exact onExec (onDeliver p rest h) he
    · cases he; exact onRaise .illegalCommand [] nofun (onDeliver p rest h)

/-- What a completed command does to the TX unit and `TXOUT`: it leaves them, opens a call, sends a symbol, or closes the
call. -/
inductive TxEffect (s t : State) : Prop
  | left (htx : t.tx = s.tx) (hout : t.txout = s.txout)
  | opened (m : Mode) (P : Params) (hv : validate P = []) (htx : t.tx = openTx m P s.tx)
  | sent (v : Nat) (hst : s.tx.st = .active) (htx : t.tx = txAfter (mapFreq v s.tx.f0 s.tx.f1) s.tx.sps s.tx)
      (hout : t.txout = s.txout ++ txWave (mapFreq v s.tx.f0 s.tx.f1) s.tx.sps s.tx)
  | closed (hst : t.tx.st = .idle)

theorem Completed.txEffect {i : Instr} {s t : State} (h : Completed i s t) : TxEffect s t := by
  cases i with
  | nop => subst h; exact .left rfl rfl
  | txstartF => obtain ⟨-, P, -, hv, rfl⟩ := h; exact .opened .fsk P hv rfl
  | txstartC => obtain ⟨-, P, -, hv, rfl⟩ := h; exact .opened .cpfsk P hv rfl
  | txsym v =>
    obtain ⟨hst, rfl⟩ := h
    exact .sent v hst (by rw [respond_tx, txSteps_eq]) (by rw [respond_txout, txSteps_eq])
  | txend => obtain ⟨-, rfl⟩ := h; exact .closed rfl
  | rxstart => obtain ⟨-, P, -, -, rfl⟩ := h; exact .left rfl rfl
  | rxsamp =>
    obtain ⟨-, x, -, rfl⟩ := h
    exact .left (by rw [respond_tx, takeSample_eq]) (by rw [respond_txout, takeSample_eq])
  | rxend => obtain ⟨-, rfl⟩ := h; exact .left rfl rfl

/-- What a completed command does to the RX unit: it leaves it, opens a call, takes a sample, or closes the call. -/
inductive RxEffect (s t : State) : Prop
  | left (hrx : t.rx = s.rx)
  | opened (P : Params) (hv : validate P = []) (hrx : t.rx = openRx P s.rx)
  | sampled (x : Quantity) (hst : s.rx.st = .active) (hrx : t.rx = rxSampled x s.rx)
  | closed (hst : t.rx.st = .idle)

theorem Completed.rxEffect {i : Instr} {s t : State} (h : Completed i s t) : RxEffect s t := by
  cases i with
  | nop => subst h; exact .left rfl
  | txstartF => obtain ⟨-, P, -, -, rfl⟩ := h; exact .left rfl
  | txstartC => obtain ⟨-, P, -, -, rfl⟩ := h; exact .left rfl
  | txsym v => obtain ⟨-, rfl⟩ := h; exact .left (by rw [respond_rx, txSteps_eq])
  | txend => obtain ⟨-, rfl⟩ := h; exact .left rfl
  | rxstart => obtain ⟨-, P, -, hv, rfl⟩ := h; exact .opened P hv rfl
  | rxsamp => obtain ⟨hst, x, -, rfl⟩ := h; exact .sampled x hst (by rw [respond_rx, takeSample_eq])
  | rxend => obtain ⟨-, rfl⟩ := h; exact .closed rfl

/-- A completed command leaves `ERR` and responds `OK`. -/
theorem Completed.err_rsp {i : Instr} {s t : State} (h : Completed i s t) : t.err = s.err ∧ t.rsp = s.rsp ++ [.ok] := by
  obtain ⟨m, -, hadded, hok, hm⟩ := h.move
  have ht : t = m.apply s := by simpa [h.exec_eq] using (hm s (.of_units rfl rfl rfl)).exec_eq
  simp [ht, Move.apply, hadded, hok]

/-! ## The modulation call (rule R27 items 1 to 4) -/

/-- The latched parameters of a valid payload, with the timing derived from them. -/
theorem ratesHold_latched {P : Params} (h : validate P = []) :
    RatesHold P.freq0 P.freq1 P.samplingRate P.baudRate (samplesPerSymbol P) (symbolDuration P) := by
  obtain ⟨h0, h1, hs, hb, heq, hlt⟩ := valid_tests h
  exact ⟨h0, h1, hs, hb, heq, hlt, samplesPerSymbol_pos h, rfl, rfl⟩

theorem openTx_inv {P : Params} (hv : validate P = []) (m : Mode) (u : TxUnit) : (openTx m P u).Inv :=
  fun _ => ⟨rfl, ratesHold_latched hv, fun _ => rfl, 0, 0, rfl, fun _ => by simp⟩

/-- A symbol adds one to the symbols of its tone, and in `CPFSK` mode `TX.SPS` increments of that tone to the phase. -/
theorem txAfter_inv {u : TxUnit} (h : u.Inv) (hst : u.st = .active) (v : Nat) :
    (txAfter (mapFreq v u.f0 u.f1) u.sps u).Inv := by
  obtain ⟨hwritten, hrates, hfsk, a, b, hn, hphi⟩ := h hst
  have hzero : u.mode = .fsk → ∀ f, (txAfter f u.sps u).phi = Quantity.zero :=
    fun hm f => by rw [txAfter_fsk hm]; exact hfsk hm
  have hcpfsk : u.mode = .cpfsk → ∀ f, (txAfter f u.sps u).phi.val =
      2 * Real.pi / u.fs.val * u.sps * (a * u.f0.val + b * u.f1.val) + u.sps * (2 * Real.pi * f.val / u.fs.val) :=
    fun hm f => by rw [txAfter_phi_val hm, hphi hm]
  rw [txAfter_eq]
  refine fun _ => ⟨hwritten, hrates, fun hm => hzero hm _, ?_⟩
  by_cases hv : v = 0
  · refine ⟨a + 1, b, by simp only [hn]; ring, fun hm => ?_⟩
    simp only [mapFreq, if_pos hv, hcpfsk hm]
    push_cast; ring
  · refine ⟨a, b + 1, by simp only [hn]; ring, fun hm => ?_⟩
    simp only [mapFreq, if_neg hv, hcpfsk hm]
    push_cast; ring

theorem TxUnit.inv_of_idle {u : TxUnit} (h : u.st = .idle) : u.Inv := fun ha => absurd (h.symm.trans ha) nofun

theorem TxEffect.inv {s t : State} (e : TxEffect s t) (h : s.tx.Inv) : t.tx.Inv := by
  cases e with
  | left htx => rwa [htx]
  | opened m P hv htx => rw [htx]; exact openTx_inv hv m s.tx
  | sent v hst htx => rw [htx]; exact txAfter_inv h hst v
  | closed hst => exact TxUnit.inv_of_idle hst

theorem step_txInv {s t : State} (h : s.tx.Inv) (he : step s = .next t) : t.tx.Inv :=
  step_keeps (I := fun s => s.tx.Inv) (fun _ => TxUnit.inv_of_idle rfl) (fun _ _ h => h) (fun _ _ _ h => h)
    (fun hc h => hc.txEffect.inv h) h he

/-! ## The demodulation call (rule R27 items 1 and 5) -/

theorem openRx_inv {P : Params} (hv : validate P = []) (u : RxUnit) : (openRx P u).Inv :=
  fun _ => ⟨rfl, ratesHold_latched hv, samplesPerSymbol_pos hv, fun _ => ⟨rfl, rfl, rfl, rfl⟩⟩

/-- A sample leaves a window that is not complete: empty if it completed one, else with at least one sample in it. -/
theorem rxSampled_inv {u : RxUnit} (h : u.Inv) (hst : u.st = .active) (x : Quantity) : (rxSampled x u).Inv := by
  obtain ⟨hwritten, hrates, hk, -⟩ := h hst
  unfold rxSampled
  split
  next => exact fun _ => ⟨hwritten, hrates, Nat.zero_lt_of_lt hk, fun _ => ⟨rfl, rfl, rfl, rfl⟩⟩
  next hne => exact fun _ => ⟨hwritten, hrates, Nat.lt_of_le_of_ne hk hne, nofun⟩

theorem RxUnit.inv_of_idle {u : RxUnit} (h : u.st = .idle) : u.Inv := fun ha => absurd (h.symm.trans ha) nofun

theorem RxEffect.inv {s t : State} (e : RxEffect s t) (h : s.rx.Inv) : t.rx.Inv := by
  cases e with
  | left hrx => rwa [hrx]
  | opened P hv hrx => rw [hrx]; exact openRx_inv hv s.rx
  | sampled x hst hrx => rw [hrx]; exact rxSampled_inv h hst x
  | closed hst => exact RxUnit.inv_of_idle hst

theorem step_rxInv {s t : State} (h : s.rx.Inv) (he : step s = .next t) : t.rx.Inv :=
  step_keeps (I := fun s => s.rx.Inv) (fun _ => RxUnit.inv_of_idle rfl) (fun _ _ h => h) (fun _ _ _ h => h)
    (fun hc h => hc.rxEffect.inv h) h he

/-! ## The fault record (rules R16, R111) -/

/-- The record includes the given bits: their AND with it is themselves.  It still does when bits are added. -/
theorem and_or_of_and_eq {e b : ErrBits} (h : b &&& e = b) (x : ErrBits) : b &&& (e ||| x) = b := by
  rw [BitVec.and_or_distrib_left, h]
  ext i hi
  simp +contextual

theorem errBit_and_errBits (c : Response) (cs : List Response) (e : ErrBits) :
    errBit c &&& (e ||| errBits (c :: cs)) = errBit c := by
  ext i hi
  simp +contextual [errBits]

theorem errBit_ne_zero {c : Response} (h : c ≠ .ok) : errBit c ≠ 0 := by
  cases c
  case ok => exact absurd rfl h
  all_goals decide

/-- The fault entry sets the bit of the response it gives. -/
theorem errInv_raise {s : State} (h : ErrInv s) {c : Response} (hc : c ≠ .ok) (cs : List Response) :
    ErrInv (raise c cs s) := by
  obtain ⟨hbits, -⟩ := h
  have hset : errBit c &&& (raise c cs s).err = errBit c := errBit_and_errBits c cs s.err
  refine ⟨?_, fun h0 => ?_, fun hall => absurd (hall c (by simp)) hc⟩
  · rw [raise_rsp, List.forall_mem_append, List.forall_mem_singleton]
    exact ⟨fun r hr => and_or_of_and_eq (hbits r hr) _, hset⟩
  · have hzero : errBit c &&& 0 = 0 := BitVec.and_zero
    exact absurd (hset.symm.trans (h0 ▸ hzero)) (errBit_ne_zero hc)

/-- The response `OK` goes with no bit of `ERR`. -/
theorem errInv_completed {i : Instr} {s t : State} (hc : Completed i s t) (h : ErrInv s) : ErrInv t := by
  obtain ⟨herr, hrsp⟩ := hc.err_rsp
  obtain ⟨hbits, hclear⟩ := h
  simp only [ErrInv, herr, hrsp, List.forall_mem_append, List.forall_mem_singleton, and_true, ← hclear]
  exact ⟨hbits, BitVec.zero_and⟩

theorem errInv_takeReset (rest : List HostEvent) : ErrInv (takeReset rest) := ⟨nofun, fun _ => nofun, fun _ => rfl⟩

theorem step_errInv {s t : State} (h : ErrInv s) (he : step s = .next t) : ErrInv t :=
  step_keeps errInv_takeReset (fun _ _ h => h) (fun _ cs hc h => errInv_raise h hc cs) (fun hc h => errInv_completed hc h)
    h he

/-! ## The time axis (rule R31) -/

/-- The times of the elements of a symbol, in either mode. -/
theorem txWave_times (f : Quantity) (k : Nat) (u : TxUnit) :
    (txWave f k u).map Prod.snd = (List.range k).map fun j => Quantity.div (Quantity.ofNat (u.n + j)) u.fs := by
  induction k generalizing u with
  | zero => rfl
  | succ k ih =>
    rw [txWave, List.map_cons, synthesize_time, ih, txNext_eq, List.range_succ_eq_map, List.map_cons, List.map_map]
    simp only [Function.comp_def, Nat.add_zero, Nat.succ_eq_add_one, Nat.add_assoc, Nat.add_comm 1]

theorem TxEffect.timeAxis {s t : State} (e : TxEffect s t) (h : TimeAxisHolds s) : TimeAxisHolds t := by
  cases e with
  | left htx hout => rwa [TimeAxisHolds, htx, hout]
  | opened m P hv htx => exact fun _ => ⟨t.txout, [], by simp, by simp [htx]⟩
  | sent v hst htx hout =>
    obtain ⟨earlier, call, hcall, htimes⟩ := h hst
    refine fun _ => ⟨earlier, call ++ txWave (mapFreq v s.tx.f0 s.tx.f1) s.tx.sps s.tx,
      by rw [hout, hcall, List.append_assoc], ?_⟩
    rw [htx, txAfter_eq, List.map_append, htimes, txWave_times, List.range_add, List.map_append, List.map_map]
    rfl
  | closed hst => exact fun ha => absurd (hst.symm.trans ha) nofun

theorem step_timeAxis {s t : State} (h : TimeAxisHolds s) (he : step s = .next t) : TimeAxisHolds t :=
  step_keeps (fun _ => nofun) (fun _ _ h => h) (fun _ _ _ h => h) (fun hc h => hc.txEffect.timeAxis h) h he

end Sys2Proof.Machine

open Sys2Proof Sys2Proof.Machine

/-- Settles O40: the state after reset is that after a reset event with nothing to come. -/
theorem invariantAtReset : Obligations.InvariantAtReset :=
  ⟨⟨TxUnit.inv_of_idle rfl, RxUnit.inv_of_idle rfl, errInv_takeReset []⟩, nofun, allDefined_takeReset nofun⟩

/-- Settles O41: the invariants of the two units and of the fault record are each kept by every step. -/
theorem invariantKept : Obligations.InvariantKept := by
  rintro s t ⟨htx, hrx, herr⟩ h
  exact ⟨step_txInv htx h, step_rxInv hrx h, step_errInv herr h⟩

/-- Settles O42: the elements of a symbol continue the time axis of the call. -/
theorem timeAxisKept : Obligations.TimeAxisKept := fun _ _ => step_timeAxis

end

section
/-! PROOF. O59, O8, O12: what the host sees, the response codes and the registers. -/

namespace Sys2Proof.Machine

/-! ## Reserved words -/

/-- A word matches no row of the opcode map exactly when the decoder refuses it (rules R50, R51): checked word by word. -/
theorem rowsSelected_eq_zero_iff : ∀ w : CmdWord, rowsSelected w = 0 ↔ (decode w).isOk = false := by decide

theorem rowsSelected_of_reserved {w : CmdWord} {e : Reserved} (h : decode w = .error e) : rowsSelected w = 0 :=
  (rowsSelected_eq_zero_iff w).mpr (by rw [h]; rfl)

theorem rowsSelected_of_ok {w : CmdWord} {i : Instr} (h : decode w = .ok i) : rowsSelected w ≠ 0 := fun h0 =>
  absurd ((rowsSelected_eq_zero_iff w).mp h0) (by rw [h]; nofun)

/-! ## The response of a step -/

/-- The word is a START legal in its unit's state, delivered with the parameters `P`. -/
def StartsWith (w : CmdWord) (p : Payload) (s : State) (P : Params) : Prop :=
  p = .params P ∧ ∃ i, decode w = .ok i ∧ isStart i = true ∧ wrongState s i = false

/-- Why a step that takes the word gives the response (rules R58, R101, R105, R106). -/
def ResponseReason (w : CmdWord) (p : Payload) (s : State) : Response → Prop
  | .ok => ∃ i, decode w = .ok i ∧ wrongState s i = false
  | .configFreq => ∃ P, StartsWith w p s P ∧ equalTones P = true
  | .configTiming => ∃ P, StartsWith w p s P ∧ undersampled P = true
  | .configRange => ∃ P, StartsWith w p s P ∧ outOfRange P = true
  | .sequenceError => ∃ i, decode w = .ok i ∧ wrongState s i = true
  | .illegalCommand => ∃ e, decode w = .error e

/-- The causes `Validate` finds, each with its test (rule R58). -/
theorem mem_validate {P : Params} {c : Response} : c ∈ validate P ↔
    (c = .configRange ∧ outOfRange P = true) ∨ (c = .configFreq ∧ equalTones P = true) ∨
    (c = .configTiming ∧ undersampled P = true) := by
  have mem : ∀ (b : Bool) (r : Response), c ∈ (if b = true then [r] else []) ↔ c = r ∧ b = true := by
    intro b r; cases b <;> simp
  simp only [validate, List.mem_append, mem]

/-- The response of a fault entry is the cause it is raised for. -/
theorem FaultCauses.reason {w : CmdWord} {p : Payload} {rest : List HostEvent} {i : Instr} {s : State} {c : Response}
    {cs : List Response} (hi : decode w = .ok i) (h : FaultCauses i (deliver p rest s) c cs) : ResponseReason w p s c := by
  rcases h with ⟨hw, rfl, -⟩ | ⟨hw, hstart, P, hp, hv⟩
  · exact ⟨i, hi, hw⟩
  · have starts : StartsWith w p s P := ⟨hp, i, hi, hstart, hw⟩
    have hc : c ∈ validate P := hv ▸ List.mem_cons_self
    rcases mem_validate.mp hc with ⟨rfl, h⟩ | ⟨rfl, h⟩ | ⟨rfl, h⟩ <;> exact ⟨P, starts, h⟩

/-- A step that takes a command responds once, for its reason; `OK` leaves `ERR`, a fault sets its own bit. -/
theorem step_command_response {s t : State} {w : CmdWord} {p : Payload} {rest : List HostEvent}
    (hin : s.input = .command w p :: rest) (h : step s = .next t) :
    ∃ r, t.rsp = s.rsp ++ [r] ∧ ResponseReason w p s r ∧ (r = .ok → t.err = s.err) ∧ errBit r &&& t.err = errBit r := by
  simp only [step, hin, execWord] at h
  split at h
  next i hi =>
    rcases exec_next h with ⟨c, cs, hf, rfl⟩ | hc
    · exact ⟨c, rfl, hf.reason hi, fun hok => absurd hok hf.ne_ok, errBit_and_errBits ..⟩
    · obtain ⟨herr, hrsp⟩ := hc.err_rsp
      exact ⟨.ok, hrsp, ⟨i, hi, hc.wrongState_eq⟩, fun _ => herr, BitVec.zero_and⟩
  next e he =>
    cases h
    exact ⟨.illegalCommand, rfl, ⟨e, he⟩, nofun, errBit_and_errBits ..⟩

theorem responseCode_le (r : Response) : (responseCode r).toNat ≤ 5 := by cases r <;> decide

theorem responseCode_injective : Function.Injective responseCode := by
  intro a b
  cases a <;> cases b <;> decide

/-- Any response but `IllegalCommand` comes of a command, and `SequenceError` of one that is not legal. -/
theorem ResponseReason.decoded {w : CmdWord} {p : Payload} {s : State} {r : Response} (h : ResponseReason w p s r)
    (hr : r ≠ .illegalCommand) : ∃ i, decode w = .ok i ∧ (r = .sequenceError ↔ wrongState s i = true) := by
  have legal : ∀ {i}, wrongState s i = false → r ≠ .sequenceError → (r = .sequenceError ↔ wrongState s i = true) := by
    intro i hw hne
    simp [hw, hne]
  cases r with
  | ok => obtain ⟨i, hi, hw⟩ := h; exact ⟨i, hi, legal hw nofun⟩
  | configFreq => obtain ⟨P, ⟨-, i, hi, -, hw⟩, -⟩ := h; exact ⟨i, hi, legal hw nofun⟩
  | configTiming => obtain ⟨P, ⟨-, i, hi, -, hw⟩, -⟩ := h; exact ⟨i, hi, legal hw nofun⟩
  | configRange => obtain ⟨P, ⟨-, i, hi, -, hw⟩, -⟩ := h; exact ⟨i, hi, legal hw nofun⟩
  | sequenceError => obtain ⟨i, hi, hw⟩ := h; exact ⟨i, hi, fun _ => hw, fun _ => rfl⟩
  | illegalCommand => exact absurd rfl hr

theorem ResponseReason.illegalCommand_iff {w : CmdWord} {p : Payload} {s : State} {r : Response}
    (h : ResponseReason w p s r) : r = .illegalCommand ↔ rowsSelected w = 0 := by
  by_cases hr : r = .illegalCommand
  · subst hr
    obtain ⟨e, he⟩ := h
    exact ⟨fun _ => rowsSelected_of_reserved he, fun _ => rfl⟩
  · obtain ⟨i, hi, -⟩ := h.decoded hr
    exact ⟨fun h => absurd h hr, fun h => absurd h (rowsSelected_of_ok hi)⟩

theorem ResponseReason.sequenceError_iff {w : CmdWord} {p : Payload} {s : State} {r : Response}
    (h : ResponseReason w p s r) : r = .sequenceError ↔ ∃ i, decode w = .ok i ∧ wrongState s i = true := by
  by_cases hr : r = .illegalCommand
  · subst hr
    obtain ⟨e, he⟩ := h
    simp [he]
  · obtain ⟨i, hi, hw⟩ := h.decoded hr
    simp [hw, hi]

/-- A bit that the record includes is set in it. -/
theorem getLsbD_of_and_eq {b e : ErrBits} (h : b &&& e = b) {k : Nat} (hk : b.getLsbD k = true) : e.getLsbD k = true := by
  rw [← h, BitVec.getLsbD_and, Bool.and_eq_true] at hk
  exact hk.2

theorem outOfRange_cases {P : Params} (h : outOfRange P = true) :
    Quantity.nonPos P.freq0 = true ∨ Quantity.nonPos P.freq1 = true ∨ Quantity.nonPos P.samplingRate = true ∨
    Quantity.nonPos P.baudRate = true := by
  simpa only [outOfRange, Bool.or_eq_true, or_assoc] using h

/-! ## Register reads of a unit a START has written -/

theorem readReal_written {b : Bool} (h : b = true) (name : String) (n : Nat) (x : Quantity) :
    readReal b name n x = .real x := by
  rw [readReal, if_pos h]

theorem readNat_written {b : Bool} (h : b = true) (name : String) (n k : Nat) : readNat b name n k = .nat k := by
  rw [readNat, if_pos h]

theorem unitStateBit_eq (u : UnitState) : unitStateBit u = if u = .active then 1 else 0 := by cases u <;> rfl

theorem modeBit_eq (m : Mode) : modeBit m = if m = .cpfsk then 1 else 0 := by cases m <;> rfl

end Sys2Proof.Machine

open Sys2Proof Sys2Proof.Machine

/-- Settles O59: the code is that of the one response of the step, and each clause is the reason for that response. -/
theorem responseCodes : Obligations.ResponseCodes := by
  refine ⟨⟨rfl, rfl, rfl, rfl, rfl, rfl⟩, fun s t w p rest hin h => ?_⟩
  obtain ⟨r, hrsp, hreason, hok, hbit⟩ := step_command_response hin h
  have code_iff : ∀ r', responseCode r = responseCode r' ↔ r = r' := fun r' => responseCode_injective.eq_iff
  refine ⟨responseCode r, by simp [State.rspCodes, hrsp], responseCode_le r, fun hc => hok ((code_iff .ok).mp hc),
    fun hc => ?_, fun hc => ?_, fun hc => ?_, fun hc => ?_, (code_iff .sequenceError).trans hreason.sequenceError_iff,
    fun hc => ?_, (code_iff .illegalCommand).trans hreason.illegalCommand_iff⟩
  · obtain rfl := (code_iff .configFreq).mp hc
    exact ⟨getLsbD_of_and_eq hbit rfl, hreason⟩
  · obtain rfl := (code_iff .configTiming).mp hc
    exact ⟨getLsbD_of_and_eq hbit rfl, hreason⟩
  · obtain rfl := (code_iff .configRange).mp hc
    obtain ⟨P, hstart, hrange⟩ := hreason
    exact ⟨getLsbD_of_and_eq hbit rfl, P, hstart, outOfRange_cases hrange⟩
  · obtain rfl := (code_iff .sequenceError).mp hc
    exact getLsbD_of_and_eq hbit rfl
  · obtain rfl := (code_iff .illegalCommand).mp hc
    exact getLsbD_of_and_eq hbit rfl

/-- Settles O8: nothing has written a register of the reset state, so each read gives the free value of its name. -/
theorem resetValues : Obligations.ResetValues :=
  ⟨rfl, rfl, rfl, rfl, rfl, rfl, fun _ =>
    ⟨rfl, rfl, rfl, rfl, rfl, rfl, rfl, rfl, rfl, rfl, rfl, rfl, rfl, rfl, rfl, rfl, rfl, rfl, rfl, rfl⟩⟩

/-- Settles O12: a unit state or `ERR` is read as it is, and so is every register of a unit a START has written. -/
theorem hostReads : Obligations.HostReads := by
  intro s n
  refine ⟨congrArg _ (unitStateBit_eq _), congrArg _ (unitStateBit_eq _), rfl, fun htx => ?_, fun hrx => ?_⟩
  · have hmode : s.hostRead n .txMode = .bit (modeBit s.tx.mode) := by rw [State.hostRead, if_pos htx]
    have hreal := readReal_written htx
    have hnat := readNat_written htx
    exact ⟨hmode.trans (congrArg _ (modeBit_eq _)),
      hreal .., hreal .., hreal .., hreal .., hnat .., hreal .., hnat .., hreal ..⟩
  · have hreal := readReal_written hrx
    have hnat := readNat_written hrx
    exact ⟨hreal .., hreal .., hreal .., hreal .., hnat .., hreal .., hnat .., hreal .., hreal .., hreal .., hreal ..⟩

end

section
/-! PROOF. O6, O19: a delivered word is executed as the command it decodes to, and what each command appends to the logs. -/

namespace Sys2Proof.Machine

/-! ## The step on a delivered word (rules R29, R30, R36) -/

theorem step_command {s : State} {w : CmdWord} {p : Payload} {rest : List HostEvent} {i : Instr}
    (hin : s.input = .command w p :: rest) (hi : decode w = .ok i) : step s = exec i (deliver p rest s) := by
  simp only [step, hin, execWord, hi]

/-- The table reads from a word of 8 bits what the decoder reads from it. -/
theorem decode_of_decodeTableWord {w : Nat} {i : Instr} (h : decodeTableWord 8 w = some i) :
    decode (BitVec.ofNat 8 w) = .ok i := by
  unfold decodeTableWord at h
  split at h
  · split at h
    next j hj => rw [hj, Option.some.inj h]
    next => cases h
  · cases h

/-- The payload presented with a word has the shape that its command reads. -/
theorem payloadFits_sampleDelivery {nbits w : Nat} {i : Instr} (h : decodeTableWord nbits w = some i) :
    i.payloadFits (sampleDelivery nbits w) = true := by
  unfold sampleDelivery
  rw [h]
  cases i <;> rfl

/-! ## The logs (rules R21, R37) -/

theorem rxDecided_length (x : Quantity) (u : RxUnit) : (rxDecided x u).length = if u.k + 1 = u.sps then 1 else 0 := by
  unfold rxDecided
  split <;> rfl

/-- Of the completed commands `TXSYM` alone appends to `TXOUT`, one element for each sample of a symbol. -/
theorem Completed.txout_append {i : Instr} {s t : State} (h : Completed i s t) :
    ∃ pairs, t.txout = s.txout ++ pairs ∧ ((∀ v, i ≠ .txsym v) → pairs = []) ∧
      ((∃ v, i = .txsym v) → pairs.length = s.tx.sps) := by
  by_cases hi : ∃ v, i = .txsym v
  · obtain ⟨v, rfl⟩ := hi
    obtain ⟨-, rfl⟩ := h
    exact ⟨txWave (mapFreq v s.tx.f0 s.tx.f1) s.tx.sps s.tx, by rw [respond_txout, txSteps_eq],
      fun hne => absurd rfl (hne v), fun _ => txWave_length ..⟩
  · have hout := exec_txout_frame h.exec_eq (not_exists.mp hi)
    exact ⟨[], by rw [hout, List.append_nil], fun _ => rfl, fun hv => absurd hv hi⟩

/-- Of the completed commands `RXSAMP` alone appends to `RXOUT`, one bit when its sample completes a window. -/
theorem Completed.rxout_append {i : Instr} {s t : State} (h : Completed i s t) :
    ∃ bits, t.rxout = s.rxout ++ bits ∧ (i ≠ .rxsamp → bits = []) ∧
      (i = .rxsamp → bits.length = if s.rx.k + 1 = s.rx.sps then 1 else 0) := by
  by_cases hi : i = .rxsamp
  · subst hi
    obtain ⟨-, x, -, rfl⟩ := h
    exact ⟨rxDecided x s.rx, by rw [respond_rxout, takeSample_eq], fun hne => absurd rfl hne,
      fun _ => rxDecided_length ..⟩
  · have hout := exec_rxout_frame h.exec_eq hi
    exact ⟨[], by rw [hout, List.append_nil], fun _ => rfl, fun he => absurd he hi⟩

end Sys2Proof.Machine

open Sys2Proof Sys2Proof.Machine

/-- Settles O6: the first clause is the step on a delivery; `withFetchWord` makes such a delivery, its payload chosen by
the command that the word decodes to. -/
theorem stepRunsDecoded : Obligations.StepRunsDecoded :=
  ⟨fun _ _ _ _ _ => step_command, fun s w _ hw =>
    ⟨sampleDelivery 8 w, payloadFits_sampleDelivery hw,
      step_command (s := s.withFetchWord 8 w) rfl (decode_of_decodeTableWord hw)⟩⟩

/-- Settles O19: the fault entry appends its response alone; a completed command responds `OK`, and what it appends to the
other two logs is said once for each. -/
theorem whatCommandsProduce : Obligations.WhatCommandsProduce := by
  intro i s t h
  rcases exec_next h with ⟨c, cs, hf, rfl⟩ | hc
  · have hne := hf.ne_ok
    exact ⟨c, [], [], rfl, (List.append_nil _).symm, (List.append_nil _).symm, fun _ => ⟨rfl, rfl⟩, fun _ => rfl,
      fun _ => rfl, fun _ hok => absurd hok hne, fun _ hok => absurd hok hne⟩
  · obtain ⟨-, hrsp⟩ := hc.err_rsp
    obtain ⟨pairs, htxout, hnoPairs, hpairs⟩ := hc.txout_append
    obtain ⟨bits, hrxout, hnoBits, hbits⟩ := hc.rxout_append
    exact ⟨.ok, pairs, bits, hrsp, htxout, hrxout, fun hne => absurd rfl hne, hnoPairs, hnoBits, fun hi _ => hpairs hi,
      fun hi _ => hbits hi⟩

end

section
/-! PROOF. O4, O5, O1, O2: the decoder and the encoder are inverse to each other, which words are commands, and why the
others are reserved. -/

namespace Sys2Proof

/-! ## The two fields of a word (rule R46) -/

theorem fieldArg_lt (w : CmdWord) : fieldArg w < 16 := Nat.mod_lt _ (by decide)

theorem wordOf_toNat {op arg : Nat} (hop : op < 16) (harg : arg < 16) : (wordOf op arg).toNat = op * 16 + arg := by
  rw [wordOf, BitVec.toNat_ofNat]
  omega

theorem fieldOp_wordOf {op arg : Nat} (hop : op < 16) (harg : arg < 16) : fieldOp (wordOf op arg) = op := by
  rw [fieldOp, wordOf_toNat hop harg]
  omega

theorem fieldArg_wordOf {op arg : Nat} (hop : op < 16) (harg : arg < 16) : fieldArg (wordOf op arg) = arg := by
  rw [fieldArg, wordOf_toNat hop harg]
  omega

@[simp] theorem wordOf_fields (w : CmdWord) : wordOf (fieldOp w) (fieldArg w) = w := by
  have hop : fieldOp w < 16 := Nat.div_lt_of_lt_mul w.isLt
  apply BitVec.eq_of_toNat_eq
  rw [wordOf_toNat hop (fieldArg_lt w)]
  exact Nat.div_add_mod' w.toNat 16

/-- The fields of a word determine it. -/
theorem wordOf_eq_iff {op arg : Nat} {w : CmdWord} (hop : op < 16) (harg : arg < 16) :
    wordOf op arg = w ↔ fieldOp w = op ∧ fieldArg w = arg := by
  constructor
  · rintro rfl
    exact ⟨fieldOp_wordOf hop harg, fieldArg_wordOf hop harg⟩
  · rintro ⟨rfl, rfl⟩
    exact wordOf_fields w

theorem decode_wordOf {op arg : Nat} (hop : op < 16) (harg : arg < 16) :
    decode (wordOf op arg) = decodeFields op arg := by
  rw [decode, fieldOp_wordOf hop harg, fieldArg_wordOf hop harg]

/-! ## The three sub-formats (rule R47) -/

theorem formatN_eq_ok {arg : Nat} {i j : Instr} : formatN arg i = .ok j ↔ arg = 0 ∧ i = j := by
  unfold formatN
  split <;> simp [*]

theorem formatN_eq_error {arg : Nat} {i : Instr} {e : Reserved} :
    formatN arg i = .error e ↔ e = .argument ∧ arg ≠ 0 := by
  unfold formatN
  split <;> simp [*, eq_comm]

theorem formatM_eq_ok {arg : Nat} {fsk cpfsk j : Instr} :
    formatM arg fsk cpfsk = .ok j ↔ arg = 0 ∧ fsk = j ∨ arg = 1 ∧ cpfsk = j := by
  match arg with
  | 0 => simp [formatM]
  | 1 => simp [formatM]
  | n + 2 => simp [formatM]

theorem formatM_eq_error {arg : Nat} {fsk cpfsk : Instr} {e : Reserved} :
    formatM arg fsk cpfsk = .error e ↔ e = .mode ∧ arg / 2 ≠ 0 := by
  unfold formatM
  split
  · split <;> simp [*]
  · simp [*, @eq_comm _ Reserved.mode]

/-! ## The round trip (rules R50, R53) -/

/-- A command comes from the fields that its word is made of. -/
theorem encode_of_decodeFields {op arg : Nat} {i : Instr} (harg : arg < 16) (h : decodeFields op arg = .ok i) :
    i.wellFormed = true ∧ encode i = wordOf op arg := by
  unfold decodeFields at h
  split at h
  case h_2 =>
    obtain ⟨rfl, rfl⟩ | ⟨rfl, rfl⟩ := formatM_eq_ok.mp h
    · exact ⟨rfl, rfl⟩
    · exact ⟨rfl, rfl⟩
  case h_3 =>
    cases h
    exact ⟨decide_eq_true harg, rfl⟩
  case h_8 => cases h
  all_goals
    obtain ⟨rfl, rfl⟩ := formatN_eq_ok.mp h
    exact ⟨rfl, rfl⟩

end Sys2Proof

open Sys2Proof Sys2Proof.Machine

/-- Settles O4: the decoder reads the two fields back that the word is made of, and they select the command's row. -/
theorem decodeOfEncode : Obligations.DecodeOfEncode := by
  intro i hi
  cases i with
  | txsym v => exact decode_wordOf (by decide) (of_decide_eq_true hi)
  | nop | txstartF | txstartC | txend | rxstart | rxsamp | rxend => exact decode_wordOf (by decide) (by decide)

/-- Settles O5: a word is made of its two fields, and the command they select has these fields. -/
theorem encodeOfDecode : Obligations.EncodeOfDecode := by
  intro w i h
  obtain ⟨hwf, henc⟩ := encode_of_decodeFields (fieldArg_lt w) h
  exact ⟨hwf, henc.trans (wordOf_fields w)⟩

namespace Sys2Proof

/-! ## Which words are commands (rule R50) -/

theorem decode_eq_ok_iff {w : CmdWord} {i : Instr} : decode w = .ok i ↔ i.wellFormed = true ∧ encode i = w := by
  constructor
  · exact encodeOfDecode w i
  · rintro ⟨hi, rfl⟩
    exact decodeOfEncode i hi

/-- A row whose mask is all ones selects the one word it names. -/
theorem decode_eq_ok_iff_of_fixed {w : CmdWord} {i : Instr} (hi : i.wellFormed = true) :
    decode w = .ok i ↔ w &&& 0xFF = encode i := by
  have hmask : w &&& 0xFF = w := BitVec.and_allOnes
  rw [decode_eq_ok_iff, hmask]
  exact ⟨fun h => h.2.symm, fun h => ⟨hi, h.symm⟩⟩

theorem mask_arg (w : CmdWord) : (w &&& 0x0F).toNat = fieldArg w := by
  rw [BitVec.toNat_and]
  exact Nat.and_two_pow_sub_one_eq_mod w.toNat 4

/-- The mask of the `TXSYM` row compares `op` alone: checked word by word. -/
theorem mask_op_eq_txsym : ∀ w : CmdWord, w &&& 0xF0 = 0x20 ↔ fieldOp w = 2 := by decide

theorem decode_eq_ok_txsym_iff {w : CmdWord} {v : Nat} :
    decode w = .ok (.txsym v) ↔ w &&& 0xF0 = 0x20 ∧ v = (w &&& 0x0F).toNat := by
  rw [decode_eq_ok_iff, mask_op_eq_txsym, mask_arg]
  constructor
  · rintro ⟨hv, hw⟩
    obtain ⟨hop, harg⟩ := (wordOf_eq_iff (by decide) (of_decide_eq_true hv)).mp hw
    exact ⟨hop, harg.symm⟩
  · rintro ⟨hop, rfl⟩
    exact ⟨decide_eq_true (fieldArg_lt w), (wordOf_eq_iff (by decide) (fieldArg_lt w)).mpr ⟨hop, rfl⟩⟩

theorem rowsSelected_encode {i : Instr} (hi : i.wellFormed = true) : rowsSelected (encode i) = 1 := by
  cases i with
  | nop => exact Laws.SelectsRow.nop hi
  | txstartF => exact Laws.SelectsRow.txstartF hi
  | txstartC => exact Laws.SelectsRow.txstartC hi
  | txsym v => exact Laws.SelectsRow.txsym v hi
  | txend => exact Laws.SelectsRow.txend hi
  | rxstart => exact Laws.SelectsRow.rxstart hi
  | rxsamp => exact Laws.SelectsRow.rxsamp hi
  | rxend => exact Laws.SelectsRow.rxend hi

/-- The rows are disjoint: the word of a command selects one, a reserved word none. -/
theorem rowsSelected_le_one (w : CmdWord) : rowsSelected w ≤ 1 := by
  cases h : decode w with
  | error e => exact (Machine.rowsSelected_of_reserved h).le.trans (Nat.zero_le 1)
  | ok i =>
    obtain ⟨hi, rfl⟩ := decode_eq_ok_iff.mp h
    exact (rowsSelected_encode hi).le

/-! ## The reserved words (rule R51) -/

/-- The fields of the words that rule R51 reserves for each of its three reasons. -/
def ReservedFields (op arg : Nat) : Reserved → Prop
  | .opcode => 0x7 ≤ op
  | .argument => op ∈ [0x0, 0x3, 0x4, 0x5, 0x6] ∧ arg ≠ 0
  | .mode => op = 0x1 ∧ arg / 2 ≠ 0

theorem reservedFields_of_noArgument {op arg : Nat} {e : Reserved} (hop : op ∈ [0x0, 0x3, 0x4, 0x5, 0x6]) :
    ReservedFields op arg e ↔ e = .argument ∧ arg ≠ 0 := by
  have hlt : op < 7 ∧ op ≠ 1 := by revert op; decide
  cases e <;> simp [ReservedFields, hop, hlt]

theorem decodeFields_eq_error_iff {op arg : Nat} {e : Reserved} :
    decodeFields op arg = .error e ↔ ReservedFields op arg e := by
  match op with
  | 0 | 3 | 4 | 5 | 6 => exact formatN_eq_error.trans (reservedFields_of_noArgument (by decide)).symm
  | 1 =>
    refine formatM_eq_error.trans ?_
    cases e <;> simp [ReservedFields]
  | 2 => cases e <;> simp [ReservedFields, decodeFields, formatV]
  | n + 7 => cases e <;> simp [ReservedFields, decodeFields]

theorem decode_eq_error_iff {w : CmdWord} {e : Reserved} :
    decode w = .error e ↔ ReservedFields (fieldOp w) (fieldArg w) e := decodeFields_eq_error_iff

theorem exists_decode_eq_error_iff (w : CmdWord) : (∃ e, decode w = .error e) ↔ rowsSelected w = 0 := by
  constructor
  · rintro ⟨e, h⟩
    exact Machine.rowsSelected_of_reserved h
  · intro h0
    cases h : decode w with
    | error e => exact ⟨e, rfl⟩
    | ok i => exact absurd h0 (Machine.rowsSelected_of_ok h)

end Sys2Proof

/-- Settles O1: a word is a command exactly when it is that command's word, which each row says with its mask; the words
that select a row are counted. -/
theorem opcodeMap : Obligations.OpcodeMap := by
  refine ⟨fun w => ?_, by decide⟩
  have hfixed : ∀ i : Instr, i.wellFormed = true → (decode w = .ok i ↔ w &&& 0xFF = encode i) := fun _ =>
    decode_eq_ok_iff_of_fixed
  exact ⟨hfixed .nop rfl, hfixed .txstartF rfl, hfixed .txstartC rfl, fun _ => decode_eq_ok_txsym_iff,
    hfixed .txend rfl, hfixed .rxstart rfl, hfixed .rxsamp rfl, hfixed .rxend rfl, rowsSelected_le_one w⟩

/-- Settles O2: the classes are read off the fields; the words of each are counted. -/
theorem reservedWords : Obligations.ReservedWords :=
  ⟨fun w => ⟨exists_decode_eq_error_iff w, decode_eq_error_iff, decode_eq_error_iff, decode_eq_error_iff⟩,
    rfl, rfl, rfl⟩

end

section
/-! PROOF. O15, O23, O24, O13: the parameter check, the fault of a START that fails it, the symbol timing, and `NOP`. -/

namespace Sys2Proof

/-! ## The failed tests over the reals (rule R4) -/

theorem Quantity.nonPos_eq_false_iff {a : Quantity} (ha : a.Defined) : Quantity.nonPos a = false ↔ 0 < a.val := by
  rw [← Bool.not_eq_true, Quantity.nonPos_iff ha, not_le]

theorem Quantity.eq_eq_false_iff {a b : Quantity} (ha : a.Defined) (hb : b.Defined) :
    Quantity.eq a b = false ↔ a.val ≠ b.val := by
  rw [← Bool.not_eq_true, Quantity.eq_iff ha hb]

theorem Quantity.lt_eq_false_iff {a b : Quantity} (ha : a.Defined) (hb : b.Defined) :
    Quantity.lt a b = false ↔ b.val ≤ a.val := by
  rw [← Bool.not_eq_true, Quantity.lt_iff ha hb, not_lt]

namespace Machine

/-! ## The parameter check (rule R58) -/

theorem outOfRange_iff {P : Params} : outOfRange P = true ↔
    Quantity.nonPos P.freq0 = true ∨ Quantity.nonPos P.freq1 = true ∨ Quantity.nonPos P.samplingRate = true ∨
    Quantity.nonPos P.baudRate = true := by
  refine ⟨outOfRange_cases, fun h => ?_⟩
  rcases h with h | h | h | h <;> simp [outOfRange, h]

theorem validate_ne_nil {P : Params} (h : outOfRange P = true ∨ equalTones P = true ∨ undersampled P = true) :
    validate P ≠ [] := by
  rcases h with h | h | h
  · exact List.ne_nil_of_mem (mem_validate.mpr (.inl ⟨rfl, h⟩))
  · exact List.ne_nil_of_mem (mem_validate.mpr (.inr (.inl ⟨rfl, h⟩)))
  · exact List.ne_nil_of_mem (mem_validate.mpr (.inr (.inr ⟨rfl, h⟩)))

theorem validate_eq_nil_iff {P : Params} : validate P = [] ↔
    Quantity.nonPos P.freq0 = false ∧ Quantity.nonPos P.freq1 = false ∧ Quantity.nonPos P.samplingRate = false ∧
    Quantity.nonPos P.baudRate = false ∧ Quantity.eq P.freq0 P.freq1 = false ∧
    Quantity.lt P.samplingRate P.baudRate = false := by
  refine ⟨valid_tests, fun ⟨h0, h1, hs, hb, heq, hlt⟩ => ?_⟩
  have hrange : outOfRange P = false := by simp [outOfRange, h0, h1, hs, hb]
  have htones : equalTones P = false := heq
  have hrates : undersampled P = false := hlt
  simp [validate, hrange, htones, hrates]

theorem validate_eq_nil_iff_real {P : Params} (hP : paramsDefined P) : validate P = [] ↔
    0 < P.freq0.val ∧ 0 < P.freq1.val ∧ 0 < P.samplingRate.val ∧ 0 < P.baudRate.val ∧
    P.freq0.val ≠ P.freq1.val ∧ P.baudRate.val ≤ P.samplingRate.val := by
  obtain ⟨h0, h1, hs, hb⟩ := hP
  rw [validate_eq_nil_iff, Quantity.nonPos_eq_false_iff h0, Quantity.nonPos_eq_false_iff h1,
    Quantity.nonPos_eq_false_iff hs, Quantity.nonPos_eq_false_iff hb, Quantity.eq_eq_false_iff h0 h1,
    Quantity.lt_eq_false_iff hs hb]

/-! ## The fault of a failed check (rules R109, R110) -/

/-- The `ERR` bits of all causes: one bit per test that holds. -/
theorem errBits_validate (P : Params) : errBits (validate P) =
    (if outOfRange P = true then 0b00100 else 0) ||| (if equalTones P = true then 0b00001 else 0) |||
      (if undersampled P = true then 0b00010 else 0) := by
  unfold validate
  cases outOfRange P <;> cases equalTones P <;> cases undersampled P <;> rfl

/-- The cause that is responded: the first test that holds. -/
theorem validate_first {P : Params} {c : Response} {cs : List Response} (h : validate P = c :: cs) :
    c = if outOfRange P = true then .configRange else if equalTones P = true then .configFreq else .configTiming := by
  have hhead : (validate P).head? = some c := by rw [h]; rfl
  revert hhead
  unfold validate
  cases outOfRange P <;> cases equalTones P <;> cases undersampled P <;> simp [eq_comm]

/-- A START legal in its unit's state whose payload has a cause: the whole next state. -/
theorem exec_start_of_validate_ne_nil {i : Instr} {s : State} {P : Params} (hw : wrongState s i = false)
    (hi : isStart i = true) (hp : s.port = .params P) (hv : validate P ≠ []) :
    exec i s = .next { s with
      err := s.err ||| errBits (validate P),
      rsp := s.rsp ++ [if outOfRange P = true then .configRange else if equalTones P = true then .configFreq
        else .configTiming],
      port := .none } := by
  obtain ⟨c, cs, hc⟩ := List.exists_cons_of_ne_nil hv
  rw [exec_invalidStart hw hi hp hc, ← validate_first hc, hc]
  rfl

theorem start_legal_of_idle {i : Instr} {s : State}
    (h : ((i = .txstartF ∨ i = .txstartC) ∧ s.tx.st = .idle) ∨ (i = .rxstart ∧ s.rx.st = .idle)) :
    isStart i = true ∧ wrongState s i = false := by
  rcases h with ⟨rfl | rfl, hst⟩ | ⟨rfl, hst⟩ <;> simp [isStart, wrongState, hst]

/-! ## The symbol timing (rule R59) -/

theorem samplesPerSymbol_eq_floor {P : Params} (hP : paramsDefined P) (h : validate P = []) :
    (samplesPerSymbol P : ℤ) = ⌊P.samplingRate.val / P.baudRate.val⌋ := by
  obtain ⟨-, -, hfs_pos, hbr_pos, -, -⟩ := (validate_eq_nil_iff_real hP).mp h
  obtain ⟨-, -, hs, hb⟩ := hP
  rw [samplesPerSymbol, Quantity.floorDiv_defined hs hb hbr_pos.ne']
  exact Int.toNat_of_nonneg (Int.floor_nonneg.mpr (div_pos hfs_pos hbr_pos).le)

theorem symbolDuration_val (P : Params) : (symbolDuration P).val = samplesPerSymbol P / P.samplingRate.val := by
  rw [symbolDuration, Quantity.div_val, Quantity.ofNat_val]

/-- The floor rounds down, so a symbol is no longer than the baud rate asks. -/
theorem symbolDuration_le {P : Params} (hP : paramsDefined P) (h : validate P = []) :
    (symbolDuration P).val ≤ 1 / P.baudRate.val := by
  have hfs_pos := samplingRate_pos h
  have hfloor : (samplesPerSymbol P : ℝ) ≤ P.samplingRate.val / P.baudRate.val := by
    exact_mod_cast Int.le_floor.mp (samplesPerSymbol_eq_floor hP h).le
  calc (symbolDuration P).val
      = samplesPerSymbol P / P.samplingRate.val := symbolDuration_val P
    _ ≤ P.samplingRate.val / P.baudRate.val / P.samplingRate.val := by gcongr
    _ = 1 / P.baudRate.val := by rw [div_right_comm, div_self hfs_pos.ne']

end Machine
end Sys2Proof

open Sys2Proof Sys2Proof.Machine

/-- Settles O15: the START raises the list `validate` finds, whose bits and first element are read off the three tests. -/
theorem configurationFaults : Obligations.ConfigurationFaults := by
  intro i s P hidle hp range freq timing hcause
  obtain ⟨hi, hw⟩ := start_legal_of_idle hidle
  have hrange : range ↔ outOfRange P = true := outOfRange_iff.symm
  have hfreq : freq ↔ equalTones P = true := Iff.rfl
  have htiming : timing ↔ undersampled P = true := Iff.rfl
  have hv : validate P ≠ [] := validate_ne_nil (hcause.imp_left hrange.mp)
  rw [exec_start_of_validate_ne_nil hw hi hp hv, errBits_validate]
  simp only [hrange, hfreq, htiming, BitVec.or_assoc]

/-- Settles O23: the tests are those of `validate`, and each is the comparison of the reals. -/
theorem validParameters : Obligations.ValidParameters :=
  ⟨fun _ => validate_eq_nil_iff, fun _ => validate_eq_nil_iff_real⟩

/-- Settles O24: the floor of the model is that of the real quotient of two positive rates. -/
theorem symbolTiming : Obligations.SymbolTiming := fun P hP hv =>
  ⟨samplesPerSymbol_eq_floor hP hv, samplesPerSymbol_pos hv, symbolDuration_val P, symbolDuration_le hP hv⟩

/-- Settles O13: `NOP` is its response alone. -/
theorem nopCompletes : Obligations.NopCompletes := fun _ => Completed.exec_eq (i := .nop) rfl

end

section
/-! PROOF. O26, O28, O29, O55, O21, O25, O30: the commands of a modulation call as whole next states, the call they make up,
and its samples, each of which is a sine. -/

namespace Sys2Proof

theorem Quantity.sin_bounds (a : Quantity) : -1 ≤ a.sin.val ∧ a.sin.val ≤ 1 := by
  rw [Quantity.sin_val]
  exact ⟨Real.neg_one_le_sin _, Real.sin_le_one _⟩

namespace Machine

/-! ## Samples (rules R62, R68) -/

/-- The corner case of rule R62: a call begins at time 0 with the sample 0. -/
@[simp] theorem sampleFsk_zero (f fs : Quantity) : sampleFsk f 0 fs = (Quantity.zero, Quantity.zero) := by
  simp [sampleFsk, Quantity.ofNat, Quantity.ofRat, Quantity.div, Quantity.mul, Quantity.sin]

theorem synthesize_bounds (f : Quantity) (u : TxUnit) :
    -1 ≤ (synthesize f u).2.1.val ∧ (synthesize f u).2.1.val ≤ 1 := by
  unfold synthesize
  split
  · exact Quantity.sin_bounds _
  · exact Quantity.sin_bounds _

theorem txWave_bounds {f : Quantity} {k : Nat} {u : TxUnit} :
    ∀ e ∈ txWave f k u, -1 ≤ e.1.val ∧ e.1.val ≤ 1 := by
  induction k generalizing u with
  | zero => exact nofun
  | succ k ih => exact List.forall_mem_cons.mpr ⟨synthesize_bounds f u, ih⟩

theorem txWave_eq_map_sampleFsk {f : Quantity} {m : Nat} {u : TxUnit} (h : u.mode = .fsk) :
    txWave f m u = (List.range m).map fun k => sampleFsk f (u.n + k) u.fs := by
  refine List.ext_getElem? fun k => ?_
  by_cases hk : k < m
  · rw [txWave_fsk h hk, List.getElem?_map, List.getElem?_range hk, Option.map_some]
  · rw [List.getElem?_eq_none (by simpa using hk), List.getElem?_eq_none (by simpa using hk)]

/-! ## The commands of a modulation call (rules R63, R64, R65, R69) -/

/-- The START of a modulation call. -/
def modulationStart : Mode → Instr
  | .fsk => .txstartF
  | .cpfsk => .txstartC

theorem exec_modulationStart {s : State} {P : Params} (hst : s.tx.st = .idle) (hp : s.port = .params P)
    (hv : validate P = []) (m : Mode) :
    exec (modulationStart m) s = .next (respond .ok (setTx (openTx m P s.tx) s)) := by
  cases m with
  | fsk => exact Completed.exec_eq (i := .txstartF) ⟨hst, P, hp, hv, rfl⟩
  | cpfsk => exact Completed.exec_eq (i := .txstartC) ⟨hst, P, hp, hv, rfl⟩

/-- The TX unit after a symbol. -/
def afterSymbol (v : Nat) (u : TxUnit) : TxUnit := txAfter (mapFreq v u.f0 u.f1) u.sps u

/-- The elements a symbol emits. -/
def symbolWave (v : Nat) (u : TxUnit) : List (Quantity × Quantity) := txWave (mapFreq v u.f0 u.f1) u.sps u

/-- A symbol keeps every register but `TX.N` and `TX.PHI`, in either mode. -/
theorem afterSymbol_eq (v : Nat) (u : TxUnit) :
    afterSymbol v u = { u with n := u.n + u.sps, phi := (afterSymbol v u).phi } := txAfter_eq ..

theorem exec_txsym {s : State} (hst : s.tx.st = .active) (v : Nat) :
    exec (.txsym v) s = .next { s with
      tx := afterSymbol v s.tx, txout := s.txout ++ symbolWave v s.tx, rsp := s.rsp ++ [.ok], port := .none } := by
  rw [Completed.exec_eq (i := .txsym v) ⟨hst, rfl⟩, txSteps_eq]
  rfl

theorem exec_txend {s : State} (hst : s.tx.st = .active) :
    exec .txend s = .next { s with tx := { s.tx with st := .idle }, rsp := s.rsp ++ [.ok], port := .none } :=
  Completed.exec_eq (i := .txend) ⟨hst, rfl⟩

/-! ## The same commands issued (rules R30, R36) -/

/-- A well-formed command, issued, does what it does with its payload on the port. -/
theorem issue_of_exec {i : Instr} {p : Payload} {s t : State} (hi : i.wellFormed = true)
    (h : exec i (deliver p s.input s) = .next t) : issue (encode i) p s = .next t :=
  (issue_encode (decodeOfEncode i hi) p s).trans h

theorem issue_modulationStart {s : State} {P : Params} (hst : s.tx.st = .idle) (hv : validate P = []) (m : Mode) :
    issue (encode (modulationStart m)) (.params P) s = .next (respond .ok (setTx (openTx m P s.tx) s)) :=
  issue_of_exec (by cases m <;> rfl) (exec_modulationStart (s := deliver (.params P) s.input s) hst rfl hv m)

theorem issue_txsym {s : State} (hst : s.tx.st = .active) {v : Nat} (hv : v < 16) :
    issue (encode (.txsym v)) .none s = .next { s with
      tx := afterSymbol v s.tx, txout := s.txout ++ symbolWave v s.tx, rsp := s.rsp ++ [.ok], port := .none } :=
  issue_of_exec (decide_eq_true hv) (exec_txsym (s := deliver .none s.input s) hst v)

theorem issue_txend {s : State} (hst : s.tx.st = .active) : issue (encode .txend) .none s = .next { s with
      tx := { s.tx with st := .idle }, rsp := s.rsp ++ [.ok], port := .none } :=
  issue_of_exec rfl (exec_txend (s := deliver .none s.input s) hst)

/-! ## A whole modulation call (rules R84, R85) -/

/-- The TX unit after a symbol sequence. -/
def afterSymbols : List Nat → TxUnit → TxUnit
  | [], u => u
  | v :: vs, u => afterSymbols vs (afterSymbol v u)

/-- The elements a symbol sequence emits. -/
def symbolsWave : List Nat → TxUnit → List (Quantity × Quantity)
  | [], _ => []
  | v :: vs, u => symbolWave v u ++ symbolsWave vs (afterSymbol v u)

theorem afterSymbols_st (vs : List Nat) (u : TxUnit) : (afterSymbols vs u).st = u.st := by
  induction vs generalizing u with
  | nil => rfl
  | cons v vs ih => rw [afterSymbols, ih, afterSymbol_eq]

theorem symbolsWave_length (vs : List Nat) (u : TxUnit) : (symbolsWave vs u).length = vs.length * u.sps := by
  induction vs generalizing u with
  | nil => simp [symbolsWave]
  | cons v vs ih =>
    rw [symbolsWave, List.length_append, ih, symbolWave, txWave_length, afterSymbol_eq, List.length_cons, Nat.succ_mul,
      Nat.add_comm]

theorem symbolsWave_bounds {vs : List Nat} {u : TxUnit} : ∀ e ∈ symbolsWave vs u, -1 ≤ e.1.val ∧ e.1.val ≤ 1 := by
  induction vs generalizing u with
  | nil => exact nofun
  | cons v vs ih => exact List.forall_mem_append.mpr ⟨txWave_bounds, ih⟩

theorem issueAll_singleton (c : CmdWord × Payload) (s : State) : issueAll [c] s = issue c.1 c.2 s := by
  rw [issueAll]
  cases issue c.1 c.2 s <;> rfl

theorem issueAll_symbolCommands {vs : List Nat} {s : State} (hvs : ∀ v ∈ vs, v < 16) (hst : s.tx.st = .active)
    (hp : s.port = .none) : issueAll (symbolCommands vs) s = .next { s with
      tx := afterSymbols vs s.tx, txout := s.txout ++ symbolsWave vs s.tx,
      rsp := s.rsp ++ List.replicate vs.length .ok } := by
  induction vs generalizing s with
  | nil => simp [symbolCommands, issueAll, afterSymbols, symbolsWave]
  | cons v vs ih =>
    obtain ⟨hv, hvs⟩ := List.forall_mem_cons.mp hvs
    have hopen : (afterSymbol v s.tx).st = .active := by rw [afterSymbol_eq]; exact hst
    rw [symbolCommands, List.map_cons, issueAll, issue_txsym hst hv]
    refine (ih hvs hopen rfl).trans ?_
    simp [afterSymbols, symbolsWave, hp, List.replicate_succ]

/-- A call whose START responds `OK` goes on. -/
theorem call_of_ok {start : Instr} {P : Params} {s t : State} (h : issue (encode start) (.params P) s = .next t)
    (hok : t.rsp.getLast? = some .ok) (rest : List (CmdWord × Payload)) : call start P rest s = issueAll rest t := by
  simp only [call, h, if_pos hok]

theorem modulate_eq_call (m : Mode) (P : Params) (vs : List Nat) (s : State) : modulate m P vs s =
    call (modulationStart m) P (symbolCommands vs ++ [(encode .txend, .none)]) s := by
  cases m <;> rfl

theorem callWaveform_eq {s t : State} {wave : List (Quantity × Quantity)} (h : t.txout = s.txout ++ wave) :
    callWaveform s t = wave.map Prod.fst := by
  rw [callWaveform, h, List.drop_left]

/-- A modulation call with a valid payload on an idle unit: the whole next state. -/
theorem modulate_valid {P : Params} {vs : List Nat} {s : State} (hst : s.tx.st = .idle) (hv : validate P = [])
    (hvs : ∀ v ∈ vs, v < 16) (m : Mode) : modulate m P vs s = .next { s with
      tx := { afterSymbols vs (openTx m P s.tx) with st := .idle },
      txout := s.txout ++ symbolsWave vs (openTx m P s.tx),
      rsp := s.rsp ++ List.replicate (vs.length + 2) .ok, port := .none } := by
  have hstart := issue_modulationStart hst hv m
  have hsymbols := issueAll_symbolCommands (s := respond .ok (setTx (openTx m P s.tx) s)) hvs rfl rfl
  have hopen : (afterSymbols vs (openTx m P s.tx)).st = .active := afterSymbols_st ..
  have hresponses : List.replicate (vs.length + 2) Response.ok = .ok :: (List.replicate vs.length .ok ++ [.ok]) := by
    rw [List.replicate_succ, List.replicate_succ']
  rw [modulate_eq_call, call_of_ok hstart (by simp), issueAll_append hsymbols, issueAll_singleton]
  refine (issue_txend hopen).trans ?_
  simp [hresponses]

end Machine
end Sys2Proof

open Sys2Proof Sys2Proof.Machine

/-- Settles O26: the sample is a sine at the time of its index, and the block's `sin 0` is 0. -/
theorem sampleFskValue : Obligations.SampleFskValue := by
  intro f i fs
  obtain ⟨hsample, htime⟩ := sampleFsk_val f i fs
  exact ⟨hsample, htime, fun hi => hi ▸ sampleFsk_zero f fs, Quantity.sin_bounds _⟩

/-- Settles O28: in `FSK` mode the passes of the loop advance `TX.N` alone. -/
theorem txsymFskCompletes : Obligations.TxsymFskCompletes := by
  intro v s _ hst hm
  rw [exec_txsym hst, afterSymbol, txAfter_fsk hm, symbolWave, txWave_eq_map_sampleFsk hm]
  rfl

/-- Settles O29: in `CPFSK` mode the passes of the loop advance `TX.N` and the accumulator. -/
theorem txsymCpfskCompletes : Obligations.TxsymCpfskCompletes := by
  intro v s _ hst hm f
  refine ⟨(afterSymbol v s.tx).phi, symbolWave v s.tx, ?_, txAfter_phi_val hm, txWave_length ..,
    fun k hk => txWave_cpfsk hm hk⟩
  rw [exec_txsym hst, ← afterSymbol_eq]

/-- Settles O55: all samples of the call are sines, so the codec has a result for each. -/
theorem waveformFitsCodec : Obligations.WaveformFitsCodec := by
  intro m P vs s hst hv hvs
  have hcall := modulate_valid hst hv hvs m
  obtain ⟨quantized, hq⟩ := waveformThroughCodec_isSome (List.forall_mem_map.mpr
    (symbolsWave_bounds (vs := vs) (u := openTx m P s.tx)))
  refine ⟨_, quantized, hcall, ?_, ?_⟩
  · rw [callWaveform_eq rfl, hq]
  · rw [← (waveformThroughCodec_eq_some.mp hq).length_eq, List.length_map, symbolsWave_length, openTx_sps]

/-- Settles O21: the opened unit is written out register by register. -/
theorem txStartOpens : Obligations.TxStartOpens := by
  rintro i m s P (⟨rfl, rfl⟩ | ⟨rfl, rfl⟩) hst hp hv
  · exact exec_modulationStart hst hp hv .fsk
  · exact exec_modulationStart hst hp hv .cpfsk

/-- Settles O25: the mapper tests its symbol value for 0. -/
theorem mapFreqIsTotal : Obligations.MapFreqIsTotal := fun _ _ _ _ => ⟨fun hv => if_pos hv, fun hv => if_neg hv⟩

/-- Settles O30: `TXEND` writes the unit state alone, and without an open call it is in the wrong state. -/
theorem txendCompletes : Obligations.TxendCompletes := fun _ =>
  ⟨exec_txend, fun hst => exec_wrongState (i := .txend) (decide_eq_true hst)⟩

end

section
/-! PROOF. O27, O31: the continuous-phase step, which adds one increment to the accumulator and takes the sine of the sum. -/

namespace Sys2Proof.Machine

/-- The increment of an open call is positive (rule R67). -/
theorem deltaPhi_pos {f fs : Quantity} (hf : 0 < f.val) (hfs : 0 < fs.val) : 0 < (deltaPhi f fs).val := by
  rw [deltaPhi_val]
  positivity

/-- The step writes `TX.PHI` alone. -/
theorem stepCpfsk_eq (f : Quantity) (u : TxUnit) : (stepCpfsk f u).1 = { u with phi := (stepCpfsk f u).1.phi } := rfl

/-- The accumulator rises by the increment of the step's tone, whatever it held before. -/
theorem stepCpfsk_phi_val (f : Quantity) (u : TxUnit) :
    (stepCpfsk f u).1.phi.val = u.phi.val + (deltaPhi f u.fs).val := Quantity.add_val ..

/-- The sample is the sine of the accumulator after the step, not before it. -/
theorem stepCpfsk_sample_val (f : Quantity) (u : TxUnit) :
    (stepCpfsk f u).2.1.val = Real.sin (stepCpfsk f u).1.phi.val := Quantity.sin_val _

/-- The time axis is that of `FSK` mode. -/
theorem stepCpfsk_time_val (f : Quantity) (u : TxUnit) : (stepCpfsk f u).2.2.val = u.n / u.fs.val := by
  simp [stepCpfsk]

end Sys2Proof.Machine

open Sys2Proof Sys2Proof.Machine

/-- Settles O27: the step accumulates first, so its sample is the sine of the sum. -/
theorem stepCpfskValue : Obligations.StepCpfskValue := by
  intro f u
  have hphi : (stepCpfsk f u).1.phi.val = u.phi.val + 2 * Real.pi * f.val / u.fs.val := by
    rw [stepCpfsk_phi_val, deltaPhi_val]
  have hsample := stepCpfsk_sample_val f u
  rw [hphi] at hsample
  exact ⟨deltaPhi_val f u.fs, hphi, stepCpfsk_eq f u, hsample, stepCpfsk_time_val f u⟩

/-- Settles O31: the first step leaves the sampling rate, so the second adds the increment of its own tone at that rate,
and that increment is positive. -/
theorem phaseContinuity : Obligations.PhaseContinuity := by
  intro f g u hg hfs a b
  have hrise : b.phi.val = a.phi.val + (deltaPhi g u.fs).val := stepCpfsk_phi_val g { a with n := a.n + 1 }
  have hpos : 0 < (deltaPhi g u.fs).val := deltaPhi_pos hg hfs
  exact ⟨sub_eq_of_eq_add' hrise, hrise ▸ lt_add_of_pos_right _ hpos⟩

end

section
/-! PROOF. O32, O33, O34, O47, O22: the quadrature correlator.  The four sums a sample and a window leave, as real numbers;
the magnitudes and the bit decided on them; then `RXSTART` and `RXSAMP` as whole next states. -/

namespace Sys2Proof.Machine

/-! ## The sums (rules R72, R73) -/

/-- Each of the four sums takes the sample times its own reference at the local index. -/
theorem integrate_sums_val (x : Quantity) (u : RxUnit) :
    (integrate x u).i0.val = u.i0.val + x.val * Real.cos (2 * Real.pi * u.f0.val * (u.k / u.fs.val)) ∧
    (integrate x u).q0.val = u.q0.val + x.val * Real.sin (2 * Real.pi * u.f0.val * (u.k / u.fs.val)) ∧
    (integrate x u).i1.val = u.i1.val + x.val * Real.cos (2 * Real.pi * u.f1.val * (u.k / u.fs.val)) ∧
    (integrate x u).q1.val = u.q1.val + x.val * Real.sin (2 * Real.pi * u.f1.val * (u.k / u.fs.val)) := by
  simp only [integrate_i0, integrate_q0, integrate_i1, integrate_q1, Quantity.add_val, Quantity.mul_val, refCos_val,
    refSin_val, and_self]

/-- The correlation of a window with a reference, given by its values at the local indices (rule R73). -/
noncomputable def correlation (window : List Quantity) (ref : ℕ → ℝ) : ℝ :=
  ∑ k ∈ Finset.range window.length, (window.getD k Quantity.zero).val * ref k

@[simp] theorem correlation_nil (ref : ℕ → ℝ) : correlation [] ref = 0 := rfl

/-- One more sample adds its product with the reference at the index it stands at. -/
@[simp] theorem correlation_snoc (window : List Quantity) (x : Quantity) (ref : ℕ → ℝ) :
    correlation (window ++ [x]) ref = correlation window ref + x.val * ref window.length := by
  have hfirst : ∀ k ∈ Finset.range window.length,
      ((window ++ [x]).getD k Quantity.zero).val * ref k = (window.getD k Quantity.zero).val * ref k := fun k hk => by
    rw [List.getD_append _ _ _ _ (Finset.mem_range.mp hk)]
  have hlast : (window ++ [x]).getD window.length Quantity.zero = x := by simp
  rw [correlation, List.length_append, List.length_singleton, Finset.sum_range_succ, Finset.sum_congr rfl hfirst, hlast,
    correlation]

/-- The sums of a window are its correlations with the four references, by induction on the window from its end. -/
theorem windowSums_val (P : Params) (window : List Quantity) :
    (windowSums P window).i0.val = correlation window (fun k => (refCos P.freq0 k P.samplingRate).val) ∧
    (windowSums P window).q0.val = correlation window (fun k => (refSin P.freq0 k P.samplingRate).val) ∧
    (windowSums P window).i1.val = correlation window (fun k => (refCos P.freq1 k P.samplingRate).val) ∧
    (windowSums P window).q1.val = correlation window (fun k => (refSin P.freq1 k P.samplingRate).val) := by
  induction window using List.reverseRecOn with
  | nil => exact ⟨rfl, rfl, rfl, rfl⟩
  | append_singleton w x ih =>
    obtain ⟨hi0, hq0, hi1, hq1⟩ := ih
    obtain ⟨-, hf0, hf1, hfs, -, hk, -⟩ := windowSums_shape P w
    simp only [windowSums_snoc, integrate_i0, integrate_q0, integrate_i1, integrate_q1, Quantity.add_val,
      Quantity.mul_val, correlation_snoc, hi0, hq0, hi1, hq1, hf0, hf1, hfs, hk, and_self]

/-! ## The magnitude and the decision (rules R74, R79) -/

theorem mag_nonneg (i q : Quantity) : 0 ≤ (mag i q).val := by
  rw [mag_val]
  exact Real.sqrt_nonneg _

theorem mag_eq_zero_iff (i q : Quantity) : (mag i q).val = 0 ↔ i.val = 0 ∧ q.val = 0 := by
  rw [mag_val, Real.sqrt_eq_zero (by positivity), add_eq_zero_iff_of_nonneg (sq_nonneg _) (sq_nonneg _),
    sq_eq_zero_iff, sq_eq_zero_iff]

theorem defined_mag {i q : Quantity} (hi : i.Defined) (hq : q.Defined) : (mag i q).Defined := by
  have hsum : 0 ≤ (Quantity.add (Quantity.sq i) (Quantity.sq q)).val := by
    rw [Quantity.add_val, Quantity.sq_val, Quantity.sq_val]
    positivity
  exact Quantity.defined_sqrt (Quantity.defined_add (Quantity.defined_mul hi hi) (Quantity.defined_mul hq hq)) hsum

theorem decideBit_eq_zero_iff {a b : Quantity} (ha : a.Defined) (hb : b.Defined) :
    decideBit a b = 0 ↔ a.val > b.val := by
  rw [gt_iff_lt, ← Quantity.gt_iff ha hb, decideBit]
  split <;> simp [*]

/-- The tie decides 1. -/
theorem decideBit_eq_one_iff {a b : Quantity} (ha : a.Defined) (hb : b.Defined) :
    decideBit a b = 1 ↔ a.val ≤ b.val := by
  rw [← not_lt, ← Quantity.gt_iff ha hb, decideBit]
  split <;> simp [*]

/-- The bit of a window whose sums are real numbers, over the reals. -/
theorem windowBit_iff {u : RxUnit} (h : u.RegsDefined) :
    (windowBit u = 0 ↔ Real.sqrt (u.i0.val ^ 2 + u.q0.val ^ 2) > Real.sqrt (u.i1.val ^ 2 + u.q1.val ^ 2)) ∧
    (windowBit u = 1 ↔ Real.sqrt (u.i0.val ^ 2 + u.q0.val ^ 2) ≤ Real.sqrt (u.i1.val ^ 2 + u.q1.val ^ 2)) := by
  have h0 := defined_mag h.i0 h.q0
  have h1 := defined_mag h.i1 h.q1
  rw [windowBit, decideBit_eq_zero_iff h0 h1, decideBit_eq_one_iff h0 h1, mag_val, mag_val]
  exact ⟨Iff.rfl, Iff.rfl⟩

/-! ## The commands (rules R75, R76, R80) -/

theorem exec_rxstart_valid {s : State} {P : Params} (hst : s.rx.st = .idle) (hp : s.port = .params P)
    (hv : validate P = []) : exec .rxstart s = .next (respond .ok (setRx (openRx P s.rx) s)) :=
  Completed.exec_eq (i := .rxstart) ⟨hst, P, hp, hv, rfl⟩

/-- `RXSAMP` in an open call, whether or not it completes the window. -/
theorem exec_rxsamp {s : State} {x : Quantity} (hst : s.rx.st = .active) (hp : s.port = .sample x) :
    exec .rxsamp s = .next { s with
      rx := rxSampled x s.rx, rxout := s.rxout ++ rxDecided x s.rx, rsp := s.rsp ++ [.ok], port := .none } := by
  rw [Completed.exec_eq (i := .rxsamp) ⟨hst, x, hp, rfl⟩, takeSample_eq]
  rfl

theorem rxSampled_inside {x : Quantity} {u : RxUnit} (h : u.k + 1 ≠ u.sps) :
    rxSampled x u = integrate x u ∧ rxDecided x u = [] := ⟨if_neg h, if_neg h⟩

theorem rxSampled_complete {x : Quantity} {u : RxUnit} (h : u.k + 1 = u.sps) :
    rxSampled x u = dump (integrate x u) ∧ rxDecided x u = [windowBit (integrate x u)] := ⟨if_pos h, if_pos h⟩

end Sys2Proof.Machine

open Sys2Proof Sys2Proof.Machine

/-- Settles O32: the sample is integrated, and no bit is emitted. -/
theorem rxsampIntegrates : Obligations.RxsampIntegrates := by
  intro s x hst hp hk
  obtain ⟨hunit, hbits⟩ := rxSampled_inside (x := x) hk
  refine ⟨_, _, _, _, ?_, integrate_sums_val x s.rx⟩
  rw [exec_rxsamp hst hp, hunit, hbits, List.append_nil]
  rfl

/-- Settles O33: the sample is integrated, its window decided and dumped; integration keeps the sums real numbers, so the
bit is the comparison of the real magnitudes. -/
theorem rxsampDecides : Obligations.RxsampDecides := by
  intro s x hst hp hk u real0 real1
  obtain ⟨hunit, hbits⟩ := rxSampled_complete (x := x) hk
  obtain ⟨hi0, hq0, hi1, hq1⟩ := integrate_sums_val x s.rx
  refine ⟨?_, hi0, hq0, hi1, hq1, fun h => ?_⟩
  · rw [exec_rxsamp hst hp, hunit, hbits]
    rfl
  · obtain ⟨-, -, -, hrx, -⟩ := (allDefined_iff s).mp h
    exact windowBit_iff (integrate_regsDefined (h.sample hp) (hrx hst))

/-- Settles O34: a square root is never negative, and this one is 0 only where both squares are. -/
theorem magValue : Obligations.MagValue := fun i q => ⟨mag_val i q, mag_nonneg i q, mag_eq_zero_iff i q⟩

/-- Settles O47: the sums of a window are its correlations with the four references, whose real values are known. -/
theorem windowSumValues : Obligations.WindowSumValues := by
  intro P window
  simpa only [correlation, refCos_val, refSin_val] using windowSums_val P window

/-- Settles O22: the opened unit is written out register by register. -/
theorem rxStartOpens : Obligations.RxStartOpens := fun _ _ => exec_rxstart_valid

end

section
/-! PROOF. O35, O36: the slicer.  Magnitudes are ordered as their squares, and `RXEND` as a whole next state. -/

namespace Sys2Proof.Machine

/-- The squared form of the comparison, which needs no square root (rule R77). -/
theorem mag_lt_mag_iff (i q i' q' : Quantity) :
    (mag i q).val < (mag i' q').val ↔ i.val ^ 2 + q.val ^ 2 < i'.val ^ 2 + q'.val ^ 2 := by
  rw [mag_val, mag_val]
  exact Real.sqrt_lt_sqrt_iff (by positivity)

theorem exec_rxend {s : State} (hst : s.rx.st = .active) :
    exec .rxend s = .next { s with
      rx := { dump s.rx with st := .idle }, rsp := s.rsp ++ [.ok], port := .none } :=
  Completed.exec_eq (i := .rxend) ⟨hst, rfl⟩

end Sys2Proof.Machine

open Sys2Proof Sys2Proof.Machine

/-- Settles O35: the magnitudes of real sums are real, so the decision is their order, which is that of their squares. -/
theorem decisionOnMagnitudes : Obligations.DecisionOnMagnitudes := by
  intro i0 q0 i1 q1 hi0 hq0 hi1 hq1
  have h0 := defined_mag hi0 hq0
  have h1 := defined_mag hi1 hq1
  exact ⟨decideBit_eq_zero_iff h0 h1, decideBit_eq_one_iff h0 h1, mag_lt_mag_iff i1 q1 i0 q0⟩

/-- Settles O36: `RXEND` dumps the sums and closes the call, and without an open call it is in the wrong state. -/
theorem rxendCompletes : Obligations.RxendCompletes := fun _ =>
  ⟨exec_rxend, fun hst => exec_wrongState (i := .rxend) (decide_eq_true hst)⟩

end

section
/-! PROOF. O46, O49, O50, O48, O52: a whole demodulation call, whose bits are those of its windows; the calls without a
symbol or a sample; and the order of the bits of a byte. -/

namespace Sys2Proof

/-! ## The number 0 as a datum -/

@[simp] theorem Quantity.add_zero (a : Quantity) : Quantity.add a Quantity.zero = a := by
  unfold Quantity.add
  by_cases h : a = Quantity.zero
  · rw [if_pos h, h]
  · rw [if_neg h, if_pos rfl]

@[simp] theorem Quantity.zero_mul (a : Quantity) : Quantity.mul Quantity.zero a = Quantity.zero := if_pos (.inl rfl)

@[simp] theorem Quantity.mul_zero (a : Quantity) : Quantity.mul a Quantity.zero = Quantity.zero := if_pos (.inr rfl)

@[simp] theorem Quantity.zero_div (a : Quantity) : Quantity.div Quantity.zero a = Quantity.zero := if_pos rfl

@[simp] theorem Quantity.ofNat_zero : Quantity.ofNat 0 = Quantity.zero := by decide

namespace Machine

/-! ## The samples of a demodulation call (rule R86) -/

/-- The RX unit after a waveform. -/
def afterSamples : List Quantity → RxUnit → RxUnit
  | [], u => u
  | x :: xs, u => afterSamples xs (rxSampled x u)

/-- The bits a waveform emits. -/
def decidedBits : List Quantity → RxUnit → List Bit
  | [], _ => []
  | x :: xs, u => rxDecided x u ++ decidedBits xs (rxSampled x u)

theorem rxSampled_st (x : Quantity) (u : RxUnit) : (rxSampled x u).st = u.st := by rw [rxSampled_frame]

theorem afterSamples_st (xs : List Quantity) (u : RxUnit) : (afterSamples xs u).st = u.st := by
  induction xs generalizing u with
  | nil => rfl
  | cons x xs ih => rw [afterSamples, ih, rxSampled_st]

theorem issue_rxstart {s : State} {P : Params} (hst : s.rx.st = .idle) (hv : validate P = []) :
    issue (encode .rxstart) (.params P) s = .next (respond .ok (setRx (openRx P s.rx) s)) :=
  issue_of_exec rfl (exec_rxstart_valid (s := deliver (.params P) s.input s) hst rfl hv)

theorem issue_rxsamp {s : State} (hst : s.rx.st = .active) (x : Quantity) :
    issue (encode .rxsamp) (.sample x) s = .next { s with
      rx := rxSampled x s.rx, rxout := s.rxout ++ rxDecided x s.rx, rsp := s.rsp ++ [.ok], port := .none } :=
  issue_of_exec rfl (exec_rxsamp (s := deliver (.sample x) s.input s) hst rfl)

theorem issue_rxend {s : State} (hst : s.rx.st = .active) : issue (encode .rxend) .none s = .next { s with
      rx := { dump s.rx with st := .idle }, rsp := s.rsp ++ [.ok], port := .none } :=
  issue_of_exec rfl (exec_rxend (s := deliver .none s.input s) hst)

theorem issueAll_sampleCommands {xs : List Quantity} {s : State} (hst : s.rx.st = .active) (hp : s.port = .none) :
    issueAll (sampleCommands xs) s = .next { s with
      rx := afterSamples xs s.rx, rxout := s.rxout ++ decidedBits xs s.rx,
      rsp := s.rsp ++ List.replicate xs.length .ok } := by
  induction xs generalizing s with
  | nil => simp [sampleCommands, issueAll, afterSamples, decidedBits]
  | cons x xs ih =>
    have hopen : (rxSampled x s.rx).st = .active := (rxSampled_st x s.rx).trans hst
    rw [sampleCommands, List.map_cons, issueAll, issue_rxsamp hst]
    refine (ih hopen rfl).trans ?_
    simp [afterSamples, decidedBits, hp, List.replicate_succ]

/-! ## The windows of a waveform (rules R78, R82) -/

/-- The bits of the complete windows of a waveform. -/
def windowBits (P : Params) (xs : List Quantity) : List Bit :=
  (List.range (xs.length / samplesPerSymbol P)).map fun j => windowBit (windowSums P (windowOf (samplesPerSymbol P) j xs))

@[simp] theorem windowBits_length (P : Params) (xs : List Quantity) :
    (windowBits P xs).length = xs.length / samplesPerSymbol P := by simp [windowBits]

theorem windowBits_of_short {P : Params} {xs : List Quantity} (h : xs.length < samplesPerSymbol P) :
    windowBits P xs = [] := by
  rw [windowBits, Nat.div_eq_of_lt h]
  rfl

/-- The first window of a waveform decides the first bit, and the rest decide the others. -/
theorem windowBits_append {P : Params} {w xs : List Quantity} (hw : w.length = samplesPerSymbol P)
    (hpos : 0 < samplesPerSymbol P) : windowBits P (w ++ xs) = windowBit (windowSums P w) :: windowBits P xs := by
  have hcount : (w ++ xs).length / samplesPerSymbol P = xs.length / samplesPerSymbol P + 1 := by
    rw [List.length_append, hw, Nat.add_comm, Nat.add_div_right _ hpos]
  have hfirst : windowOf (samplesPerSymbol P) 0 (w ++ xs) = w := by simp [windowOf, ← hw]
  have hrest : ∀ j, windowOf (samplesPerSymbol P) (j + 1) (w ++ xs) = windowOf (samplesPerSymbol P) j xs := fun j => by
    rw [windowOf, windowOf, Nat.succ_mul, Nat.add_comm, ← hw, ← List.drop_drop, List.drop_left]
  rw [windowBits, hcount, List.range_succ_eq_map, List.map_cons, List.map_map, hfirst, windowBits]
  simp only [Function.comp_def, Nat.succ_eq_add_one, hrest]

/-- A sample of an open call in a window that holds the samples `w`. -/
theorem rxSampled_windowSums (P : Params) (w : List Quantity) (x : Quantity) :
    (w.length + 1 = samplesPerSymbol P → rxSampled x (windowSums P w) = windowSums P [] ∧
      rxDecided x (windowSums P w) = [windowBit (windowSums P (w ++ [x]))]) ∧
    (w.length + 1 ≠ samplesPerSymbol P → rxSampled x (windowSums P w) = windowSums P (w ++ [x]) ∧
      rxDecided x (windowSums P w) = []) := by
  obtain ⟨-, -, -, -, hsps, hk, -⟩ := windowSums_shape P w
  obtain ⟨-, -, -, -, -, -, hdump⟩ := windowSums_shape P (w ++ [x])
  rw [← hsps, ← hk, ← hdump, windowSums_snoc]
  exact ⟨rxSampled_complete, rxSampled_inside⟩

/-- A call in a window that holds the samples `w` decides the windows of `w` and of what is still to come, whole. -/
theorem decidedBits_windowSums {P : Params} {w : List Quantity} (hw : w.length < samplesPerSymbol P)
    (xs : List Quantity) : decidedBits xs (windowSums P w) = windowBits P (w ++ xs) := by
  induction xs generalizing w with
  | nil => rw [List.append_nil, windowBits_of_short hw]; rfl
  | cons x xs ih =>
    obtain ⟨hcomplete, hinside⟩ := rxSampled_windowSums P w x
    rw [decidedBits, List.append_cons w x xs]
    by_cases hk : w.length + 1 = samplesPerSymbol P
    · obtain ⟨hunit, hbit⟩ := hcomplete hk
      rw [hunit, hbit, ih (w := []) (Nat.zero_lt_of_lt hw), windowBits_append (w := w ++ [x]) (by simpa using hk) (by omega)]
      rfl
    · obtain ⟨hunit, hbit⟩ := hinside hk
      rw [hunit, hbit, ih (by rw [List.length_append]; exact lt_of_le_of_ne hw hk), List.nil_append]

/-! ## A whole demodulation call (rule R86) -/

/-- A demodulation call with a valid payload on an idle unit: the whole next state. -/
theorem demodulate_valid {P : Params} {s : State} (hst : s.rx.st = .idle) (hv : validate P = []) (xs : List Quantity) :
    demodulate P xs s = .next { s with
      rx := { dump (afterSamples xs (openRx P s.rx)) with st := .idle },
      rxout := s.rxout ++ windowBits P xs,
      rsp := s.rsp ++ List.replicate (xs.length + 2) .ok, port := .none } := by
  have hstart := issue_rxstart hst hv
  have hsamples := issueAll_sampleCommands (xs := xs) (s := respond .ok (setRx (openRx P s.rx) s)) rfl rfl
  have hbits : decidedBits xs (openRx P s.rx) = windowBits P xs :=
    decidedBits_windowSums (w := []) (samplesPerSymbol_pos hv) xs
  have hopen : (afterSamples xs (openRx P s.rx)).st = .active := afterSamples_st ..
  have hresponses : List.replicate (xs.length + 2) Response.ok = .ok :: (List.replicate xs.length .ok ++ [.ok]) := by
    rw [List.replicate_succ, List.replicate_succ']
  rw [demodulate, call_of_ok hstart (by simp), issueAll_append hsamples, issueAll_singleton]
  refine (issue_rxend hopen).trans ?_
  simp [hresponses, hbits]

/-! ## Windows that tie (rules R79, R96, R97) -/

theorem windowBit_of_tie {u : RxUnit} (hi : u.i0 = u.i1) (hq : u.q0 = u.q1) : windowBit u = 1 := by
  rw [windowBit, hi, hq, decideBit_self]

/-- A sample 0 advances `RX.K` and leaves the sums. -/
theorem integrate_zero (u : RxUnit) : integrate Quantity.zero u = { u with k := u.k + 1 } := by
  simp only [integrate, Quantity.zero_mul, Quantity.add_zero]

theorem windowSums_silence (P : Params) (n : Nat) :
    windowSums P (List.replicate n Quantity.zero) = { windowSums P [] with k := n } := by
  induction n with
  | zero => rfl
  | succ n ih => rw [List.replicate_succ', windowSums_snoc, ih, integrate_zero]

/-- The references begin at angle 0, whatever the tone. -/
@[simp] theorem refAngle_zero (f fs : Quantity) : refAngle f 0 fs = Quantity.zero := by
  rw [refAngle, Quantity.ofNat_zero, Quantity.zero_div, Quantity.mul_zero]

/-- A window of one sample has the same sums at both tones. -/
theorem windowSums_single_tie (P : Params) (x : Quantity) :
    (windowSums P [x]).i0 = (windowSums P [x]).i1 ∧ (windowSums P [x]).q0 = (windowSums P [x]).q1 := by
  have hsums : windowSums P [x] = integrate x (openRx P RxUnit.reset) := rfl
  simp [hsums, refCos, refSin]

theorem windowBits_silence (P : Params) (L : Nat) :
    windowBits P (List.replicate L Quantity.zero) = List.replicate (L / samplesPerSymbol P) 1 := by
  refine List.eq_replicate_iff.mpr ⟨by simp, ?_⟩
  simp only [windowBits, List.forall_mem_map, windowOf, List.drop_replicate, List.take_replicate, windowSums_silence]
  exact fun _ _ => windowBit_of_tie rfl rfl

theorem windowBits_of_single {P : Params} (h : samplesPerSymbol P = 1) (xs : List Quantity) :
    windowBits P xs = List.replicate xs.length 1 := by
  induction xs with
  | nil => exact windowBits_of_short (by simp [h])
  | cons x xs ih =>
    obtain ⟨hi, hq⟩ := windowSums_single_tie P x
    rw [← List.singleton_append, windowBits_append (by simp [h]) (by simp [h]), windowBit_of_tie hi hq, ih]
    rfl

/-! ## Calls without a symbol or a sample (rule R94) -/

/-- A START that fails its parameter check, issued. -/
theorem issue_invalidStart {i : Instr} {s : State} {P : Params} {c : Response} {cs : List Response}
    (hlegal : isStart i = true ∧ wrongState s i = false) (hv : validate P = c :: cs) :
    issue (encode i) (.params P) s = .next (raise c cs s) := by
  obtain ⟨hi, hw⟩ := hlegal
  have hwell : i.wellFormed = true := by
    cases i with
    | txsym v => cases hi
    | _ => rfl
  have hdelivered : wrongState (deliver (.params P) s.input s) i = false := by
    cases i <;> exact hw
  exact issue_of_exec hwell (exec_invalidStart hdelivered hi rfl hv)

/-- A call whose START fails its parameter check ends there, whatever its symbols or samples. -/
theorem call_of_invalid {i : Instr} {s : State} {P : Params} (hlegal : isStart i = true ∧ wrongState s i = false)
    (hv : validate P ≠ []) (rest : List (CmdWord × Payload)) :
    ∃ c cs, c ≠ .ok ∧ call i P rest s = .next (raise c cs s) := by
  obtain ⟨c, cs, hc⟩ := List.exists_cons_of_ne_nil hv
  have hne : c ≠ .ok := validate_ne_ok (by rw [hc]; exact List.mem_cons_self)
  refine ⟨c, cs, hne, ?_⟩
  simp [call, issue_invalidStart hlegal hc, hne]

theorem modulate_invalid {P : Params} {s : State} (hst : s.tx.st = .idle) (hv : validate P ≠ []) (m : Mode)
    (vs : List Nat) : ∃ t c, modulate m P vs s = .next t ∧ c ≠ .ok ∧ t.txout = s.txout ∧ t.rsp = s.rsp ++ [c] := by
  have hlegal : isStart (modulationStart m) = true ∧ wrongState s (modulationStart m) = false := by
    cases m with
    | fsk => exact start_legal_of_idle (.inl ⟨.inl rfl, hst⟩)
    | cpfsk => exact start_legal_of_idle (.inl ⟨.inr rfl, hst⟩)
  obtain ⟨c, cs, hc, hcall⟩ := call_of_invalid hlegal hv (symbolCommands vs ++ [(encode .txend, .none)])
  exact ⟨raise c cs s, c, (modulate_eq_call m P vs s).trans hcall, hc, rfl, rfl⟩

theorem demodulate_invalid {P : Params} {s : State} (hst : s.rx.st = .idle) (hv : validate P ≠ []) (xs : List Quantity) :
    ∃ t c, demodulate P xs s = .next t ∧ c ≠ .ok ∧ t.rxout = s.rxout ∧ t.rsp = s.rsp ++ [c] := by
  obtain ⟨c, cs, hc, hcall⟩ := call_of_invalid (start_legal_of_idle (.inr ⟨rfl, hst⟩)) hv
    (sampleCommands xs ++ [(encode .rxend, .none)])
  exact ⟨raise c cs s, c, hcall, hc, rfl, rfl⟩

theorem modulate_empty {P : Params} {s : State} (hst : s.tx.st = .idle) (hv : validate P = []) (m : Mode) :
    ∃ t, modulate m P [] s = .next t ∧ t.txout = s.txout ∧ t.rsp = s.rsp ++ [.ok, .ok] :=
  ⟨_, modulate_valid hst hv (by simp) m, List.append_nil _, rfl⟩

theorem demodulate_empty {P : Params} {s : State} (hst : s.rx.st = .idle) (hv : validate P = []) :
    ∃ t, demodulate P [] s = .next t ∧ t.rxout = s.rxout ∧ t.rsp = s.rsp ++ [.ok, .ok] := by
  refine ⟨_, demodulate_valid hst hv [], ?_, rfl⟩
  exact (congrArg (s.rxout ++ ·) (windowBits_of_short (xs := []) (samplesPerSymbol_pos hv))).trans (List.append_nil _)

/-! ## The bits of a byte (rules R33, R87) -/

theorem byteBits_eq_shifts (b : Nat) : byteBits b = [7, 6, 5, 4, 3, 2, 1, 0].map fun q => (b >>> q) % 2 := by
  simp [byteBits, Nat.shiftRight_eq_div_pow]

theorem packBits_byteBits {b : Nat} (h : b < 256) : packBits (byteBits b) = b := by
  simp only [packBits, byteBits, List.foldl_cons, List.foldl_nil]
  omega

end Machine
end Sys2Proof

open Sys2Proof Sys2Proof.Machine

/-- Settles O46: the bits of the call are those of its complete windows. -/
theorem demodulateClosedForm : Obligations.DemodulateClosedForm := fun _ xs _ hst hv =>
  ⟨_, demodulate_valid hst hv xs, rfl, rfl, rfl⟩

/-- Settles O49: the sums of a silent window stay 0, so its magnitudes tie. -/
theorem silenceDecodesToOne : Obligations.SilenceDecodesToOne := fun P L s hst hv =>
  ⟨_, demodulate_valid hst hv _, congrArg (s.rxout ++ ·) (windowBits_silence P L)⟩

/-- Settles O50: the references of both tones begin at angle 0, so a window of one sample ties. -/
theorem singleSampleWindowsTie : Obligations.SingleSampleWindowsTie := fun _ xs s hst hv h =>
  ⟨_, demodulate_valid hst hv xs, congrArg (s.rxout ++ ·) (windowBits_of_single h xs)⟩

/-- Settles O48: an empty call is its START and its END, and a START that faults ends the call. -/
theorem emptyCalls : Obligations.EmptyCalls := fun _ _ =>
  ⟨fun hst hv => ⟨modulate_empty hst hv .fsk, modulate_empty hst hv .cpfsk⟩, demodulate_empty,
    fun hst hv => ⟨modulate_invalid hst hv .fsk [], modulate_invalid hst hv .cpfsk []⟩,
    fun hst hv => demodulate_invalid hst hv []⟩

/-- Settles O52: the digits of a byte, highest first, are its shifts modulo 2, and Horner's scheme packs them. -/
theorem byteOrder : Obligations.ByteOrder :=
  ⟨fun b hb => ⟨byteBits_eq_shifts b, packBits_byteBits hb⟩, by decide⟩

end

section
/-! PROOF. O44, O45: the waveform of a modulation call symbol by symbol, and its elements in closed form in both modes. -/

namespace Sys2Proof.Machine

/-! ## The TX unit between two symbols -/

/-- A symbol sequence keeps every register but `TX.N` and `TX.PHI`, in either mode. -/
theorem afterSymbols_eq (vs : List Nat) (u : TxUnit) :
    afterSymbols vs u = { u with n := u.n + vs.length * u.sps, phi := (afterSymbols vs u).phi } := by
  induction vs generalizing u with
  | nil => simp [afterSymbols]
  | cons v vs ih =>
    rw [afterSymbols, ih, afterSymbol_eq, List.length_cons, Nat.succ_mul]
    simp only [TxUnit.mk.injEq, true_and, and_true]
    omega

@[simp] theorem afterSymbols_mode (vs : List Nat) (u : TxUnit) : (afterSymbols vs u).mode = u.mode := by
  rw [afterSymbols_eq]

@[simp] theorem afterSymbols_f0 (vs : List Nat) (u : TxUnit) : (afterSymbols vs u).f0 = u.f0 := by rw [afterSymbols_eq]

@[simp] theorem afterSymbols_f1 (vs : List Nat) (u : TxUnit) : (afterSymbols vs u).f1 = u.f1 := by rw [afterSymbols_eq]

@[simp] theorem afterSymbols_fs (vs : List Nat) (u : TxUnit) : (afterSymbols vs u).fs = u.fs := by rw [afterSymbols_eq]

@[simp] theorem afterSymbols_sps (vs : List Nat) (u : TxUnit) : (afterSymbols vs u).sps = u.sps := by rw [afterSymbols_eq]

@[simp] theorem afterSymbols_n (vs : List Nat) (u : TxUnit) : (afterSymbols vs u).n = u.n + vs.length * u.sps := by
  rw [afterSymbols_eq]

/-- In `CPFSK` mode a symbol sequence advances the accumulator by the increments of all its samples (rule R89). -/
theorem afterSymbols_phi_val {vs : List Nat} {u : TxUnit} (h : u.mode = .cpfsk) :
    (afterSymbols vs u).phi.val = u.phi.val +
      2 * Real.pi / u.fs.val * (u.sps * (vs.map fun v => (mapFreq v u.f0 u.f1).val).sum) := by
  induction vs generalizing u with
  | nil => simp [afterSymbols]
  | cons v vs ih =>
    have hmode : (afterSymbol v u).mode = .cpfsk := by rw [afterSymbol_eq]; exact h
    have hphi : (afterSymbol v u).phi.val = u.phi.val + u.sps * (2 * Real.pi * (mapFreq v u.f0 u.f1).val / u.fs.val) :=
      txAfter_phi_val h
    rw [afterSymbols, ih hmode, hphi, afterSymbol_eq, List.map_cons, List.sum_cons]
    ring

/-! ## The samples of one symbol -/

@[simp] theorem symbolWave_length (v : Nat) (u : TxUnit) : (symbolWave v u).length = u.sps := txWave_length ..

/-- The stretch of the waveform that belongs to the `j`-th symbol. -/
theorem symbolsWave_stretch {vs : List Nat} {u : TxUnit} {j v : Nat} (hj : vs[j]? = some v) :
    ((symbolsWave vs u).drop (j * u.sps)).take u.sps = symbolWave v (afterSymbols (vs.take j) u) := by
  induction vs generalizing u j with
  | nil => cases hj
  | cons w vs ih =>
    cases j with
    | zero =>
      cases hj
      rw [Nat.zero_mul, List.drop_zero, symbolsWave, List.take_left' (symbolWave_length v u)]
      rfl
    | succ j =>
      have hsps : (afterSymbol w u).sps = u.sps := by rw [afterSymbol_eq]
      have hrest := ih (u := afterSymbol w u) hj
      rw [Nat.succ_mul, Nat.add_comm, ← List.drop_drop, symbolsWave, List.drop_left' (symbolWave_length w u), ← hsps, hrest]
      rfl

/-- Which symbol the `i`-th element belongs to, and which pass of its loop emits it. -/
theorem symbolsWave_getElem? {vs : List Nat} {u : TxUnit} {i : Nat} (hi : i < vs.length * u.sps) :
    i % u.sps < u.sps ∧ ∃ v, vs[i / u.sps]? = some v ∧ (symbolsWave vs u)[i]? =
      (txWave (mapFreq v u.f0 u.f1) u.sps (afterSymbols (vs.take (i / u.sps)) u))[i % u.sps]? := by
  have hpos : 0 < u.sps := Nat.pos_of_mul_pos_left (Nat.zero_lt_of_lt hi)
  have hk : i % u.sps < u.sps := Nat.mod_lt i hpos
  have hj : vs[i / u.sps]? = some _ := List.getElem?_eq_getElem ((Nat.div_lt_iff_lt_mul hpos).mpr hi)
  refine ⟨hk, _, hj, ?_⟩
  have hstretch := symbolsWave_stretch (u := u) hj
  rw [symbolWave, afterSymbols_f0, afterSymbols_f1, afterSymbols_sps] at hstretch
  rw [← hstretch, List.getElem?_take_of_lt hk, List.getElem?_drop, Nat.div_add_mod']

/-- The global index of a sample counts the samples of the symbols before it. -/
theorem afterSymbols_take_n {vs : List Nat} {u : TxUnit} {i : Nat} (hi : i < vs.length * u.sps) :
    (afterSymbols (vs.take (i / u.sps)) u).n + i % u.sps = u.n + i := by
  have hcount : (vs.take (i / u.sps)).length = i / u.sps :=
    List.length_take_of_le (Nat.div_le_of_le_mul (by rw [Nat.mul_comm]; exact hi.le))
  rw [afterSymbols_n, hcount, Nat.add_assoc, Nat.div_add_mod']

/-- The elements of a call in `FSK` mode (rule R88). -/
theorem symbolsWave_fsk {vs : List Nat} {u : TxUnit} (h : u.mode = .fsk) {i : Nat} (hi : i < vs.length * u.sps) :
    ∃ v, vs[i / u.sps]? = some v ∧
      (symbolsWave vs u)[i]? = some (sampleFsk (mapFreq v u.f0 u.f1) (u.n + i) u.fs) := by
  obtain ⟨hk, v, hv, helem⟩ := symbolsWave_getElem? hi
  rw [txWave_fsk ((afterSymbols_mode ..).trans h) hk, afterSymbols_take_n hi, afterSymbols_fs] at helem
  exact ⟨v, hv, helem⟩

/-- The elements of a call in `CPFSK` mode (rule R89). -/
theorem symbolsWave_cpfsk {vs : List Nat} {u : TxUnit} (h : u.mode = .cpfsk) {i : Nat} (hi : i < vs.length * u.sps) :
    ∃ v x, vs[i / u.sps]? = some v ∧
      (symbolsWave vs u)[i]? = some (x, Quantity.div (Quantity.ofNat (u.n + i)) u.fs) ∧
      x.val = Real.sin (u.phi.val + 2 * Real.pi / u.fs.val *
        (u.sps * ((vs.take (i / u.sps)).map fun v => (mapFreq v u.f0 u.f1).val).sum +
          ((i % u.sps : ℕ) + 1) * (mapFreq v u.f0 u.f1).val)) := by
  obtain ⟨hk, v, hv, helem⟩ := symbolsWave_getElem? hi
  obtain ⟨x, hx, hval⟩ := txWave_cpfsk (f := mapFreq v u.f0 u.f1) ((afterSymbols_mode ..).trans h) hk
  rw [afterSymbols_take_n hi, afterSymbols_fs] at hx
  rw [afterSymbols_phi_val h, afterSymbols_fs] at hval
  refine ⟨v, x, hv, helem.trans hx, hval.trans (congrArg Real.sin ?_)⟩
  ring

end Sys2Proof.Machine

open Sys2Proof Sys2Proof.Machine

/-- Settles O44: the `i`-th element is the sample of its symbol's tone at the global index `i`. -/
theorem modulateFskClosedForm : Obligations.ModulateFskClosedForm := by
  intro P vs s hst hv hvs
  refine ⟨_, symbolsWave vs (openTx .fsk P s.tx), modulate_valid hst hv hvs .fsk, rfl, rfl, rfl, symbolsWave_length ..,
    fun i hi => ?_⟩
  obtain ⟨v, hsymbol, helem⟩ := symbolsWave_fsk (u := openTx .fsk P s.tx) rfl hi
  obtain ⟨hsample, htime⟩ := sampleFsk_val (mapFreq v P.freq0 P.freq1) i P.samplingRate
  rw [openTx_n, Nat.zero_add] at helem
  rw [← mul_div_assoc] at hsample
  exact ⟨_, v, helem, hsymbol, hsample, htime⟩

/-- Settles O45: the accumulator holds the increments of the symbols before and of the passes of this one. -/
theorem modulateCpfskClosedForm : Obligations.ModulateCpfskClosedForm := by
  intro P vs s hst hv hvs sps tone
  refine ⟨_, symbolsWave vs (openTx .cpfsk P s.tx), modulate_valid hst hv hvs .cpfsk, rfl, rfl, rfl,
    symbolsWave_length .., fun i hi => ?_⟩
  obtain ⟨v, x, hsymbol, helem, hsample⟩ := symbolsWave_cpfsk (u := openTx .cpfsk P s.tx) rfl hi
  rw [openTx_n, Nat.zero_add] at helem
  rw [openTx_phi, Quantity.zero_val, zero_add] at hsample
  exact ⟨_, v, helem, hsymbol, hsample, by simp⟩

end

section
/-! PROOF. O53, O54: the 16-bit codec.  A sample moves by at most half a step, a window of samples sample by sample, and
so do its sums and magnitudes (rules R93, R98). -/

namespace Sys2Proof.Machine

/-! ## One sample (rule R98) -/

/-- The bound `e` of rule R93: half a step of the 16-bit codec. -/
noncomputable def halfStep : ℝ := 0.5 / 32767

theorem halfStep_nonneg : 0 ≤ halfStep := by norm_num [halfStep]

theorem quantize_eq_some {x : ℝ} (h0 : -1 ≤ x) (h1 : x ≤ 1) : quantize x = some (roundNearest (x * 32767)) :=
  if_pos ⟨h0, h1⟩

/-- A sample of `[-1, 1]` becomes an integer of the 16-bit range. -/
theorem roundNearest_range {x : ℝ} (h0 : -1 ≤ x) (h1 : x ≤ 1) :
    -32767 ≤ roundNearest (x * 32767) ∧ roundNearest (x * 32767) ≤ 32767 := by
  obtain ⟨hlo, hhi⟩ := abs_le.mp (roundNearest_near (x * 32767))
  have hlo' : ((-32768 : ℤ) : ℝ) < roundNearest (x * 32767) := by push_cast; linarith
  have hhi' : (roundNearest (x * 32767) : ℝ) < (32768 : ℤ) := by push_cast; linarith
  exact ⟨Int.cast_lt.mp hlo', Int.lt_add_one_iff.mp (Int.cast_lt.mp hhi')⟩

/-- The integer, turned back into a sample, is at most half a step away, on either side of an exact half. -/
theorem dequantize_roundNearest_near (x : ℝ) : |(dequantize (roundNearest (x * 32767))).val - x| ≤ halfStep := by
  obtain ⟨hlo, hhi⟩ := abs_le.mp (roundNearest_near (x * 32767))
  rw [dequantize_val, abs_le, halfStep]
  constructor <;> linarith

/-! ## A window (rules R73, R93) -/

/-- The samples of two windows that differ by at most `e` each. -/
def Near (e : ℝ) (xs ys : List Quantity) : Prop := List.Forall₂ (fun x y => |y.val - x.val| ≤ e) xs ys

theorem near_of_codec {xs ys : List Quantity} (h : waveformThroughCodec xs = some ys) : Near halfStep xs ys :=
  (waveformThroughCodec_eq_some.mp h).imp fun _ _ hxy => (throughCodec_near hxy).1

theorem Near.getD {e : ℝ} {xs ys : List Quantity} (h : Near e xs ys) {k : ℕ} (hk : k < xs.length) :
    |(ys.getD k Quantity.zero).val - (xs.getD k Quantity.zero).val| ≤ e := by
  have hk' : k < ys.length := hk.trans_eq h.length_eq
  rw [List.getD_eq_getElem _ _ hk, List.getD_eq_getElem _ _ hk']
  exact h.get hk hk'

/-- A correlation with a reference of at most 1 in size moves by at most the distance of the samples, once per sample. -/
theorem Near.correlation_le {e : ℝ} {xs ys : List Quantity} (h : Near e xs ys) {ref : ℕ → ℝ} (href : ∀ k, |ref k| ≤ 1) :
    |correlation ys ref - correlation xs ref| ≤ xs.length * e := by
  rw [correlation, correlation, ← h.length_eq, ← Finset.sum_sub_distrib]
  calc |∑ k ∈ Finset.range xs.length,
          ((ys.getD k Quantity.zero).val * ref k - (xs.getD k Quantity.zero).val * ref k)|
      ≤ ∑ k ∈ Finset.range xs.length, e := by
        refine (Finset.abs_sum_le_sum_abs _ _).trans (Finset.sum_le_sum fun k hk => ?_)
        have hsample := h.getD (Finset.mem_range.mp hk)
        rw [← sub_mul, abs_mul]
        exact (mul_le_of_le_one_right (abs_nonneg _) (href k)).trans hsample
    _ = xs.length * e := by rw [Finset.sum_const, Finset.card_range, nsmul_eq_mul]

theorem abs_refCos_le (f : Quantity) (fs : Quantity) (k : ℕ) : |(refCos f k fs).val| ≤ 1 := by
  rw [refCos_val]
  exact Real.abs_cos_le_one _

theorem abs_refSin_le (f : Quantity) (fs : Quantity) (k : ℕ) : |(refSin f k fs).val| ≤ 1 := by
  rw [refSin_val]
  exact Real.abs_sin_le_one _

/-- The four sums of a window move by at most the distance of the samples, once per sample. -/
theorem Near.sums_le {e : ℝ} {xs ys : List Quantity} (h : Near e xs ys) (P : Params) :
    |(windowSums P ys).i0.val - (windowSums P xs).i0.val| ≤ xs.length * e ∧
    |(windowSums P ys).q0.val - (windowSums P xs).q0.val| ≤ xs.length * e ∧
    |(windowSums P ys).i1.val - (windowSums P xs).i1.val| ≤ xs.length * e ∧
    |(windowSums P ys).q1.val - (windowSums P xs).q1.val| ≤ xs.length * e := by
  obtain ⟨hi0, hq0, hi1, hq1⟩ := windowSums_val P xs
  obtain ⟨hi0', hq0', hi1', hq1'⟩ := windowSums_val P ys
  rw [hi0, hq0, hi1, hq1, hi0', hq0', hi1', hq1']
  exact ⟨h.correlation_le (abs_refCos_le _ _), h.correlation_le (abs_refSin_le _ _),
    h.correlation_le (abs_refCos_le _ _), h.correlation_le (abs_refSin_le _ _)⟩

/-- A magnitude moves by at most the root of 2 times the bound on its two sums. -/
theorem mag_moves_le {i q i' q' : Quantity} {d : ℝ} (hi : |i'.val - i.val| ≤ d) (hq : |q'.val - q.val| ≤ d) :
    |(mag i' q').val - (mag i q).val| ≤ Real.sqrt 2 * d := by
  have hd : 0 ≤ d := (abs_nonneg _).trans hi
  rw [mag_val, mag_val]
  refine (abs_sqrt_sub_le _ _ _ _).trans ?_
  rw [← Real.sqrt_sq hd, ← Real.sqrt_mul zero_le_two]
  exact Real.sqrt_le_sqrt (by linarith [sq_le_sq.mpr (hi.trans (le_abs_self d)), sq_le_sq.mpr (hq.trans (le_abs_self d))])

/-- The two magnitudes of a window move by at most the root of 2 times the bound on the sums. -/
theorem Near.mags_le {e : ℝ} {xs ys : List Quantity} (h : Near e xs ys) (P : Params) :
    |(mag (windowSums P ys).i0 (windowSums P ys).q0).val - (mag (windowSums P xs).i0 (windowSums P xs).q0).val| ≤
      Real.sqrt 2 * xs.length * e ∧
    |(mag (windowSums P ys).i1 (windowSums P ys).q1).val - (mag (windowSums P xs).i1 (windowSums P xs).q1).val| ≤
      Real.sqrt 2 * xs.length * e := by
  obtain ⟨hi0, hq0, hi1, hq1⟩ := h.sums_le P
  rw [mul_assoc]
  exact ⟨mag_moves_le hi0 hq0, mag_moves_le hi1 hq1⟩

/-- At 147 samples per symbol the magnitudes move by less than 0.0032. -/
theorem mag_bound_147 : Real.sqrt 2 * 147 * halfStep < 0.0032 := by
  have hroot : Real.sqrt 2 < 1.42 := (Real.sqrt_lt' (by norm_num)).mpr (by norm_num)
  rw [halfStep]
  linarith

end Sys2Proof.Machine

open Sys2Proof Sys2Proof.Machine

/-- Settles O53: the integer is the nearest one to 32767 times the sample. -/
theorem quantizationBound : Obligations.QuantizationBound := by
  intro x h0 h1
  obtain ⟨hlo, hhi⟩ := roundNearest_range h0 h1
  exact ⟨_, quantize_eq_some h0 h1, hlo, hhi, dequantize_val _, dequantize_roundNearest_near x⟩

/-- Settles O54: the bound on one sample, summed over the window, and the triangle inequality of the magnitude. -/
theorem quantizationMovesWindows : Obligations.QuantizationMovesWindows := by
  refine ⟨fun P window hrange => ?_, mag_bound_147⟩
  obtain ⟨quantized, hcodec⟩ := waveformThroughCodec_isSome hrange
  have hnear := near_of_codec hcodec
  obtain ⟨hi0, hq0, hi1, hq1⟩ := hnear.sums_le P
  exact ⟨quantized, hcodec, hnear.length_eq.symm, hi0, hq0, hi1, hq1, hnear.mags_le P⟩

end

section
/-! PROOF. O58, O56: windows that hold one tone of any start phase.  Their sums in closed form where the tone makes whole
cycles (rule R100), and their magnitudes at the calibration parameters, where every symbol is such a window (rule R93). -/

namespace Sys2Proof

/-! ## Whole cycles over the reals (rule R100) -/

/-- A tone that makes whole cycles correlates with itself as its start phase alone does: the circle of twice its step
closes up. -/
theorem whole_cycle_sums {a : ℝ} {n c : ℕ} (hcycles : n * a = c * (2 * Real.pi)) (ha : Real.sin a ≠ 0) (t : ℝ) :
    ∑ k ∈ Finset.range n, Real.sin (t + a * k) * Real.cos (a * k) = n / 2 * Real.sin t ∧
    ∑ k ∈ Finset.range n, Real.sin (t + a * k) * Real.sin (a * k) = n / 2 * Real.cos t := by
  have hhalf : (a + a) / 2 = a := by ring
  have hclosed : Real.sin (n * (a + a) / 2) = 0 := by
    rw [mul_div_assoc, hhalf, hcycles, ← mul_assoc, ← Nat.cast_ofNat, ← Nat.cast_mul]
    exact Real.sin_nat_mul_pi _
  have hsin := sum_sin_mul_sin (a + a) t n
  have hcos := sum_cos_mul_sin (a + a) t n
  rw [hclosed, zero_mul, hhalf, mul_eq_zero_iff_right ha] at hsin hcos
  rw [correlate_cos, correlate_sin, hsin, hcos]
  simp only [sub_self, zero_mul, add_zero, sub_zero, Finset.sum_const, Finset.card_range, nsmul_eq_mul]
  constructor <;> ring

/-- The sine of a step of `2 c / n` half turns is 0 only where these are whole half turns. -/
theorem sin_cycle_step_ne_zero {a : ℝ} {n c : ℕ} (hcycles : n * a = c * (2 * Real.pi)) (h : ¬ n ∣ 2 * c) :
    Real.sin a ≠ 0 := by
  intro ha
  obtain ⟨m, hm⟩ := Real.sin_eq_zero_iff.mp ha
  have hint : (2 * c : ℝ) * Real.pi = n * m * Real.pi := by rw [mul_assoc (n : ℝ), hm, hcycles]; ring
  have hdvd : (2 * c : ℤ) = n * m := by exact_mod_cast mul_right_cancel₀ Real.pi_ne_zero hint
  exact h (Int.natCast_dvd_natCast.mp ⟨m, by push_cast; exact hdvd⟩)

namespace Machine

/-! ## Windows of one tone -/

/-- The window holds one tone: start phase `t`, phase step `a` per sample. -/
def IsTone (window : List Quantity) (t a : ℝ) : Prop :=
  ∀ k < window.length, (window.getD k Quantity.zero).val = Real.sin (t + a * k)

/-- The first components of a list of elements hold a tone when each element is a sample of it. -/
theorem isTone_of_getElem? {wave : List (Quantity × Quantity)} {t a : ℝ}
    (h : ∀ k < wave.length, ∃ e, wave[k]? = some e ∧ e.1.val = Real.sin (t + a * k)) :
    IsTone (wave.map Prod.fst) t a := by
  intro k hk
  obtain ⟨e, he, hval⟩ := h k (by simpa using hk)
  rw [List.getD_eq_getElem?_getD, List.getElem?_map, he]
  exact hval

theorem refCos_eq_cos_step (f fs : Quantity) (k : ℕ) : (refCos f k fs).val = Real.cos ((deltaPhi f fs).val * k) := by
  rw [refCos_val, deltaPhi_val, div_mul_eq_mul_div, mul_div_assoc]

theorem refSin_eq_sin_step (f fs : Quantity) (k : ℕ) : (refSin f k fs).val = Real.sin ((deltaPhi f fs).val * k) := by
  rw [refSin_val, deltaPhi_val, div_mul_eq_mul_div, mul_div_assoc]

theorem IsTone.correlation_eq {window : List Quantity} {t a : ℝ} (h : IsTone window t a) (ref : ℕ → ℝ) :
    correlation window ref = ∑ k ∈ Finset.range window.length, Real.sin (t + a * k) * ref k :=
  Finset.sum_congr rfl fun k hk => by rw [h k (Finset.mem_range.mp hk)]

/-- The sums of a window of one tone, through the phase steps of its tone and of the two references. -/
theorem IsTone.sums {window : List Quantity} {t a : ℝ} (h : IsTone window t a) (P : Params) :
    (windowSums P window).i0.val = ∑ k ∈ Finset.range window.length,
      Real.sin (t + a * k) * Real.cos ((deltaPhi P.freq0 P.samplingRate).val * k) ∧
    (windowSums P window).q0.val = ∑ k ∈ Finset.range window.length,
      Real.sin (t + a * k) * Real.sin ((deltaPhi P.freq0 P.samplingRate).val * k) ∧
    (windowSums P window).i1.val = ∑ k ∈ Finset.range window.length,
      Real.sin (t + a * k) * Real.cos ((deltaPhi P.freq1 P.samplingRate).val * k) ∧
    (windowSums P window).q1.val = ∑ k ∈ Finset.range window.length,
      Real.sin (t + a * k) * Real.sin ((deltaPhi P.freq1 P.samplingRate).val * k) := by
  simpa only [h.correlation_eq, refCos_eq_cos_step, refSin_eq_sin_step] using windowSums_val P window

/-- The magnitudes of a window of one tone. -/
theorem IsTone.mags {window : List Quantity} {t a : ℝ} (h : IsTone window t a) (P : Params) :
    (mag (windowSums P window).i0 (windowSums P window).q0).val =
      toneMag t a (deltaPhi P.freq0 P.samplingRate).val window.length ∧
    (mag (windowSums P window).i1 (windowSums P window).q1).val =
      toneMag t a (deltaPhi P.freq1 P.samplingRate).val window.length := by
  obtain ⟨hi0, hq0, hi1, hq1⟩ := h.sums P
  rw [mag_val, mag_val, hi0, hq0, hi1, hq1, toneMag, toneMag]
  exact ⟨rfl, rfl⟩

theorem mag_of_circle {i q : Quantity} {r t : ℝ} (hr : 0 ≤ r) (hi : i.val = r * Real.sin t)
    (hq : q.val = r * Real.cos t) : (mag i q).val = r := by
  rw [mag_val, hi, hq, mul_pow, mul_pow, ← mul_add, Real.sin_sq_add_cos_sq, mul_one, Real.sqrt_sq hr]

/-! ## The symbols of a modulation call -/

/-- In either mode a symbol is a stretch of its tone: in `FSK` mode the start phase is that of the global index, in `CPFSK`
mode that of the accumulator one increment on. -/
theorem symbolWave_isTone (v : Nat) (u : TxUnit) :
    ∃ t, IsTone ((symbolWave v u).map Prod.fst) t (deltaPhi (mapFreq v u.f0 u.f1) u.fs).val := by
  cases hm : u.mode with
  | fsk =>
    refine ⟨(deltaPhi (mapFreq v u.f0 u.f1) u.fs).val * u.n, isTone_of_getElem? fun k hk => ?_⟩
    rw [symbolWave_length] at hk
    refine ⟨_, txWave_fsk hm hk, ?_⟩
    rw [(sampleFsk_val ..).1, deltaPhi_val]
    congr 1; push_cast; ring
  | cpfsk =>
    refine ⟨u.phi.val + (deltaPhi (mapFreq v u.f0 u.f1) u.fs).val, isTone_of_getElem? fun k hk => ?_⟩
    rw [symbolWave_length] at hk
    obtain ⟨x, hx, hval⟩ := txWave_cpfsk (f := mapFreq v u.f0 u.f1) hm hk
    refine ⟨_, hx, hval.trans ?_⟩
    rw [deltaPhi_val]
    congr 1; ring

/-- The window of the `j`-th symbol is that symbol's part of the waveform. -/
theorem windowOf_symbolsWave {vs : List Nat} {u : TxUnit} {j v : Nat} (hj : vs[j]? = some v) :
    windowOf u.sps j ((symbolsWave vs u).map Prod.fst) =
      (symbolWave v (afterSymbols (vs.take j) u)).map Prod.fst := by
  rw [windowOf, ← List.map_drop, ← List.map_take, symbolsWave_stretch hj]

/-! ## The calibration parameters (rules R91, R93) -/

theorem validate_calibration : validate calibration = [] := by decide

theorem samplesPerSymbol_calibration : samplesPerSymbol calibration = 147 := by decide

theorem deltaPhi_calibration :
    (deltaPhi calibration.freq0 calibration.samplingRate).val = calStep 6 ∧
    (deltaPhi calibration.freq1 calibration.samplingRate).val = calStep 11 := by
  simp only [calibration, deltaPhi_val, Quantity.ofNat_val, calStep]
  push_cast
  constructor <;> ring

/-- The magnitude at the tone of the bit is above the other one by more than the margin. -/
def SentAbove (margin : ℝ) (b : Bit) (u : RxUnit) : Prop :=
  if b = 0 then (mag u.i0 u.q0).val > (mag u.i1 u.q1).val + margin
  else (mag u.i1 u.q1).val > (mag u.i0 u.q0).val + margin

theorem mapFreq_bit (b : Bit) (f0 f1 : Quantity) : mapFreq b.toNat f0 f1 = if b = 0 then f0 else f1 := by
  simp only [mapFreq, BitVec.toNat_eq]
  rfl

/-- The waveform of a bit sequence at the calibration parameters. -/
def calibrationWave (m : Mode) (bits : List Bit) (u : TxUnit) : List Quantity :=
  (symbolsWave (bits.map BitVec.toNat) (openTx m calibration u)).map Prod.fst

theorem calibrationWave_length (m : Mode) (bits : List Bit) (u : TxUnit) :
    (calibrationWave m bits u).length = bits.length * 147 := by
  rw [calibrationWave, List.length_map, symbolsWave_length, List.length_map, openTx_sps, samplesPerSymbol_calibration]

/-- A window of the tone of a bit, at any start phase. -/
theorem IsTone.sentAbove {window : List Quantity} {t : ℝ} {b : Bit} (hlength : window.length = 147)
    (h : IsTone window t (deltaPhi (mapFreq b.toNat calibration.freq0 calibration.freq1) calibration.samplingRate).val) :
    SentAbove 64 b (windowSums calibration window) := by
  obtain ⟨h0, h1⟩ := h.mags calibration
  obtain ⟨hlow, hhigh⟩ := deltaPhi_calibration
  rw [SentAbove, h0, h1, hlength, hlow, hhigh]
  by_cases hb : b = 0
  · rw [if_pos hb, mapFreq_bit, if_pos hb, hlow]
    exact low_tone_margin t
  · rw [if_neg hb, mapFreq_bit, if_neg hb, hhigh]
    exact high_tone_margin t

theorem calibrationWave_sentAbove {m : Mode} {bits : List Bit} {u : TxUnit} {j : Nat} {b : Bit}
    (hj : bits[j]? = some b) : SentAbove 64 b (windowSums calibration (windowOf 147 j (calibrationWave m bits u))) := by
  have hsymbol : (bits.map BitVec.toNat)[j]? = some b.toNat := by rw [List.getElem?_map, hj]; rfl
  have hwindow := windowOf_symbolsWave (u := openTx m calibration u) hsymbol
  rw [openTx_sps, samplesPerSymbol_calibration] at hwindow
  obtain ⟨t, htone⟩ := symbolWave_isTone b.toNat (afterSymbols ((bits.map BitVec.toNat).take j) (openTx m calibration u))
  rw [afterSymbols_f0, afterSymbols_f1, afterSymbols_fs] at htone
  rw [calibrationWave, hwindow]
  refine IsTone.sentAbove ?_ htone
  rw [List.length_map, symbolWave_length, afterSymbols_sps, openTx_sps, samplesPerSymbol_calibration]

/-- A modulation call at the calibration parameters. -/
theorem modulate_calibration {s : State} (hst : s.tx.st = .idle) (m : Mode) (bits : List Bit) :
    ∃ t, modulate m calibration (bits.map BitVec.toNat) s = .next t ∧ t.rx = s.rx ∧ t.rxout = s.rxout ∧
      t.rsp.getLast? = some .ok ∧ ∃ wave, t.txout = s.txout ++ wave ∧ wave.map Prod.fst = calibrationWave m bits s.tx := by
  have hvalues : ∀ v ∈ bits.map BitVec.toNat, v < 16 :=
    List.forall_mem_map.mpr fun b _ => lt_trans b.isLt (by norm_num)
  exact ⟨_, modulate_valid hst validate_calibration hvalues m, rfl, rfl, by simp [List.getLast?_replicate], _, rfl, rfl⟩

end Machine
end Sys2Proof

open Sys2Proof Sys2Proof.Machine

/-- Settles O58: the step makes `c` whole cycles over the window and is no multiple of half a turn, so the window correlates
with its own tone as its start phase does. -/
theorem wholeCycleWindows : Obligations.WholeCycleWindows := by
  intro P window f theta c hfs _ hcycles hdvd hsamples u half
  have hturns : window.length * (deltaPhi f P.samplingRate).val = c * (2 * Real.pi) := by
    rw [deltaPhi_val, mul_div_assoc', div_eq_iff hfs]
    linear_combination 2 * Real.pi * hcycles
  have htone : IsTone window theta (deltaPhi f P.samplingRate).val := fun k hk => by
    rw [hsamples k hk, deltaPhi_val, add_comm, div_mul_eq_mul_div]
  obtain ⟨hcos, hsin⟩ := whole_cycle_sums hturns (sin_cycle_step_ne_zero hturns hdvd) theta
  obtain ⟨hi0, hq0, hi1, hq1⟩ := htone.sums P
  have hhalf : 0 ≤ half := by positivity
  refine ⟨fun hf => ?_, fun hf => ?_⟩
  · rw [hf] at hi0 hq0
    exact ⟨hi0.trans hcos, hq0.trans hsin, mag_of_circle hhalf (hi0.trans hcos) (hq0.trans hsin)⟩
  · rw [hf] at hi1 hq1
    exact ⟨hi1.trans hcos, hq1.trans hsin, mag_of_circle hhalf (hi1.trans hcos) (hq1.trans hsin)⟩

/-- Settles O56: every symbol is a window of its tone, and such a window has the margin at any start phase. -/
theorem calibrationMargin : Obligations.CalibrationMargin := by
  intro m bits s hst
  obtain ⟨t, hcall, -, -, -, wave, htxout, hwave⟩ := modulate_calibration hst m bits
  rw [← callWaveform_eq htxout] at hwave
  refine ⟨t, hcall, ?_, fun j b hj => ?_⟩
  · rw [hwave, calibrationWave_length]
  · rw [hwave]
    exact calibrationWave_sentAbove hj

end

section
/-! PROOF. O51, O57: the round trip at the calibration parameters, straight and through the codec.  Every window keeps the
tone that was sent above the other one, so the demodulator decides the bits that were sent (rules R91, R93). -/

namespace Sys2Proof.Machine

/-! ## The numbers of the round trip are real numbers -/

theorem txWave_defined {f : Quantity} (hf : f.Defined) {k : Nat} {u : TxUnit} (h : u.RegsDefined) :
    (txAfter f k u).RegsDefined ∧ ∀ e ∈ txWave f k u, e.1.Defined := by
  induction k generalizing u with
  | zero => exact ⟨h, nofun⟩
  | succ k ih =>
    obtain ⟨hafter, hwave⟩ := ih (txNext_regsDefined hf h)
    exact ⟨hafter, List.forall_mem_cons.mpr ⟨(synthesize_defined hf h).1, hwave⟩⟩

theorem symbolsWave_defined {vs : List Nat} {u : TxUnit} (h : u.RegsDefined) : ∀ e ∈ symbolsWave vs u, e.1.Defined := by
  induction vs generalizing u with
  | nil => exact nofun
  | cons v vs ih =>
    obtain ⟨hafter, hwave⟩ := txWave_defined (defined_mapFreq h.f0 h.f1 v) (k := u.sps) h
    exact List.forall_mem_append.mpr ⟨hwave, ih hafter⟩

theorem windowSums_regsDefined {P : Params} (hP : paramsDefined P) (hv : validate P = []) {window : List Quantity}
    (h : ∀ x ∈ window, x.Defined) : (windowSums P window).RegsDefined := by
  induction window using List.reverseRecOn with
  | nil => exact openRx_regsDefined hP hv _
  | append_singleton w x ih =>
    obtain ⟨hw, hx⟩ := List.forall_mem_append.mp h
    rw [windowSums_snoc]
    exact integrate_regsDefined (hx x List.mem_cons_self) (ih hw)

theorem codec_defined {xs ys : List Quantity} (h : waveformThroughCodec xs = some ys) : ∀ y ∈ ys, y.Defined := by
  have hsamples := waveformThroughCodec_eq_some.mp h
  induction hsamples with
  | nil => exact nofun
  | cons hxy hrest ih =>
    exact List.forall_mem_cons.mpr ⟨(throughCodec_near hxy).2, ih (waveformThroughCodec_eq_some.mpr hrest)⟩

theorem paramsDefined_calibration : paramsDefined calibration :=
  ⟨Quantity.defined_ofNat 1200, Quantity.defined_ofNat 2200, Quantity.defined_ofNat 44100, Quantity.defined_ofNat 300⟩

theorem calibrationWave_defined (m : Mode) (bits : List Bit) (u : TxUnit) :
    ∀ x ∈ calibrationWave m bits u, x.Defined :=
  List.forall_mem_map.mpr (symbolsWave_defined (openTx_regsDefined paramsDefined_calibration validate_calibration m u))

/-! ## From the margin to the bit -/

/-- The detector decides the bit whose tone is above the other one. -/
theorem SentAbove.windowBit_eq {b : Bit} {u : RxUnit} (h : SentAbove 0 b u) (hu : u.RegsDefined) : windowBit u = b := by
  have h0 := defined_mag hu.i0 hu.q0
  have h1 := defined_mag hu.i1 hu.q1
  rw [SentAbove, add_zero, add_zero] at h
  by_cases hb : b = 0
  · rw [if_pos hb] at h
    exact ((decideBit_eq_zero_iff h0 h1).mpr h).trans hb.symm
  · rw [if_neg hb] at h
    exact ((decideBit_eq_one_iff h0 h1).mpr h.le).trans (by bv_omega)

theorem SentAbove.mono {a c : ℝ} {b : Bit} {u : RxUnit} (h : SentAbove a b u) (hac : c ≤ a) : SentAbove c b u := by
  unfold SentAbove at h ⊢
  split_ifs at h ⊢ <;> linarith

/-- A window that is moved a little keeps the tone that was sent on top, by the margin less what the two magnitudes
move. -/
theorem SentAbove.of_near {a e : ℝ} {b : Bit} {P : Params} {xs ys : List Quantity}
    (h : SentAbove a b (windowSums P xs)) (hnear : Near e xs ys) :
    SentAbove (a - 2 * (Real.sqrt 2 * xs.length * e)) b (windowSums P ys) := by
  obtain ⟨h0, h1⟩ := hnear.mags_le P
  obtain ⟨h0lo, h0hi⟩ := abs_le.mp h0
  obtain ⟨h1lo, h1hi⟩ := abs_le.mp h1
  unfold SentAbove at h ⊢
  split_ifs at h ⊢ <;> linarith

/-- A waveform of one window per bit, each with the tone of its bit on top, decodes to the bits. -/
theorem windowBits_of_sentAbove {P : Params} (hP : paramsDefined P) (hv : validate P = []) {xs : List Quantity}
    {bits : List Bit} (hdef : ∀ x ∈ xs, x.Defined) (hlength : xs.length = bits.length * samplesPerSymbol P)
    (h : ∀ j b, bits[j]? = some b → SentAbove 0 b (windowSums P (windowOf (samplesPerSymbol P) j xs))) :
    windowBits P xs = bits := by
  have hcount : xs.length / samplesPerSymbol P = bits.length := by
    rw [hlength, Nat.mul_div_cancel _ (samplesPerSymbol_pos hv)]
  refine List.ext_getElem (by rw [windowBits_length, hcount]) fun j _ hj => ?_
  have hwindow : ∀ x ∈ windowOf (samplesPerSymbol P) j xs, x.Defined := fun x hx =>
    hdef x (List.mem_of_mem_drop (List.mem_of_mem_take hx))
  simp only [windowBits, List.getElem_map, List.getElem_range]
  exact (h j _ (List.getElem?_eq_getElem hj)).windowBit_eq (windowSums_regsDefined hP hv hwindow)

theorem windowBits_calibrationWave (m : Mode) (bits : List Bit) (u : TxUnit) :
    windowBits calibration (calibrationWave m bits u) = bits := by
  refine windowBits_of_sentAbove paramsDefined_calibration validate_calibration (calibrationWave_defined m bits u) ?_
    fun j b hj => ?_
  · rw [samplesPerSymbol_calibration, calibrationWave_length]
  · rw [samplesPerSymbol_calibration]
    exact (calibrationWave_sentAbove hj).mono (by norm_num)

/-- The same after the codec, which takes less than `2 * 0.0032` off the margin of 64. -/
theorem windowBits_quantized {m : Mode} {bits : List Bit} {u : TxUnit} {ys : List Quantity}
    (hys : waveformThroughCodec (calibrationWave m bits u) = some ys) : windowBits calibration ys = bits := by
  have hnear := near_of_codec hys
  refine windowBits_of_sentAbove paramsDefined_calibration validate_calibration (codec_defined hys) ?_ fun j b hj => ?_
  · rw [samplesPerSymbol_calibration, ← hnear.length_eq, calibrationWave_length]
  · rw [samplesPerSymbol_calibration]
    have hwindow : Near halfStep (windowOf 147 j (calibrationWave m bits u)) (windowOf 147 j ys) :=
      List.forall₂_take _ (List.forall₂_drop _ hnear)
    have hlength : ((windowOf 147 j (calibrationWave m bits u)).length : ℝ) ≤ 147 := by
      exact_mod_cast List.length_take_le ..
    have hmoves : Real.sqrt 2 * (windowOf 147 j (calibrationWave m bits u)).length * halfStep < 0.0032 :=
      lt_of_le_of_lt (by have := halfStep_nonneg; gcongr) mag_bound_147
    exact ((calibrationWave_sentAbove hj).of_near hwindow).mono (by linarith)

/-! ## The two calls -/

theorem roundTrip_calibration {s : State} (htx : s.tx.st = .idle) (hrx : s.rx.st = .idle) (m : Mode) (bits : List Bit) :
    ∃ (t u : State) (wave : List (Quantity × Quantity)),
      modulate m calibration (bits.map BitVec.toNat) s = .next t ∧ t.txout = s.txout ++ wave ∧
      demodulate calibration (wave.map Prod.fst) t = .next u ∧ u.rxout = s.rxout ++ bits := by
  obtain ⟨t, hcall, hunit, hrxout, -, wave, htxout, hwave⟩ := modulate_calibration htx m bits
  have hidle : t.rx.st = .idle := hunit ▸ hrx
  refine ⟨t, _, wave, hcall, htxout, demodulate_valid hidle validate_calibration _, ?_⟩
  rw [hwave, windowBits_calibrationWave, hrxout]

/-- The chain, where the modulation call responds `OK` and the codec has a result. -/
theorem quantizedChain_of_ok {m : Mode} {P : Params} {vs : List Nat} {s t : State} {ys : List Quantity}
    (h : modulate m P vs s = .next t) (hok : t.rsp.getLast? = some .ok)
    (hys : waveformThroughCodec (callWaveform s t) = some ys) :
    quantizedChain m P vs s = some (demodulate P ys t) := by
  simp only [quantizedChain, h, if_pos hok, hys]

end Sys2Proof.Machine

open Sys2Proof Sys2Proof.Machine

/-- Settles O51: every window of the waveform decides its bit, in both modes. -/
theorem roundTripAtCalibration : Obligations.RoundTripAtCalibration := fun bits _ htx hrx =>
  ⟨roundTrip_calibration htx hrx .fsk bits, roundTrip_calibration htx hrx .cpfsk bits⟩

/-- Settles O57: the samples are sines, so the codec has a result, and its windows decide the same bits. -/
theorem quantizedRoundTripAtCalibration : Obligations.QuantizedRoundTripAtCalibration := by
  intro m bits s htx hrx
  obtain ⟨t, hcall, hunit, hrxout, hok, wave, htxout, hwave⟩ := modulate_calibration htx m bits
  obtain ⟨ys, hys⟩ := waveformThroughCodec_isSome (List.forall_mem_map.mpr
    (symbolsWave_bounds (vs := bits.map BitVec.toNat) (u := openTx m calibration s.tx)))
  have hidle : t.rx.st = .idle := hunit ▸ hrx
  have hcodec : waveformThroughCodec (callWaveform s t) = some ys := by rw [callWaveform_eq htxout, hwave]; exact hys
  refine ⟨_, (quantizedChain_of_ok hcall hok hcodec).trans
    (congrArg some (demodulate_valid hidle validate_calibration ys)), ?_⟩
  rw [windowBits_quantized hys, hrxout]

end

section
/-! PROOF. O17, O7, O14: the fault entry.  Which commands and words raise a fault, and that nothing but `ERR` and the
responses changes then. -/

namespace Sys2Proof.Machine

/-- Rule R106: a step on a reserved word raises `IllegalCommand`, after its delivery is taken. -/
theorem step_reserved {s : State} {w : CmdWord} {p : Payload} {rest : List HostEvent} {e : Reserved}
    (hin : s.input = .command w p :: rest) (hw : decode w = .error e) :
    step s = .next (raise .illegalCommand [] (deliver p rest s)) := by
  simp only [step, hin, execWord, hw, illegalCommand]

/-- Every command ends with its response, which empties the port (rule R38). -/
theorem exec_port {i : Instr} {s t : State} (h : exec i s = .next t) : t.port = .none := by
  obtain ⟨m, -, rfl, -⟩ := exec_move h
  rfl

/-- A START that completes has parameters in which `Validate` finds no cause (rule R58). -/
theorem Completed.validate_eq_nil {i : Instr} {s t : State} (h : Completed i s t) (hi : isStart i = true) :
    ∃ P, s.port = .params P ∧ validate P = [] := by
  cases i with
  | txstartF => obtain ⟨-, P, hp, hv, -⟩ := h; exact ⟨P, hp, hv⟩
  | txstartC => obtain ⟨-, P, hp, hv, -⟩ := h; exact ⟨P, hp, hv⟩
  | rxstart => obtain ⟨-, P, hp, hv, -⟩ := h; exact ⟨P, hp, hv⟩
  | _ => cases hi

end Sys2Proof.Machine

open Sys2Proof Sys2Proof.Machine

/-- Settles O17: a next state is the fault entry for the causes the command has, or the effect of a command that is legal
and, if a START, valid. -/
theorem faultsArePrecise : Obligations.FaultsArePrecise := by
  intro i s t h
  rcases exec_next h with ⟨c, cs, hf, rfl⟩ | hc
  · exact .inr ⟨c, cs, hf.ne_ok, hf, rfl⟩
  · obtain ⟨herr, hrsp⟩ := hc.err_rsp
    exact .inl ⟨hc.wrongState_eq, hc.validate_eq_nil, hrsp, herr, exec_port h, exec_input h⟩

/-- Settles O7: a word that matches no row of the map is one the decoder refuses. -/
theorem illegalCommandStep : Obligations.IllegalCommandStep := by
  intro s w p rest hin hw
  obtain ⟨e, he⟩ := (exists_decode_eq_error_iff w).mpr hw
  exact step_reserved hin he

/-- Settles O14: each of the seven commands is in the wrong state of its unit. -/
theorem sequenceErrors : Obligations.SequenceErrors := by
  rintro i s (⟨rfl | rfl, hst⟩ | ⟨rfl, hst⟩ | ⟨⟨v, rfl⟩ | rfl, hst⟩ | ⟨rfl | rfl, hst⟩) <;>
    exact exec_wrongState (decide_eq_true hst)

end

section
/-! PROOF. O20, O9, O3: every event that the host delivers in its shape comes to a next state, the reset event, and fifteen
words of the decode table. -/

namespace Sys2Proof.Machine

/-! ## A payload of the wrong shape (rule R130) -/

theorem payloadFits_params {i : Instr} (hi : isStart i = true) (P : Params) : i.payloadFits (.params P) = true := by
  cases i with
  | txstartF | txstartC | rxstart => rfl
  | _ => cases hi

theorem withParams_misfit {i : Instr} {s : State} (hi : isStart i = true) (h : i.payloadFits s.port = false)
    (f : Params → Result) : withParams s f = .refused .payloadShape := by
  cases hp : s.port with
  | params P =>
    rw [hp, payloadFits_params hi] at h
    cases h
  | sample x => simp only [withParams, hp]
  | none => simp only [withParams, hp]

theorem withSample_misfit {s : State} (h : Instr.payloadFits .rxsamp s.port = false) (f : Quantity → Result) :
    withSample s f = .refused .payloadShape := by
  cases hp : s.port with
  | sample x =>
    rw [hp] at h
    cases h
  | params P => simp only [withSample, hp]
  | none => simp only [withSample, hp]

theorem startTx_misfit {i : Instr} {s : State} (hst : s.tx.st = .idle) (hi : isStart i = true)
    (h : i.payloadFits s.port = false) (m : Mode) : startTx m s = .refused .payloadShape := by
  simp only [startTx, hst, withParams_misfit hi h]

theorem UnitState.active_of_not_idle {u : UnitState} (h : decide (u = .idle) = false) : u = .active := by
  cases u
  · cases h
  · rfl

/-- A command legal in its unit's state reads its payload, and refuses one of another shape. -/
theorem exec_misfit {i : Instr} {s : State} (hw : wrongState s i = false) (h : i.payloadFits s.port = false) :
    exec i s = .refused .payloadShape := by
  cases i with
  | txstartF => exact startTx_misfit (UnitState.idle_of_not_active hw) rfl h .fsk
  | txstartC => exact startTx_misfit (UnitState.idle_of_not_active hw) rfl h .cpfsk
  | rxstart =>
    have hst := UnitState.idle_of_not_active hw
    simp only [exec, execRxstart, hst, withParams_misfit rfl h]
  | rxsamp =>
    have hst := UnitState.active_of_not_idle hw
    simp only [exec, execRxsamp, hst, withSample_misfit h]
  | nop | txsym | txend | rxend => cases h

/-- A command that is not legal faults before its payload is examined (rule R110). -/
theorem exec_next_or_misfit (i : Instr) (s : State) :
    (∃ t, exec i s = .next t) ∨ exec i s = .refused .payloadShape ∧ i.payloadFits s.port = false := by
  cases h : i.payloadFits s.port with
  | true => exact .inl (exec_total h)
  | false =>
    cases hw : wrongState s i with
    | true => exact .inl ⟨_, exec_wrongState hw⟩
    | false => exact .inr ⟨exec_misfit hw h, rfl⟩

/-! ## The step on each event -/

theorem step_idle {s : State} (hin : s.input = []) : step s = .next s := by
  simp only [step, hin]

theorem step_reset {s : State} {rest : List HostEvent} (hin : s.input = .reset :: rest) :
    step s = .next (takeReset rest) := by
  simp only [step, hin]

/-- A step without a next state is the refusal of a payload that does not have the shape its command reads. -/
theorem step_next_or_misfit (s : State) :
    (∃ t, step s = .next t) ∨
      step s = .refused .payloadShape ∧ ∃ w p rest i, s.input = .command w p :: rest ∧ decode w = .ok i ∧
        i.payloadFits p = false := by
  match hin : s.input with
  | [] => exact .inl ⟨_, step_idle hin⟩
  | .reset :: _ => exact .inl ⟨_, step_reset hin⟩
  | .command w p :: rest =>
    cases hw : decode w with
    | error e => exact .inl ⟨_, step_reserved hin hw⟩
    | ok i =>
      rw [step_command hin hw]
      exact (exec_next_or_misfit i _).imp_right fun ⟨href, hfit⟩ => ⟨href, w, p, rest, i, rfl, hw, hfit⟩

theorem wellDelivered_command {w : CmdWord} {i : Instr} (hw : decode w = .ok i) (p : Payload) :
    wellDelivered (.command w p) = i.payloadFits p := by
  simp only [wellDelivered, hw]

end Sys2Proof.Machine

open Sys2Proof Sys2Proof.Machine

/-- Settles O20: the one step without a next state takes a payload of another shape, and such an event is not well
delivered. -/
theorem everyStepCompletes : Obligations.EveryStepCompletes := by
  intro s
  refine ⟨fun hwell => ?_, step_next_or_misfit s⟩
  rcases step_next_or_misfit s with hnext | ⟨-, w, p, rest, i, hin, hw, hmisfit⟩
  · exact hnext
  · have hfit := hwell (.command w p) (by rw [hin]; rfl)
    rw [wellDelivered_command hw, hmisfit] at hfit
    cases hfit

/-- Settles O9: the step takes the reset event, which keeps the further input alone. -/
theorem resetEvent : Obligations.ResetEvent := fun _ _ => step_reset

/-- Settles O3: each word is decoded. -/
theorem decodedWords : Obligations.DecodedWords := by
  unfold Obligations.DecodedWords
  decide

end
